-- ==== Sys2Proof/Word.lean ====
section
/-! DEFINITION. The word types of the core (00_scope R12, R14; 10_state R43, R51; 20_memory R71). -/

namespace Sys2Proof

/-- A 32-bit register or host-port word. -/
abbrev Word := BitVec 32

/-- An IEEE 754 binary32 bit pattern (00_scope R12 `f32`, 40_numerics R130). -/
abbrev F32 := BitVec 32

/-- A 16-bit Q15 sample (00_scope R14, 10_state R43). -/
abbrev Sample := BitVec 16

/-- A 64-bit signed container (00_scope R12 `i64`). -/
abbrev Wide := BitVec 64

/-- A host-port word address (20_memory R71). -/
abbrev PortAddr := BitVec 13

end Sys2Proof
end

