-- ==== Sys2Proof/Machine/Arith.lean ====
section
/-! DEFINITION. Exact integer arithmetic and its narrowings (40_numerics section 2). -/

namespace Sys2Proof.Machine

/-- `sat_W(v)` (40_numerics R122): clamps to the range of a `W`-bit two's-complement integer. -/
def sat (width : Nat) (v : Int) : Int :=
  if v < -(2 ^ (width - 1) : Int) then -(2 ^ (width - 1) : Int)
  else if (2 ^ (width - 1) : Int) - 1 < v then (2 ^ (width - 1) : Int) - 1
  else v

/-- `rne_shr(v, s)` (40_numerics R121): nearest to `v / 2^s`, a tie going to the even integer. -/
def rneShr (v : Int) (s : Nat) : Int :=
  let d : Int := 2 ^ s
  let q := v / d
  let r := v % d
  if d < 2 * r ∨ (2 * r = d ∧ q % 2 = 1) then q + 1 else q

/-- `rhu_shr(v, s)` (40_numerics R124): nearest, a tie going up. -/
def rhuShr (v : Int) (s : Nat) : Int :=
  (v + 2 ^ (s - 1)) / 2 ^ s

/-- `rhd_shr(v, s)` (40_numerics R124): nearest, a tie going down. -/
def rhdShr (v : Int) (s : Nat) : Int :=
  (v + 2 ^ (s - 1) - 1) / 2 ^ s

/-- The sum of products of two sequences, as far as the shorter one goes: every integer sum of the
sample path has this form (41_lpc_analyzer R160, R168). -/
def dot (xs ys : List Int) : Int :=
  (List.zipWith (fun x y => x * y) xs ys).sum

/-- The list of length `len` that starts as `l` and goes on with `d`: a register array written whole. -/
def padTo {α : Type} (len : Nat) (d : α) (l : List α) : List α :=
  (List.range len).map fun k => l.getD k d

end Sys2Proof.Machine
end

