-- ==== Sys2Proof/Machine/Float.lean ====
section
/-! DEFINITION. IEEE 754 binary32 as the coefficient path uses it (40_numerics section 3): round to nearest
even, gradual underflow, no fused operation, canonical NaN, no flags. -/

namespace Sys2Proof.Machine

/-- The canonical quiet NaN (40_numerics R131). -/
def fNaN : F32 := 0x7FC00000#32

/-- 1.0 (40_numerics R142 `ONE`). -/
def fOne : F32 := 0x3F800000#32

/-- +0.0 -/
def fZero : F32 := 0#32

/-- The field of bits [30:23] (40_numerics R130). -/
def fExpField (a : F32) : Nat := (a.toNat / 2 ^ 23) % 256

/-- The field of bits [22:0] (40_numerics R130). -/
def fFrac (a : F32) : Nat := a.toNat % 2 ^ 23

/-- The sign bit (40_numerics R130). -/
def fSign (a : F32) : Bool := a.msb

/-- The pattern without its sign bit. -/
def fMag (a : F32) : F32 := a &&& 0x7FFFFFFF#32

def isNaN (a : F32) : Bool := fExpField a == 255 && fFrac a != 0

def isInf (a : F32) : Bool := fExpField a == 255 && fFrac a == 0

/-- `isfinite` (40_numerics R132). -/
def isFinite (a : F32) : Bool := fExpField a != 255

def isZero (a : F32) : Bool := fExpField a == 0 && fFrac a == 0

/-- A finite `a` has magnitude `fMant a * 2 ^ fExpo a`. -/
def fMant (a : F32) : Nat := if fExpField a = 0 then fFrac a else fFrac a + 2 ^ 23

/-- The exponent of `fMant`'s unit. -/
def fExpo (a : F32) : Int := if fExpField a = 0 then -149 else (fExpField a : Int) - 150

/-- The magnitude pattern `mag` under a sign. -/
def withSign (neg : Bool) (mag : F32) : F32 := if neg then mag ||| 0x80000000#32 else mag

def fInf (neg : Bool) : F32 := withSign neg 0x7F800000#32

/-- The exponent of the last place that a value `m * 2 ^ e` rounds to. -/
def lastPlace (m : Nat) (e : Int) : Int := max (e + (Nat.log2 m : Int) - 23) (-149)

/-- The magnitude pattern nearest to `m * 2 ^ e`, ties to even, infinity on overflow (40_numerics R131). -/
def roundMag (m : Nat) (e : Int) : F32 :=
  if m = 0 then 0#32
  else
    let q := lastPlace m e
    let sig : Nat := if q ≤ e then m <<< (e - q).toNat else (rneShr (m : Int) (q - e).toNat).toNat
    let bits := ((q + 149).toNat <<< 23) + sig
    if 0x7F800000 ≤ bits then 0x7F800000#32 else BitVec.ofNat 32 bits

/-- The binary32 nearest to `m * 2 ^ e` under a sign. -/
def roundDyadic (neg : Bool) (m : Nat) (e : Int) : F32 := withSign neg (roundMag m e)

/-- `fneg` flips the sign bit; a NaN gives the canonical NaN (40_numerics R131). -/
def fneg (a : F32) : F32 := if isNaN a then fNaN else a ^^^ 0x80000000#32

theorem fSign_flipSign (x : F32) : fSign (x ^^^ 0x80000000#32) = !fSign x := by
  have h : (0x80000000#32 : F32).msb = true := by decide
  simp only [fSign, BitVec.msb_xor, h, Bool.xor_true]

theorem fFrac_flipSign (x : F32) : fFrac (x ^^^ 0x80000000#32) = fFrac x := by
  apply Nat.eq_of_testBit_eq
  intro i
  simp only [fFrac, BitVec.toNat_xor, Nat.testBit_mod_two_pow, Nat.testBit_xor]
  have h : Nat.testBit (0x80000000#32 : F32).toNat i = decide (31 = i) := by
    rw [show (0x80000000#32 : F32).toNat = 2 ^ 31 by decide, Nat.testBit_two_pow]
  rw [h]
  by_cases hi : i < 23
  · simp [show ¬ 31 = i by omega]
  · simp [hi]

theorem fExpField_flipSign (x : F32) : fExpField (x ^^^ 0x80000000#32) = fExpField x := by
  apply Nat.eq_of_testBit_eq
  intro i
  rw [fExpField, fExpField, show (256 : Nat) = 2 ^ 8 by norm_num]
  simp only [BitVec.toNat_xor, Nat.testBit_mod_two_pow, Nat.testBit_div_two_pow, Nat.testBit_xor]
  have h : ∀ j, Nat.testBit (0x80000000#32 : F32).toNat j = decide (31 = j) := fun j => by
    rw [show (0x80000000#32 : F32).toNat = 2 ^ 31 by decide, Nat.testBit_two_pow]
  rw [h]
  by_cases hi : i < 8
  · simp [show ¬ 31 = i + 23 by omega]
  · simp [hi]

theorem isNaN_flipSign (x : F32) : isNaN (x ^^^ 0x80000000#32) = isNaN x := by
  simp only [isNaN, fExpField_flipSign, fFrac_flipSign]

/-- `fabs` clears the sign bit; a NaN gives the canonical NaN (40_numerics R131). -/
def fabs (a : F32) : F32 := if isNaN a then fNaN else fMag a

/-- `copysign(m, s)`: `m` with the sign bit of `s`; a NaN `m` gives the canonical NaN (40_numerics R131). -/
def copysign (m s : F32) : F32 := if isNaN m then fNaN else withSign (fSign s) (fMag m)

/-- The exact sum of two finite values, in units of `2 ^ min (fExpo a) (fExpo b)`. -/
def exactSum (a b : F32) : Int :=
  let e := min (fExpo a) (fExpo b)
  let va : Int := ((fMant a <<< (fExpo a - e).toNat : Nat) : Int)
  let vb : Int := ((fMant b <<< (fExpo b - e).toNat : Nat) : Int)
  (if fSign a then -va else va) + (if fSign b then -vb else vb)

/-- `fadd` (40_numerics R131). -/
def fadd (a b : F32) : F32 :=
  if isNaN a || isNaN b then fNaN
  else if isInf a then (if isInf b && (fSign a != fSign b) then fNaN else a)
  else if isInf b then b
  else
    let v := exactSum a b
    if v = 0 then withSign (fSign a && fSign b) 0#32
    else roundDyadic (decide (v < 0)) v.natAbs (min (fExpo a) (fExpo b))

/-- `fsub` (40_numerics R131): the sum with the second operand's sign flipped. -/
def fsub (a b : F32) : F32 := fadd a (fneg b)

/-- `fmul` (40_numerics R131). -/
def fmul (a b : F32) : F32 :=
  if isNaN a || isNaN b then fNaN
  else if isInf a || isInf b then
    (if isZero a || isZero b then fNaN else fInf (fSign a != fSign b))
  else roundDyadic (fSign a != fSign b) (fMant a * fMant b) (fExpo a + fExpo b)

/-- `fdiv` (40_numerics R131). The quotient is taken to 50 more bits than the dividend, with a last bit that
records a non-zero remainder, so that the rounding of the exact quotient is the rounding of this value. -/
def fdiv (a b : F32) : F32 :=
  if isNaN a || isNaN b then fNaN
  else if isInf a then (if isInf b then fNaN else fInf (fSign a != fSign b))
  else if isInf b then withSign (fSign a != fSign b) 0#32
  else if isZero b then (if isZero a then fNaN else fInf (fSign a != fSign b))
  else
    let n := fMant a <<< 50
    let q := n / fMant b
    let sticky := if n % fMant b = 0 then 0 else 1
    roundDyadic (fSign a != fSign b) (2 * q + sticky) (fExpo a - fExpo b - 51)

/-- The integer square root of `n`, bit by bit from bit `k - 1` down, over the part `r` already found. -/
def isqrtFrom (n : Nat) : Nat → Nat → Nat
  | 0, r => r
  | k + 1, r => isqrtFrom n k (if (r + 2 ^ k) * (r + 2 ^ k) ≤ n then r + 2 ^ k else r)

/-- `fsqrt` (40_numerics R131). The root is taken to at least 30 bits, with a last bit that records an
inexact root. -/
def fsqrt (a : F32) : F32 :=
  if isNaN a then fNaN
  else if isZero a then a
  else if fSign a then fNaN
  else if isInf a then a
  else
    let odd := fExpo a % 2 = 1
    let m := if odd then 2 * fMant a else fMant a
    let e := if odd then fExpo a - 1 else fExpo a
    let n := m <<< 60
    let r := isqrtFrom n 43 0
    let sticky := if r * r = n then 0 else 1
    roundDyadic false (2 * r + sticky) (e / 2 - 31)

/-- The order of the values of patterns that are not NaN: negative patterns run downward. -/
def fKey (a : F32) : Int := if fSign a then -((fMag a).toNat : Int) else ((fMag a).toNat : Int)

/-- `a < b`, false on a NaN (40_numerics R132). -/
def flt (a b : F32) : Bool := !isNaN a && !isNaN b && decide (fKey a < fKey b)

/-- `a <= b`, false on a NaN (40_numerics R132). -/
def fle (a b : F32) : Bool := !isNaN a && !isNaN b && decide (fKey a ≤ fKey b)

/-- `a == b`, false on a NaN (40_numerics R132). -/
def feq (a b : F32) : Bool := !isNaN a && !isNaN b && decide (fKey a = fKey b)

/-- `fmin` (40_numerics R132). -/
def fmin (a b : F32) : F32 := if flt a b then a else b

/-- `fmax` (40_numerics R132). -/
def fmax (a b : F32) : F32 := if flt b a then a else b

/-- `i2f` (40_numerics R134). -/
def i2f (i : Int) : F32 := roundDyadic (decide (i < 0)) i.natAbs 0

/-- The nearest integer, ties to even, to the value of a finite `a` scaled by `2 ^ f`. -/
def fScaled (a : F32) (f : Nat) : Int :=
  let e := fExpo a + f
  let v : Int := if fSign a then -(fMant a : Int) else (fMant a : Int)
  if 0 ≤ e then v * 2 ^ e.toNat else rneShr v (-e).toNat

/-- `f2fix(v, F, W)` (40_numerics R135). -/
def f2fix (v : F32) (frac width : Nat) : Int :=
  if isNaN v then 0
  else if isInf v then (if fSign v then -(2 ^ (width - 1) : Int) else (2 ^ (width - 1) : Int) - 1)
  else sat width (fScaled v frac)

/-- 2^-15 -/
def fTwoPowNeg15 : F32 := 0x38000000#32

/-- `q2f` (40_numerics R136). -/
def q2f (x : Int) : F32 := fmul (i2f x) fTwoPowNeg15

/-- The real value of a finite pattern, a rational (40_numerics R130); statements are written in terms of it. -/
def fValue (a : F32) : ℚ :=
  (if fSign a then -1 else 1) * (fMant a : ℚ) * (2 : ℚ) ^ fExpo a

end Sys2Proof.Machine
end

