-- ==== Sys2Proof/Syntax.lean ====
section
/-! DEFINITION. The instructions of spec/opcode_table.json, and the field codes of 30_encoding R107 as
types of their own. -/

namespace Sys2Proof

/-- A frame slot index (10_state R43, R46), the operand of `CAPTURE_DONE` and the value of `CUR`. -/
inductive Slot where
  | zero
  | one
  deriving DecidableEq, Repr

/-- Slot state tags (10_state R46, 30_encoding R107), in code order 0 to 3. -/
inductive SlotState where
  | capturing
  | readyForProcessing
  | processing
  | readyForOutput
  deriving DecidableEq, Repr

/-- Vowel indices 0 to 4 (30_encoding R107). -/
inductive Vowel where
  | a
  | e
  | i
  | o
  | u
  deriving DecidableEq, Repr

/-- Effect modes 0 to 4 (10_state R34). -/
inductive EffectMode where
  | formantShift
  | formantFilter
  | radio
  | formantShiftRadio
  | formantFilterRadio
  deriving DecidableEq, Repr

/-- Factor kinds 0 to 3 of `QF_KIND` (10_state R26). -/
inductive FactorKind where
  | empty
  | complexPair
  | twoReal
  | oneReal
  deriving DecidableEq, Repr

/-- One constructor per row of spec/opcode_table.json: the three host commands of format C
(30_encoding R102) and the fourteen stage operations of format S (30_encoding R104). -/
inductive Instr where
  | nop
  | captureDone (slot : Slot)
  | outputReq
  | claim
  | acorr
  | levdur
  | resid
  | proots
  | pshift
  | precon
  | resyn
  | fbcoef
  | fbank
  | rhpf
  | rsat
  | rlim
  | release
  deriving DecidableEq, Repr

end Sys2Proof
end

