-- ==== Sys2Proof/Config.lean ====
section
/-! DEFINITION. What is fixed for one machine (00_scope R9, R10): the parameter record with its default values,
`NUM` (40_numerics R141) among them, and the free values (93 U1). -/

namespace Sys2Proof

open Sys2Proof.Machine

/-- The four numeric configuration functions, binary32 to binary32 (40_numerics R141). -/
structure NumFns where
  sin : F32 → F32
  cos : F32 → F32
  acos : F32 → F32
  tanh : F32 → F32

/-- An admissible choice of the four functions: exactly the properties (b) to (e) of 40_numerics R141
((a), that each depends on its argument alone, is that they are functions). Ranges and monotone are read in the order
of R132, where -0.0 equals +0.0: a result -0.0 is inside the range of `acos` in (d) too (DEDUCED, assumption log 5).
The field defaults only show that such a choice exists. -/
structure AdmissibleNum extends NumFns where
  sin := fun x => if isNaN x then fNaN else fZero
  cos := fun x => if isNaN x then fNaN else fZero
  acos := fun x => if isNaN x then fNaN else fZero
  tanh := fun x => if isNaN x then fNaN else withSign (fSign x) 0#32
  /-- R141 (b) -/
  sin_nan : ∀ x, isNaN x = true → sin x = fNaN := by intro x h; simp [h]
  cos_nan : ∀ x, isNaN x = true → cos x = fNaN := by intro x h; simp [h]
  acos_nan : ∀ x, isNaN x = true → acos x = fNaN := by intro x h; simp [h]
  tanh_nan : ∀ x, isNaN x = true → tanh x = fNaN := by intro x h; simp [h]
  /-- R141 (c) -/
  sin_range : ∀ x, isFinite x = true → fle (fneg fOne) (sin x) = true ∧ fle (sin x) fOne = true := by
    intro x h
    have hn : isNaN x = false := by simp [isNaN, isFinite] at h ⊢; simp [h]
    simp only [hn]; decide
  cos_range : ∀ x, isFinite x = true → fle (fneg fOne) (cos x) = true ∧ fle (cos x) fOne = true := by
    intro x h
    have hn : isNaN x = false := by simp [isNaN, isFinite] at h ⊢; simp [h]
    simp only [hn]; decide
  /-- R141 (d); the bound +0.0 admits -0.0, which equals it in the order of R132 (assumption log 5) -/
  acos_range : ∀ x, fle (fneg fOne) x = true → fle x fOne = true →
      fle fZero (acos x) = true ∧ fle (acos x) 0x40490FDB#32 = true := by
    intro x h _
    have hn : isNaN x = false := by simp [fle] at h; exact h.1.2
    simp only [hn]; decide
  acos_one : acos fOne = fZero := by decide
  /-- R141 (e) -/
  tanh_odd : ∀ x, tanh (fneg x) = fneg (tanh x) := by
    intro x
    by_cases hx : isNaN x = true
    · have h1 : isNaN fNaN = true := by decide
      simp [fneg, hx, h1]
    · have hx' : isNaN x = false := by simpa using hx
      have h4 : fneg x = x ^^^ 0x80000000#32 := by simp [fneg, hx]
      rw [h4]
      simp only [isNaN_flipSign, fSign_flipSign, hx']
      cases fSign x <;> decide
  tanh_mono : ∀ x y, fle x y = true → fle (tanh x) (tanh y) = true := by
    intro x y h
    have hx : isNaN x = false := by simp [fle] at h; exact h.1.1
    have hy : isNaN y = false := by simp [fle] at h; exact h.1.2
    simp only [hx, hy]
    cases fSign x <;> cases fSign y <;> decide
  tanh_range : ∀ x, isNaN x = false → fle (fneg fOne) (tanh x) = true ∧ fle (tanh x) fOne = true := by
    intro x h
    simp only [h]
    cases fSign x <;> decide
  tanh_zero : tanh fZero = fZero := by decide
  deriving Inhabited

/-- The choice this machine makes, of which nothing is known but that it is admissible (40_numerics R141,
93 U6): no body, so a statement about it holds for every admissible choice. -/
opaque Config.anyNum : AdmissibleNum

/-- The four functions of this machine, the field `num` of `Config.core`. `tanh` at +0.0 is spelled out as R141 (e) gives it, so
that a silent frame can be evaluated; `Config.numFns_tanh` shows that this changes nothing. -/
def Config.numFns : NumFns where
  sin := Config.anyNum.sin
  cos := Config.anyNum.cos
  acos := Config.anyNum.acos
  tanh := fun x => if x = fZero then fZero else Config.anyNum.tanh x

/-- The four functions are an admissible choice (40_numerics R141). -/
def NumFns.admissible (f : NumFns) : Prop := ∃ a : AdmissibleNum, a.toNumFns = f

theorem Config.numFns_tanh (x : F32) : Config.numFns.tanh x = Config.anyNum.tanh x := by
  simp only [Config.numFns]
  split
  · next h => rw [h, Config.anyNum.tanh_zero]
  · rfl

theorem Config.numFns_admissible : Config.numFns.admissible :=
  ⟨Config.anyNum, by
    have h : Config.anyNum.tanh = Config.numFns.tanh := (funext Config.numFns_tanh).symm
    show NumFns.mk _ _ _ Config.anyNum.tanh = NumFns.mk _ _ _ Config.numFns.tanh
    rw [h]⟩

/-- The five coefficients of a biquad, 32-bit signed in Q`BF` (10_state R40). -/
structure BiquadCoef where
  b0 : Word
  b1 : Word
  b2 : Word
  a1 : Word
  a2 : Word
  deriving DecidableEq, Repr

/-- Byte orders of a byte bridge (20_memory R74). -/
inductive ByteOrder where
  | little
  | big
  deriving DecidableEq, Repr

/-- The configuration record of 00_scope R9. -/
structure Config where
  /-- `N`, samples per frame -/
  n : Nat
  /-- `P`, LPC order -/
  p : Nat
  /-- `SR`, sample rate in Hz -/
  sr : Nat
  /-- `NSLOT` -/
  nslot : Nat
  /-- `SAMPLE_W` -/
  sampleW : Nat
  /-- `CF`, fractional bits of an LPC coefficient -/
  cf : Nat
  /-- `BF`, fractional bits of a biquad coefficient -/
  bf : Nat
  /-- `ENERGY_MIN` -/
  energyMin : Nat
  /-- `R_MAX` -/
  rMax : F32
  /-- `THETA_MAX` -/
  thetaMax : F32
  /-- `ROOT_ITERS` -/
  rootIters : Nat
  /-- `ROOT_TOL` -/
  rootTol : F32
  /-- `ROOT_GUESS[g] = (u0, v0)` -/
  rootGuess : List (F32 × F32)
  /-- `SHIFT_MIN` -/
  shiftMin : F32
  /-- `SHIFT_MAX` -/
  shiftMax : F32
  /-- `(VOWEL_F[v][i], VOWEL_BW[v][i])` for i = 1, 2, 3 -/
  formants : Vowel → (Nat × Nat) × (Nat × Nat) × (Nat × Nat)
  /-- `FC_MAX` -/
  fcMax : F32
  /-- `HP_COEF` -/
  hpCoef : BiquadCoef
  /-- `DRIVE` -/
  drive : F32
  /-- `LIM_Q15` -/
  limQ15 : Int
  /-- `NUM` -/
  num : NumFns
  /-- `BYTE_ORDER` -/
  byteOrder : ByteOrder

/-- The formant table of 44_filter_bank R211. -/
def Config.vowelTable : Vowel → (Nat × Nat) × (Nat × Nat) × (Nat × Nat)
  | .a => ((730, 80), (1090, 90), (2440, 120))
  | .e => ((530, 80), (1840, 90), (2480, 120))
  | .i => ((270, 80), (2290, 90), (3010, 120))
  | .o => ((570, 80), (840, 90), (2410, 120))
  | .u => ((300, 80), (870, 90), (2240, 120))

/-- The start guesses of 42_pole_shifter R183. -/
def Config.startGuesses : List (F32 × F32) :=
  [(0x00000000#32, 0x00000000#32), (0xBF800000#32, 0x3F000000#32),
   (0x3F800000#32, 0x3F000000#32), (0x00000000#32, 0x3F000000#32),
   (0xBFC00000#32, 0x3F400000#32), (0x3FC00000#32, 0x3F400000#32),
   (0xBF000000#32, 0x3F400000#32), (0x3F000000#32, 0x3F400000#32)]

/-- `HP_COEF` (45_radio_chain R231). -/
def Config.highPass : BiquadCoef where
  b0 := 0x0EB8974B#32
  b1 := 0xE28ED16A#32
  b2 := 0x0EB8974B#32
  a1 := 0xE2A907F2#32
  a2 := 0x0D8B651D#32

/-- The default configuration (00_scope R9): the machine of this model. -/
def Config.core : Config where
  n := 256
  p := 12
  sr := 16000
  nslot := 2
  sampleW := 16
  cf := 20
  bf := 28
  energyMin := 256
  rMax := 0x3F7FBE77#32
  thetaMax := 0x40470D23#32
  rootIters := 32
  rootTol := 0x35800000#32
  rootGuess := Config.startGuesses
  shiftMin := 0x3E800000#32
  shiftMax := 0x40800000#32
  formants := Config.vowelTable
  fcMax := 0x45F78000#32
  hpCoef := Config.highPass
  drive := 0x40000000#32
  limQ15 := 29491
  num := Config.numFns
  byteOrder := .little

/-- `JMAX = ceil(P/2)` (10_state R26). -/
def Config.jmax (c : Config) : Nat := (c.p + 1) / 2

/-- `TWO_PI` (40_numerics R142) -/
def Config.twoPi : F32 := 0x40C90FDB#32

/-- The k-th free word: what a host read of a register that the compute engine owns returns while the engine is
busy (20_memory R72 case 2, 93 U1). No body: nothing is known of it. -/
opaque Config.freeWord : Nat → Word

end Sys2Proof
end

