-- ==== Sys2Proof/WellFormed.lean ====
section
/-! DEFINITION. What counts as well formed: a command word (30_encoding R102), a stage code (R104, R105), an
instruction for a configuration, and a configuration (00_scope R10, 44_filter_bank R211). -/

namespace Sys2Proof

/-- The reserved field [31:9] of a command word is 0 (30_encoding R101). -/
def commandReservedZero (w : Word) : Bool := w.extractLsb' 9 23 == 0#23

/-- The opcode field [7:0] is one of the three of 30_encoding R102. -/
def commandOpKnown (w : Word) : Bool :=
  w.extractLsb' 0 8 == 0x00#8 || w.extractLsb' 0 8 == 0x01#8 || w.extractLsb' 0 8 == 0x02#8

/-- The slot field [8] is 0 unless the opcode is that of `CAPTURE_DONE` (30_encoding R102). -/
def commandSlotAllowed (w : Word) : Bool :=
  w.extractLsb' 8 1 == 0#1 || w.extractLsb' 0 8 == 0x01#8

/-- "A command word is valid iff `rsv = 0`, `op` is one of the three below, and `slot = 0` unless
`op = 0x01`" (30_encoding R102). -/
def commandValid (w : Word) : Bool :=
  commandReservedZero w && commandOpKnown w && commandSlotAllowed w

/-- The stage codes are 0 to 13 (30_encoding R104); 14 and 15 are not reachable (R105). -/
def stageCodeValid (code : BitVec 4) : Bool := decide (code.toNat ≤ 13)

/-- The index of a slot (10_state R46). -/
def Slot.index : Slot → Nat
  | .zero => 0
  | .one => 1

/-- An instruction is well formed for a configuration when its slot operand names one of the `NSLOT` slots. -/
def Instr.wellFormed (c : Config) : Instr → Bool
  | .captureDone s => decide (s.index < c.nslot)
  | .nop | .outputReq | .claim | .acorr | .levdur | .resid | .proots | .pshift | .precon | .resyn
  | .fbcoef | .fbank | .rhpf | .rsat | .rlim | .release => true

/-- `2 ≤ P ≤ 30` (00_scope R10) -/
def Config.orderInRange (c : Config) : Bool := decide (2 ≤ c.p) && decide (c.p ≤ 30)

/-- `P + 1 ≤ N ≤ 1024` (00_scope R10) -/
def Config.frameInRange (c : Config) : Bool := decide (c.p + 1 ≤ c.n) && decide (c.n ≤ 1024)

/-- `NSLOT = 2`; `SAMPLE_W = 16`; `CF = 20`; `BF = 28` (00_scope R10) -/
def Config.widthsFixed (c : Config) : Bool :=
  c.nslot == 2 && c.sampleW == 16 && c.cf == 20 && c.bf == 28

/-- Every centre frequency and bandwidth of the formant table is positive (44_filter_bank R211). -/
def Config.formantsPositive (c : Config) : Bool :=
  [Vowel.a, .e, .i, .o, .u].all fun v =>
    let t := c.formants v
    [t.1, t.2.1, t.2.2].all fun f => decide (0 < f.1) && decide (0 < f.2)

/-- The parameter constraints "which every rule assumes" (00_scope R10). -/
def Config.wellFormed (c : Config) : Bool :=
  c.orderInRange && c.frameInRange && c.widthsFixed && c.formantsPositive

end Sys2Proof
end

