-- ==== Sys2Proof/Decode.lean ====
section
/-! DEFINITION. The decoder and the encoder (30_encoding). -/

namespace Sys2Proof

/-- Why bits are no instruction. -/
inductive DecodeError where
  /-- a word written to `CMD` that is none of the four valid ones (30_encoding R103) -/
  | illegalCommand
  /-- stage code 14 or 15 (30_encoding R105) -/
  | unreachableStageCode
  /-- neither one byte (format S) nor four (format C) -/
  | wrongLength
  deriving DecidableEq, Repr

/-- What carries an encoding: a word written to `CMD` (format C) or the value of `SEQ` (format S)
(30_encoding R100). -/
inductive Encoded where
  | command (w : Word)
  | stage (code : BitVec 4)
  deriving DecidableEq, Repr

/-- Format C (30_encoding R101 to R103): the row whose `(word & mask) == match`; none means illegal. -/
def decodeCommand (w : Word) : Except DecodeError Instr :=
  if w &&& 0xFFFFFFFF#32 = 0x00000000#32 then .ok .nop
  else if w &&& 0xFFFFFEFF#32 = 0x00000001#32 then
    .ok (.captureDone (if w.getLsbD 8 then .one else .zero))
  else if w &&& 0xFFFFFFFF#32 = 0x00000002#32 then .ok .outputReq
  else .error .illegalCommand

/-- Format S (30_encoding R104). -/
def decodeStage (code : BitVec 4) : Except DecodeError Instr :=
  match code.toNat with
  | 0 => .ok .claim
  | 1 => .ok .acorr
  | 2 => .ok .levdur
  | 3 => .ok .resid
  | 4 => .ok .proots
  | 5 => .ok .pshift
  | 6 => .ok .precon
  | 7 => .ok .resyn
  | 8 => .ok .fbcoef
  | 9 => .ok .fbank
  | 10 => .ok .rhpf
  | 11 => .ok .rsat
  | 12 => .ok .rlim
  | 13 => .ok .release
  | _ => .error .unreachableStageCode

/-- The decoder of both formats. -/
def decode : Encoded → Except DecodeError Instr
  | .command w => decodeCommand w
  | .stage code => decodeStage code

/-- The bytes as the hardware stores them: four bytes of a command word, least significant first (20_memory R74),
or one byte whose low four bits are a stage code. -/
def encodedOfBytes : List (BitVec 8) → Except DecodeError Encoded
  | [b] => .ok (.stage (b.extractLsb' 0 4))
  | [b0, b1, b2, b3] => .ok (.command (b3 ++ b2 ++ b1 ++ b0))
  | _ => .error .wrongLength

/-- Decoding total on any bytes. -/
def decodeBytes (bs : List (BitVec 8)) : Except DecodeError Instr :=
  match encodedOfBytes bs with
  | .ok e => decode e
  | .error r => .error r

/-- The encoder, from the columns of 30_encoding R102 and R104. -/
def encode : Instr → Encoded
  | .nop => .command 0x00000000#32
  | .captureDone .zero => .command 0x00000001#32
  | .captureDone .one => .command 0x00000101#32
  | .outputReq => .command 0x00000002#32
  | .claim => .stage 0#4
  | .acorr => .stage 1#4
  | .levdur => .stage 2#4
  | .resid => .stage 3#4
  | .proots => .stage 4#4
  | .pshift => .stage 5#4
  | .precon => .stage 6#4
  | .resyn => .stage 7#4
  | .fbcoef => .stage 8#4
  | .fbank => .stage 9#4
  | .rhpf => .stage 10#4
  | .rsat => .stage 11#4
  | .rlim => .stage 12#4
  | .release => .stage 13#4

/-- The bytes of an encoded instruction, in the order `encodedOfBytes` reads them. -/
def bytesOfEncoded : Encoded → List (BitVec 8)
  | .command w => [w.extractLsb' 0 8, w.extractLsb' 8 8, w.extractLsb' 16 8, w.extractLsb' 24 8]
  | .stage code => [code.zeroExtend 8]

/-- The bytes that hold an opcode-table row of `nbits` bits: one byte for a stage code, four for a command. -/
def tableBytes (nbits w : Nat) : List (BitVec 8) :=
  if nbits ≤ 8 then [BitVec.ofNat 8 w] else bytesOfEncoded (.command (BitVec.ofNat 32 w))

/-- The instruction the decoder reads from the bits `w` of an opcode-table row of `nbits` bits. -/
def decodeTableWord (nbits w : Nat) : Option Instr :=
  match decodeBytes (tableBytes nbits w) with
  | .ok i => some i
  | .error _ => none

end Sys2Proof
end

