-- ==== Sys2Proof/Machine/State.lean ====
section
/-! DEFINITION. The state of the core (10_state) as plain data, the reasons a step can stop, and the state after
reset (10_state R52, 70_reset R331). Register arrays are lists; `Shape` of Safety.lean gives their lengths. -/

namespace Sys2Proof.Machine

/-- Why the machine stops with a fault: there is no such reason. "No step of the core raises an exception, trap or
fault" (60_exceptions R290). -/
inductive Fault where
  deriving DecidableEq, Repr

/-- Why a step has no meaning. -/
inductive Refusal where
  /-- Raised by no arm of `exec` (every instruction is modelled). Safe: the model only stops. -/
  | notModelled (mnemonic : String)
  /-- Raised by `step` when CE is to move and `SEQ` holds 14 or 15, the treatment 93_implementation_defined U7
  names (30_encoding R105: "it must treat 14 and 15 as `refuse`"). Safe: no state is reached. -/
  | stageCodeReserved (code : BitVec 4)
  deriving DecidableEq, Repr

/-- LPC analyzer registers (10_state R20 to R25). -/
structure Lpc where
  /-- `ACR[0..P]` (R20) -/
  acr : List Wide
  /-- `ACF[0..P]` (R21) -/
  acf : List F32
  /-- `LPC_A[0..P]` (R22) -/
  a : List F32
  /-- `LPC_K[0..P]` (R23) -/
  k : List F32
  /-- `LPC_E` (R24) -/
  e : F32
  /-- `LPC_G` (R24) -/
  g : F32
  /-- `LPC_AQ[0..P]` (R25) -/
  aq : List Word
  deriving DecidableEq, Repr

/-- Pole set registers (10_state R26, R27). -/
structure Poles where
  /-- `QF_KIND[0..JMAX-1]` -/
  kind : List FactorKind
  /-- `QF_U` -/
  u : List F32
  /-- `QF_V` -/
  v : List F32
  /-- `PL_A` -/
  plA : List F32
  /-- `PL_B` -/
  plB : List F32
  /-- `PS_A` -/
  psA : List F32
  /-- `PS_B` -/
  psB : List F32
  /-- `SH_U` -/
  shU : List F32
  /-- `SH_V` -/
  shV : List F32
  /-- `NQF` -/
  nqf : BitVec 5
  /-- `REM[0..P]` (R27) -/
  rem : List F32
  /-- `REM_DEG` (R27) -/
  remDeg : BitVec 5
  deriving DecidableEq, Repr

/-- `NEW_A[0..P]`, `NEW_AQ[0..P]` (10_state R28). -/
structure Recon where
  newA : List F32
  newAQ : List Word
  deriving DecidableEq, Repr

/-- One biquad stage: five coefficients and two state words (10_state R40). -/
structure Biquad where
  coef : BiquadCoef
  /-- `BQ_S1` -/
  s1 : Wide
  /-- `BQ_S2` -/
  s2 : Wide
  deriving DecidableEq, Repr

/-- The Filter State Store (10_state R39 to R42). -/
structure FilterStore where
  /-- stage 0, the high-pass -/
  hp : Biquad
  /-- stages 1, 2, 3, the band-passes -/
  bp1 : Biquad
  bp2 : Biquad
  bp3 : Biquad
  /-- `FB_VALID` -/
  fbValid : Bool
  /-- `FB_KEY_VOWEL` -/
  fbKeyVowel : Vowel
  /-- `FB_KEY_FREQ` -/
  fbKeyFreq : F32
  /-- `RS[1..P]`: entry `k - 1` is `RS[k]` -/
  rs : List Wide
  deriving DecidableEq, Repr

/-- The live parameters (10_state R33); every pattern is storable. -/
structure Params where
  /-- `PAR_FREQ` -/
  freq : Word
  /-- `PAR_AMP` -/
  amp : Word
  /-- `PAR_VOWEL` -/
  vowel : Word
  /-- `PAR_MODE` -/
  mode : Word
  deriving DecidableEq, Repr

/-- The snapshot (10_state R35), already clamped. -/
structure Snapshot where
  /-- `SNAP_FREQ` -/
  freq : F32
  /-- `SNAP_AMP` -/
  amp : F32
  /-- `SNAP_VOWEL` -/
  vowel : Vowel
  /-- `SNAP_MODE` -/
  mode : EffectMode
  deriving DecidableEq, Repr

/-- The sticky flags of `STATUS` (10_state R30). -/
structure Sticky where
  /-- bit 8 -/
  underrun : Bool
  /-- bit 9 -/
  xerr : Bool
  /-- bit 10 -/
  cmderr : Bool
  deriving DecidableEq, Repr

/-- `FRFLAGS` (10_state R32), bits 0 to 6 in this order. -/
structure FrFlags where
  degen : Bool
  noconv : Bool
  rclamp : Bool
  aclamp : Bool
  parclamp : Bool
  nonfin : Bool
  fcclamp : Bool
  deriving DecidableEq, Repr

/-- The event counters (10_state R38). -/
structure Counters where
  /-- `CNT_READY` -/
  ready : Word
  /-- `CNT_DONE` -/
  done : Word
  /-- `CNT_OUT` -/
  out : Word
  /-- `CNT_UNDER` -/
  under : Word
  deriving DecidableEq, Repr

/-- The stage register and the dispatcher (10_state R29, R46, R47). -/
structure Dispatcher where
  /-- `SEQ` -/
  seq : BitVec 4
  /-- `CUR` -/
  cur : Slot
  /-- `ST[0]` -/
  st0 : SlotState
  /-- `ST[1]` -/
  st1 : SlotState
  /-- `RDYQ`, head first -/
  rdyq : List Slot
  /-- `OUTQ`, head first -/
  outq : List Slot
  deriving DecidableEq, Repr

/-- One step of an agent or of the platform (00_scope R11, R16): IO and PAR act by port accesses, CE by its stage
operation, the platform by `rst`. -/
inductive Event where
  /-- `PortRead(addr)` -/
  | read (addr : PortAddr)
  /-- `PortWrite(addr, w)` -/
  | write (addr : PortAddr) (w : Word)
  /-- CE takes its step -/
  | ce
  /-- `rst` is asserted and released (70_reset R330, R332) -/
  | rst
  deriving DecidableEq, Repr

/-- The MODEL's own fields, none the spec's (assumption log 1, 2, 3). -/
structure Env where
  /-- the steps that come next, in order, one admissible interleaving; when it is empty CE moves -/
  sched : List Event
  /-- the word the last `PortRead` returned -/
  portOut : Word
  /-- how many free words were handed out -/
  freeCount : Nat
  deriving DecidableEq, Repr

/-- The whole state. `mem` holds `SLOT[0]`, `SLOT[1]`, `OUTBUF` and `RES` (10_state R43 to R45) as bytes in the one
canonical form that Ops.lean describes. -/
structure State where
  lpc : Lpc
  poles : Poles
  recon : Recon
  filt : FilterStore
  par : Params
  snap : Snapshot
  irqEn : Word
  sticky : Sticky
  fr : FrFlags
  cnt : Counters
  disp : Dispatcher
  mem : List Host.Cell
  env : Env
  deriving DecidableEq, Repr

/-- Biquad state words 0 under given coefficients. -/
def Biquad.atReset (c : BiquadCoef) : Biquad where
  coef := c
  s1 := 0#64
  s2 := 0#64

/-- All flags of `FRFLAGS` clear. -/
def FrFlags.clear : FrFlags where
  degen := false
  noconv := false
  rclamp := false
  aclamp := false
  parclamp := false
  nonfin := false
  fcclamp := false

/-- The state after reset for a configuration: "all zero bits, except `PAR_FREQ = PAR_AMP = SNAP_FREQ = SNAP_AMP =
0x3F800000` and the five stage-0 coefficients `= HP_COEF`" (70_reset R331, 10_state R52). -/
def resetOf (c : Config) : State where
  lpc :=
    { acr := List.replicate (c.p + 1) 0#64
      acf := List.replicate (c.p + 1) 0#32
      a := List.replicate (c.p + 1) 0#32
      k := List.replicate (c.p + 1) 0#32
      e := 0#32
      g := 0#32
      aq := List.replicate (c.p + 1) 0#32 }
  poles :=
    { kind := List.replicate c.jmax .empty
      u := List.replicate c.jmax 0#32
      v := List.replicate c.jmax 0#32
      plA := List.replicate c.jmax 0#32
      plB := List.replicate c.jmax 0#32
      psA := List.replicate c.jmax 0#32
      psB := List.replicate c.jmax 0#32
      shU := List.replicate c.jmax 0#32
      shV := List.replicate c.jmax 0#32
      nqf := 0#5
      rem := List.replicate (c.p + 1) 0#32
      remDeg := 0#5 }
  recon :=
    { newA := List.replicate (c.p + 1) 0#32
      newAQ := List.replicate (c.p + 1) 0#32 }
  filt :=
    { hp := Biquad.atReset c.hpCoef
      bp1 := Biquad.atReset ⟨0#32, 0#32, 0#32, 0#32, 0#32⟩
      bp2 := Biquad.atReset ⟨0#32, 0#32, 0#32, 0#32, 0#32⟩
      bp3 := Biquad.atReset ⟨0#32, 0#32, 0#32, 0#32, 0#32⟩
      fbValid := false
      fbKeyVowel := .a
      fbKeyFreq := 0#32
      rs := List.replicate c.p 0#64 }
  par := { freq := 0x3F800000#32, amp := 0x3F800000#32, vowel := 0#32, mode := 0#32 }
  snap := { freq := 0x3F800000#32, amp := 0x3F800000#32, vowel := .a, mode := .formantShift }
  irqEn := 0#32
  sticky := { underrun := false, xerr := false, cmderr := false }
  fr := FrFlags.clear
  cnt := { ready := 0#32, done := 0#32, out := 0#32, under := 0#32 }
  disp := { seq := 0#4, cur := .zero, st0 := .capturing, st1 := .capturing, rdyq := [], outq := [] }
  mem := []
  env := { sched := [], portOut := 0#32, freeCount := 0 }

/-- The machine right after reset. -/
def State.reset : State := resetOf Config.core

end Sys2Proof.Machine
end

