-- ==== Sys2Proof/Machine/Ops.lean ====
section
/-! DEFINITION. The named operations over memory and registers that every meaning is built from. The core raises no
exception and has no trap entry or return (60_exceptions R290, R299, R300): there is no such operation here. -/

namespace Sys2Proof.Machine

/-- The four memories of 20_memory R70 as (byte address, byte) pairs. -/
abbrev Memory := List Host.Cell

/-- What an unlisted address reads as: every memory element is 0 after reset (10_state R43 to R45, R52). -/
def unlistedByte : BitVec 8 := 0#8

/-- The canonical form: addresses strictly rising, no entry equal to what an unlisted address reads as. -/
abbrev Memory.wf (m : Memory) : Prop :=
  List.Pairwise (fun c d : Host.Cell => c.1 < d.1) m ∧ ∀ c ∈ m, c.2 ≠ unlistedByte

/-- The byte at an address. -/
def readByte : Memory → Nat → BitVec 8
  | [], _ => unlistedByte
  | c :: m, x => if x = c.1 then c.2 else readByte m x

/-- The memory without any entry for an address. -/
def eraseByte (m : Memory) (x : Nat) : Memory := m.filter fun c => decide (c.1 ≠ x)

/-- The memory with one entry put before the first higher address. -/
def insertByte : Memory → Nat → BitVec 8 → Memory
  | [], x, v => [(x, v)]
  | c :: m, x, v => if x < c.1 then (x, v) :: c :: m else c :: insertByte m x v

/-- Stores one byte, keeping the canonical form. -/
def writeByte (m : Memory) (x : Nat) (v : BitVec 8) : Memory :=
  if v = unlistedByte then eraseByte m x else insertByte (eraseByte m x) x v

/-- A 16-bit element, least significant byte first (20_memory R74). -/
def read16 (m : Memory) (x : Nat) : Sample := readByte m (x + 1) ++ readByte m x

def write16 (m : Memory) (x : Nat) (v : Sample) : Memory :=
  writeByte (writeByte m x (v.extractLsb' 0 8)) (x + 1) (v.extractLsb' 8 8)

/-- A 32-bit element, least significant byte first (20_memory R74). -/
def read32 (m : Memory) (x : Nat) : Word := read16 m (x + 2) ++ read16 m x

def write32 (m : Memory) (x : Nat) (v : Word) : Memory :=
  write16 (write16 m x (v.extractLsb' 0 16)) (x + 2) (v.extractLsb' 16 16)

/-- The spaces of 20_memory R70. -/
inductive Space where
  | slot (s : Slot)
  | outbuf
  | res
  deriving DecidableEq, Repr

/-- The word address of element 0 (10_state R43 to R45, R50). -/
def spaceBase : Space → Nat
  | .slot .zero => 0x1000
  | .slot .one => 0x1400
  | .outbuf => 0x1800
  | .res => 0x0800

/-- The byte address of element `n`: word address `A` occupies byte addresses from `4A` (20_memory R74). -/
def elemAddr (sp : Space) (n : Nat) : Nat := 4 * (spaceBase sp + n)

/-- `MemRead(space, n)` of a 16-bit space: `sext_16` of the element (20_memory R92). -/
def readSample (m : Memory) (sp : Space) (n : Nat) : Int := (read16 m (elemAddr sp n)).toInt

/-- The first `n` elements of a 16-bit space. -/
def readSamples (m : Memory) (sp : Space) (n : Nat) : List Int :=
  (List.range n).map (readSample m sp)

/-- `MemWrite` of successive elements of a 16-bit space from byte address `x` on. -/
def storeSamples : Memory → Nat → List Int → Memory
  | m, _, [] => m
  | m, x, y :: ys => storeSamples (write16 m x (BitVec.ofInt 16 y)) (x + 4) ys

/-- `MemWrite` of a whole 16-bit space, in increasing `n`. -/
def writeSamples (m : Memory) (sp : Space) (ys : List Int) : Memory :=
  storeSamples m (elemAddr sp 0) ys

/-- The first `n` elements of `RES` (10_state R45). -/
def readRes (m : Memory) (n : Nat) : List Int :=
  (List.range n).map fun k => (read32 m (elemAddr .res k)).toInt

def storeWords : Memory → Nat → List Int → Memory
  | m, _, [] => m
  | m, x, y :: ys => storeWords (write32 m x (BitVec.ofInt 32 y)) (x + 4) ys

/-- Stores the whole of `RES`. -/
def writeRes (m : Memory) (ys : List Int) : Memory := storeWords m (elemAddr .res 0) ys

/-- `SLOT[CUR]` as integers (20_memory R84). -/
def State.frame (s : State) (n : Nat) : List Int := readSamples s.mem (.slot s.disp.cur) n

/-- Overwrites `SLOT[CUR]` in place (10_state R43). -/
def State.setFrame (s : State) (ys : List Int) : State :=
  { s with mem := writeSamples s.mem (.slot s.disp.cur) ys }

/-- `ST[sl]` (10_state R46). -/
def State.slotState (s : State) : Slot → SlotState
  | .zero => s.disp.st0
  | .one => s.disp.st1

/-- `ST[sl] <- v`. -/
def State.setSlotState (s : State) (sl : Slot) (v : SlotState) : State :=
  match sl with
  | .zero => { s with disp := { s.disp with st0 := v } }
  | .one => { s with disp := { s.disp with st1 := v } }

/-- The code of a stage operation (30_encoding R104). -/
def stageCode (i : Instr) : BitVec 4 :=
  match encode i with
  | .stage code => code
  | .command _ => 0#4

/-- `SEQ <- stage`, the control transfer of CE (00_scope R13). -/
def State.goStage (s : State) (i : Instr) : State :=
  { s with disp := { s.disp with seq := stageCode i } }

/-- `signal UNDERRUN` (00_scope R13) -/
def State.signalUnderrun (s : State) : State := { s with sticky := { s.sticky with underrun := true } }

/-- `signal XERR` (20_memory R83) -/
def State.signalXerr (s : State) : State := { s with sticky := { s.sticky with xerr := true } }

/-- `signal CMDERR` (46_dispatcher R252) -/
def State.signalCmderr (s : State) : State := { s with sticky := { s.sticky with cmderr := true } }

/-- The port returns `w` to the host. -/
def State.answer (s : State) (w : Word) : State := { s with env := { s.env with portOut := w } }

/-- The port returns a word nothing is known of (93 U1), a fresh one at each read. -/
def State.answerFree (s : State) : State :=
  { s with env := { s.env with
      portOut := Config.freeWord s.env.freeCount
      freeCount := s.env.freeCount + 1 } }

/-- Biquad stage 0 to 3 of the Filter State Store (10_state R40). -/
inductive BiquadStage where
  | highPass
  | band1
  | band2
  | band3
  deriving DecidableEq, Repr

def State.biquad (s : State) : BiquadStage → Biquad
  | .highPass => s.filt.hp
  | .band1 => s.filt.bp1
  | .band2 => s.filt.bp2
  | .band3 => s.filt.bp3

def State.setBiquad (s : State) (st : BiquadStage) (b : Biquad) : State :=
  match st with
  | .highPass => { s with filt := { s.filt with hp := b } }
  | .band1 => { s with filt := { s.filt with bp1 := b } }
  | .band2 => { s with filt := { s.filt with bp2 := b } }
  | .band3 => { s with filt := { s.filt with bp3 := b } }

/-- The coefficients and state words of a biquad as the integers that `BiquadRun` computes with. -/
structure BiquadInts where
  b0 : Int
  b1 : Int
  b2 : Int
  a1 : Int
  a2 : Int
  deriving DecidableEq, Repr

def biquadInts (c : BiquadCoef) : BiquadInts where
  b0 := c.b0.toInt
  b1 := c.b1.toInt
  b2 := c.b2.toInt
  a1 := c.a1.toInt
  a2 := c.a2.toInt

/-- The loop of `BiquadRun` (40_numerics R137): the outputs and the two final state words. -/
def biquadLoop (bf : Nat) (c : BiquadInts) : Int → Int → List Int → List Int × Int × Int
  | s1, s2, [] => ([], s1, s2)
  | s1, s2, x :: xs =>
    let y := sat 16 (rneShr (c.b0 * x + s1) bf)
    let r := biquadLoop bf c (c.b1 * x - c.a1 * y + s2) (c.b2 * x - c.a2 * y) xs
    (y :: r.1, r.2)

/-- `BiquadRun(st)` (40_numerics R137): filters `SLOT[CUR]` in place. -/
def State.biquadRun (cfg : Config) (st : BiquadStage) (s : State) : State :=
  let b := s.biquad st
  let r := biquadLoop cfg.bf (biquadInts b.coef) b.s1.toInt b.s2.toInt (s.frame cfg.n)
  (s.setFrame r.1).setBiquad st
    { coef := b.coef, s1 := BitVec.ofInt 64 r.2.1, s2 := BitVec.ofInt 64 r.2.2 }

end Sys2Proof.Machine
end

