-- ==== Sys2Proof/Machine/Flags.lean ====
section
/-! DEFINITION. The status words as the host sees them, and the interrupt output: `STATUS` (10_state R30), `FRFLAGS`
(R32), `SLOTST` (R48), `SEQ`/`CUR` (R29), `ID`, `CFG` (R31), `irq` (60_exceptions R296). -/

namespace Sys2Proof.Machine

/-- A word with one bit as given and all others 0. -/
def flagBit (b : Bool) (i : Nat) : Word := if b then 1#32 <<< i else 0#32

/-- `OUT_RDY` (10_state R30) -/
def State.outRdy (s : State) : Bool := !s.disp.outq.isEmpty

/-- `FRAME_PEND` (10_state R30) -/
def State.framePend (s : State) : Bool := !s.disp.rdyq.isEmpty

/-- `BUSY` (10_state R30) -/
def State.busy (s : State) : Bool := s.disp.seq != 0#4

/-- `STATUS` as read (10_state R30). -/
def State.statusWord (s : State) : Word :=
  flagBit s.outRdy 0 ||| flagBit s.framePend 1 ||| flagBit s.busy 2 |||
  flagBit s.sticky.underrun 8 ||| flagBit s.sticky.xerr 9 ||| flagBit s.sticky.cmderr 10

/-- A write to `STATUS`: for each of bits 8, 9, 10, a 1 clears that sticky flag (20_memory R73 (2)). -/
def State.clearStatus (s : State) (w : Word) : State :=
  { s with sticky :=
      { underrun := s.sticky.underrun && !w.getLsbD 8
        xerr := s.sticky.xerr && !w.getLsbD 9
        cmderr := s.sticky.cmderr && !w.getLsbD 10 } }

/-- The implemented bits of `IRQ_EN` (10_state R36, 20_memory R73 (3)). -/
def irqMask : Word := 0x00000701#32

/-- The interrupt output: `irq = 1 iff (STATUS & IRQ_EN & 0x00000701) != 0` (60_exceptions R296). -/
def State.irq (s : State) : Bool := (s.statusWord &&& s.irqEn &&& irqMask) != 0#32

/-- `FRFLAGS` as read (10_state R32). -/
def FrFlags.word (f : FrFlags) : Word :=
  flagBit f.degen 0 ||| flagBit f.noconv 1 ||| flagBit f.rclamp 2 ||| flagBit f.aclamp 3 |||
  flagBit f.parclamp 4 ||| flagBit f.nonfin 5 ||| flagBit f.fcclamp 6

/-- Slot state codes (10_state R46). -/
def slotStateCode : SlotState → BitVec 2
  | .capturing => 0#2
  | .readyForProcessing => 1#2
  | .processing => 2#2
  | .readyForOutput => 3#2

/-- The head of a queue as a bit, 0 when it is empty (10_state R48). -/
def headBit : List Slot → BitVec 1
  | .one :: _ => 1#1
  | _ => 0#1

/-- `SLOTST` as read (10_state R48). -/
def State.slotstWord (s : State) : Word :=
  (0#21 ++ headBit s.disp.outq ++ BitVec.ofNat 2 s.disp.outq.length ++ 0#1 ++ headBit s.disp.rdyq ++
    BitVec.ofNat 2 s.disp.rdyq.length ++ slotStateCode s.disp.st1 ++ slotStateCode s.disp.st0 : BitVec 32)

/-- The bit of a slot index. -/
def slotBit : Slot → BitVec 1
  | .zero => 0#1
  | .one => 1#1

/-- `SEQ` and `CUR` as read (10_state R29). -/
def State.seqWord (s : State) : Word := (0#27 ++ slotBit s.disp.cur ++ s.disp.seq : BitVec 32)

/-- `ID` (10_state R31) -/
def idWord : Word := 0x4441A001#32

/-- `CFG` (10_state R31) -/
def cfgWord (c : Config) : Word :=
  (0#4 ++ BitVec.ofNat 4 c.nslot ++ 0#3 ++ BitVec.ofNat 5 c.p ++ 0#4 ++ BitVec.ofNat 12 c.n : BitVec 32)

/-- Codes of the vowel index (30_encoding R107). -/
def vowelCode : Vowel → Nat
  | .a => 0
  | .e => 1
  | .i => 2
  | .o => 3
  | .u => 4

/-- Codes of the effect mode (10_state R34). -/
def modeCode : EffectMode → Nat
  | .formantShift => 0
  | .formantFilter => 1
  | .radio => 2
  | .formantShiftRadio => 3
  | .formantFilterRadio => 4

/-- Codes of the factor kind (10_state R26). -/
def kindCode : FactorKind → Nat
  | .empty => 0
  | .complexPair => 1
  | .twoReal => 2
  | .oneReal => 3

end Sys2Proof.Machine
end

