-- ==== Sys2Proof/Machine/Operands.lean ====
section
/-! DEFINITION. The operand forms: host-port addresses and data formats (10_state R50, R51; 20_memory R72, R82). The
stage operations have no operand fields and `CAPTURE_DONE` has one slot bit (30_encoding R106). -/

namespace Sys2Proof.Machine

/-- May the host read a slot in this state (20_memory R82)? -/
def hostMayRead : SlotState → Bool
  | .capturing => true
  | .readyForProcessing => false
  | .processing => false
  | .readyForOutput => true

/-- May the host write a slot in this state (20_memory R82)? -/
def hostMayWrite : SlotState → Bool
  | .capturing => true
  | .readyForProcessing => false
  | .processing => false
  | .readyForOutput => false

/-- The slot element at a word address, if one exists there (10_state R43, R50): index `n < N`. -/
def slotElem (c : Config) (a : Nat) : Option (Slot × Nat) :=
  if 0x1000 ≤ a ∧ a < 0x1000 + c.n ∧ a < 0x1400 then some (.zero, a - 0x1000)
  else if 0x1400 ≤ a ∧ a < 0x1400 + c.n ∧ a < 0x1800 then some (.one, a - 0x1400)
  else none

/-- The CE-owned set of 20_memory R72: "every address in `0x0007`, `0x000C..0x000F`, `0x0014..0x001A`,
`0x0040..0x03FF`, `0x0800..0x0BFF`". Case (2) of R72 concerns an address of it that maps to a register or to `RES`: a
reserved address in these ranges reads 0 at any time (DEDUCED, assumption log 18). -/
def ceOwned (a : Nat) : Bool :=
  a == 0x0007 || (decide (0x000C ≤ a) && decide (a ≤ 0x000F)) || (decide (0x0014 ≤ a) && decide (a ≤ 0x001A)) ||
  (decide (0x0040 ≤ a) && decide (a ≤ 0x03FF)) || (decide (0x0800 ≤ a) && decide (a ≤ 0x0BFF))

/-- A 16-bit element as a port word: `sext_16` (10_state R51). -/
def sampleWord (x : Sample) : Word := x.signExtend 32

/-- The low or the high word of an `i64` register: the low word at the even offset (10_state R51). -/
def wideWord (w : Wide) (offset : Nat) : Word :=
  if offset % 2 = 0 then w.extractLsb' 0 32 else w.extractLsb' 32 32

/-- Element `k` of an array of which the first `len` exist; the rest of its range is reserved (10_state R50). -/
def elemWord (len k : Nat) (l : List Word) : Option Word := if k < len then some (l.getD k 0#32) else none

/-- Word `k` of an array of `i64` registers of which the first `len` exist (10_state R50, R51). -/
def wideElemWord (len k : Nat) (l : List Wide) : Option Word :=
  if k / 2 < len then some (wideWord (l.getD (k / 2) 0#64) k) else none

/-- The registers at `0x0000..0x001A` (10_state R50), none above. `CMD` reads 0 (R37). -/
def lowRegister (c : Config) (s : State) : Nat → Option Word
  | 0x00 => some idWord
  | 0x01 => some (cfgWord c)
  | 0x02 => some 0#32
  | 0x03 => some s.statusWord
  | 0x04 => some s.irqEn
  | 0x05 => some s.slotstWord
  | 0x06 => some s.seqWord
  | 0x07 => some s.fr.word
  | 0x08 => some s.par.freq
  | 0x09 => some s.par.amp
  | 0x0A => some s.par.vowel
  | 0x0B => some s.par.mode
  | 0x0C => some s.snap.freq
  | 0x0D => some s.snap.amp
  | 0x0E => some (BitVec.ofNat 32 (vowelCode s.snap.vowel))
  | 0x0F => some (BitVec.ofNat 32 (modeCode s.snap.mode))
  | 0x10 => some s.cnt.ready
  | 0x11 => some s.cnt.done
  | 0x12 => some s.cnt.out
  | 0x13 => some s.cnt.under
  | 0x14 => some s.lpc.e
  | 0x15 => some s.lpc.g
  | 0x16 => some (s.poles.nqf.zeroExtend 32)
  | 0x17 => some (s.poles.remDeg.zeroExtend 32)
  | 0x18 => some (flagBit s.filt.fbValid 0)
  | 0x19 => some (BitVec.ofNat 32 (vowelCode s.filt.fbKeyVowel))
  | 0x1A => some s.filt.fbKeyFreq
  | _ => none

/-- Offset `k` of a biquad stage's 16 words; 9 to 15 are reserved (10_state R40). -/
def biquadWord (b : Biquad) : Nat → Option Word
  | 0 => some b.coef.b0
  | 1 => some b.coef.b1
  | 2 => some b.coef.b2
  | 3 => some b.coef.a1
  | 4 => some b.coef.a2
  | 5 => some (b.s1.extractLsb' 0 32)
  | 6 => some (b.s1.extractLsb' 32 32)
  | 7 => some (b.s2.extractLsb' 0 32)
  | 8 => some (b.s2.extractLsb' 32 32)
  | _ => none

/-- The four biquad stages at `0x0200..0x023F` (10_state R40). -/
def biquadOfIndex (s : State) : Nat → Biquad
  | 0 => s.filt.hp
  | 1 => s.filt.bp1
  | 2 => s.filt.bp2
  | _ => s.filt.bp3

/-- Offset `k` of factor `j`'s 16 words; 9 to 15 are reserved (10_state R26). -/
def poleWord (p : Poles) (j : Nat) : Nat → Option Word
  | 0 => some (BitVec.ofNat 32 (kindCode (p.kind.getD j .empty)))
  | 1 => some (p.u.getD j 0#32)
  | 2 => some (p.v.getD j 0#32)
  | 3 => some (p.plA.getD j 0#32)
  | 4 => some (p.plB.getD j 0#32)
  | 5 => some (p.psA.getD j 0#32)
  | 6 => some (p.psB.getD j 0#32)
  | 7 => some (p.shU.getD j 0#32)
  | 8 => some (p.shV.getD j 0#32)
  | _ => none

/-- What a mapped address holds (10_state R50, R51), slots apart; `none` where nothing is mapped: an address not
listed, a reserved offset, an array index beyond the elements that exist. -/
def mappedWord (c : Config) (s : State) (a : Nat) : Option Word :=
  if a < 0x0040 then lowRegister c s a
  else if a < 0x0080 then wideElemWord (c.p + 1) (a - 0x0040) s.lpc.acr
  else if a < 0x00A0 then elemWord (c.p + 1) (a - 0x0080) s.lpc.acf
  else if a < 0x00C0 then elemWord (c.p + 1) (a - 0x00A0) s.lpc.a
  else if a < 0x00E0 then elemWord (c.p + 1) (a - 0x00C0) s.lpc.k
  else if a < 0x0100 then elemWord (c.p + 1) (a - 0x00E0) s.lpc.aq
  else if a < 0x0120 then elemWord (c.p + 1) (a - 0x0100) s.poles.rem
  else if a < 0x0140 then elemWord (c.p + 1) (a - 0x0120) s.recon.newA
  else if a < 0x0160 then elemWord (c.p + 1) (a - 0x0140) s.recon.newAQ
  else if a < 0x0200 then none
  else if a < 0x0240 then biquadWord (biquadOfIndex s ((a - 0x0200) / 16)) ((a - 0x0200) % 16)
  else if a < 0x0280 then none
  else if a < 0x02BC then wideElemWord c.p (a - 0x0280) s.filt.rs
  else if a < 0x0300 then none
  else if a < 0x0400 then
    if (a - 0x0300) / 16 < c.jmax then poleWord s.poles ((a - 0x0300) / 16) ((a - 0x0300) % 16) else none
  else if a < 0x0800 then none
  else if a < 0x0C00 then
    if a - 0x0800 < c.n then some (read32 s.mem (elemAddr .res (a - 0x0800))) else none
  else if a < 0x1800 then none
  else if a < 0x1C00 then
    if a - 0x1800 < c.n then some (sampleWord (read16 s.mem (elemAddr .outbuf (a - 0x1800)))) else none
  else none

end Sys2Proof.Machine
end

