-- ==== Sys2Proof/Machine/Dispatcher.lean ====
section
/-! DEFINITION. Dual-Core Dispatcher: `NOP`, `CAPTURE_DONE`, `OUTPUT_REQ`, `CLAIM`, `RELEASE` (46_dispatcher). -/

namespace Sys2Proof.Machine

/-- `NOP`: "no state change at all (not even a flag)" (46_dispatcher R253) -/
def execNop (s : State) : Host.Outcome State Fault Refusal := .next s

/-- `CAPTURE_DONE s` as a state change (46_dispatcher R251, R252). -/
def captureDone (sl : Slot) (s : State) : State :=
  if s.slotState sl = .capturing then
    let t := s.setSlotState sl .readyForProcessing
    { t with
      disp := { t.disp with rdyq := t.disp.rdyq ++ [sl] }
      cnt := { t.cnt with ready := t.cnt.ready + 1#32 } }
  else s.signalCmderr

/-- `CAPTURE_DONE` (46_dispatcher R251) -/
def execCaptureDone (slot : Slot) (s : State) : Host.Outcome State Fault Refusal := .next (captureDone slot s)

/-- `OUTPUT_REQ` as a state change (46_dispatcher R256). -/
def outputReq (c : Config) (s : State) : State :=
  match s.disp.outq with
  | sl :: rest =>
    let t : State :=
      { s with
        disp := { s.disp with outq := rest }
        mem := writeSamples s.mem .outbuf (readSamples s.mem (.slot sl) c.n)
        cnt := { s.cnt with out := s.cnt.out + 1#32 } }
    t.setSlotState sl .capturing
  | [] =>
    State.signalUnderrun { s with cnt := { s.cnt with under := s.cnt.under + 1#32 } }

/-- `OUTPUT_REQ` (46_dispatcher R256) -/
def execOutputReq (s : State) : Host.Outcome State Fault Refusal := .next (outputReq Config.core s)

/-- `ClampShift(w)` (46_dispatcher R259). -/
def clampShift (c : Config) (w : Word) : F32 × Bool :=
  if isNaN w then (fOne, true)
  else if !fle c.shiftMin w then (c.shiftMin, true)
  else if !fle w c.shiftMax then (c.shiftMax, true)
  else (w, false)

/-- `ClampVowel(w)`, `w` read as signed (46_dispatcher R259). -/
def clampVowel (w : Word) : Vowel × Bool :=
  let i := w.toInt
  if i < 0 then (.a, true)
  else if i = 0 then (.a, false)
  else if i = 1 then (.e, false)
  else if i = 2 then (.i, false)
  else if i = 3 then (.o, false)
  else if i = 4 then (.u, false)
  else (.u, true)

/-- `ClampMode(w)`, `w` read as unsigned (46_dispatcher R259). -/
def clampMode (w : Word) : EffectMode × Bool :=
  match w.toNat with
  | 0 => (.formantShift, false)
  | 1 => (.formantFilter, false)
  | 2 => (.radio, false)
  | 3 => (.formantShiftRadio, false)
  | 4 => (.formantFilterRadio, false)
  | _ => (.formantFilterRadio, true)

/-- The snapshot of the live parameters (46_dispatcher R258, R259). -/
def takeSnapshot (c : Config) (p : Params) : Snapshot where
  freq := (clampShift c p.freq).1
  amp := (clampShift c p.amp).1
  vowel := (clampVowel p.vowel).1
  mode := (clampMode p.mode).1

/-- Did any clamp change a parameter (46_dispatcher R258)? -/
def paramsClamped (c : Config) (p : Params) : Bool :=
  (clampShift c p.freq).2 || (clampShift c p.amp).2 || (clampVowel p.vowel).2 || (clampMode p.mode).2

/-- `FirstStage(SNAP_MODE)` (46_dispatcher R262). -/
def firstStage : EffectMode → Instr
  | .formantShift => .acorr
  | .formantShiftRadio => .acorr
  | .formantFilter => .fbcoef
  | .formantFilterRadio => .fbcoef
  | .radio => .rhpf

/-- `CLAIM` of slot `sl`, the head of `RDYQ`, `rest` being the queue without it (46_dispatcher R258). -/
def claimSlot (c : Config) (sl : Slot) (rest : List Slot) (s : State) : State :=
  let t := s.setSlotState sl .processing
  State.goStage
    { t with
      disp := { t.disp with cur := sl, rdyq := rest }
      fr := { FrFlags.clear with parclamp := paramsClamped c s.par }
      snap := takeSnapshot c s.par }
    (firstStage (takeSnapshot c s.par).mode)

/-- `CLAIM` as a state change: "Enabled iff `SEQ = 0` and `RDYQ` is non-empty"; when it is not, "no state changes"
(46_dispatcher R258). -/
def claim (c : Config) (s : State) : State :=
  if s.disp.seq = stageCode .claim then
    match s.disp.rdyq with
    | sl :: rest => claimSlot c sl rest s
    | [] => s
  else s

/-- `CLAIM` (46_dispatcher R258) -/
def execClaim (s : State) : Host.Outcome State Fault Refusal := .next (claim Config.core s)

/-- `RELEASE` as a state change (46_dispatcher R270). -/
def release (s : State) : State :=
  let t := s.setSlotState s.disp.cur .readyForOutput
  State.goStage
    { t with
      disp := { t.disp with outq := t.disp.outq ++ [s.disp.cur] }
      cnt := { t.cnt with done := t.cnt.done + 1#32 } } .claim

/-- `RELEASE` (46_dispatcher R270) -/
def execRelease (s : State) : Host.Outcome State Fault Refusal := .next (release s)

end Sys2Proof.Machine
end

