-- ==== Sys2Proof/Machine/FilterBank.lean ====
section
/-! DEFINITION. Static Formant Filter Bank: `FBCOEF`, `FBANK` (44_filter_bank). -/

namespace Sys2Proof.Machine

/-- The result of `BandPass`. -/
structure Band where
  b0 : F32
  b1 : F32
  b2 : F32
  a1 : F32
  a2 : F32
  clamped : Bool
  deriving DecidableEq, Repr

/-- The centre frequency `F * FS`, clamped to `FC_MAX` (44_filter_bank R213). -/
def centreFreq (c : Config) (f : Nat) (fs : F32) : F32 × Bool :=
  let fc := fmul (i2f f) fs
  if fle fc c.fcMax then (fc, false) else (c.fcMax, true)

/-- `BandPass(F, BW, FS)` (44_filter_bank R213). -/
def bandPass (c : Config) (f bw : Nat) (fs : F32) : Band :=
  let fc := centreFreq c f fs
  let w0 := fdiv (fmul Config.twoPi fc.1) (i2f c.sr)
  let sn := c.num.sin w0
  let cs := c.num.cos w0
  let q := fdiv fc.1 (i2f bw)
  let alpha := fdiv sn (fmul 0x40000000#32 q)
  let a0 := fadd fOne alpha
  let b0 := fdiv alpha a0
  { b0 := b0, b1 := fZero, b2 := fneg b0
    a1 := fdiv (fmul 0xC0000000#32 cs) a0
    a2 := fdiv (fsub fOne alpha) a0
    clamped := fc.2 }

/-- The coefficients in Q`BF` (44_filter_bank R212). -/
def bandCoef (c : Config) (b : Band) : BiquadCoef where
  b0 := BitVec.ofInt 32 (f2fix b.b0 c.bf 32)
  b1 := BitVec.ofInt 32 (f2fix b.b1 c.bf 32)
  b2 := BitVec.ofInt 32 (f2fix b.b2 c.bf 32)
  a1 := BitVec.ofInt 32 (f2fix b.a1 c.bf 32)
  a2 := BitVec.ofInt 32 (f2fix b.a2 c.bf 32)

/-- Do the cached coefficients serve this snapshot (44_filter_bank R212)? -/
def cacheHit (s : State) : Bool :=
  s.filt.fbValid && decide (s.filt.fbKeyVowel = s.snap.vowel) && decide (s.filt.fbKeyFreq = s.snap.freq)

/-- The coefficients of the three stages, the keys and `FCCLAMP` on a miss; the delay words are never touched
(44_filter_bank R212). -/
def recomputeBank (c : Config) (s : State) : State :=
  let t := c.formants s.snap.vowel
  let d1 := bandPass c t.1.1 t.1.2 s.snap.freq
  let d2 := bandPass c t.2.1.1 t.2.1.2 s.snap.freq
  let d3 := bandPass c t.2.2.1 t.2.2.2 s.snap.freq
  { s with
    filt := { s.filt with
      bp1 := { s.filt.bp1 with coef := bandCoef c d1 }
      bp2 := { s.filt.bp2 with coef := bandCoef c d2 }
      bp3 := { s.filt.bp3 with coef := bandCoef c d3 }
      fbValid := true
      fbKeyVowel := s.snap.vowel
      fbKeyFreq := s.snap.freq }
    fr := { s.fr with fcclamp := s.fr.fcclamp || d1.clamped || d2.clamped || d3.clamped } }

/-- `FBCOEF` as a state change (44_filter_bank R212). -/
def fbcoef (c : Config) (s : State) : State :=
  State.goStage (if cacheHit s then s else recomputeBank c s) .fbank

/-- `FBCOEF` (44_filter_bank R212) -/
def execFbcoef (s : State) : Host.Outcome State Fault Refusal := .next (fbcoef Config.core s)

/-- The stage after `FBANK` (46_dispatcher R262). -/
def afterFbank : EffectMode → Instr
  | .formantFilterRadio => .rhpf
  | .formantShift | .formantFilter | .radio | .formantShiftRadio => .release

/-- `FBANK` as a state change (44_filter_bank R216). -/
def fbank (c : Config) (s : State) : State :=
  State.goStage
    (State.biquadRun c .band3 (State.biquadRun c .band2 (State.biquadRun c .band1 s)))
    (afterFbank s.snap.mode)

/-- `FBANK` (44_filter_bank R216) -/
def execFbank (s : State) : Host.Outcome State Fault Refusal := .next (fbank Config.core s)

end Sys2Proof.Machine
end

