-- ==== Sys2Proof/Machine/Lpc.lean ====
section
/-! DEFINITION. LPC Analyzer: `ACORR`, `LEVDUR`, `RESID` (41_lpc_analyzer). -/

namespace Sys2Proof.Machine

/-- The lag sums of 41_lpc_analyzer R160: `ACR[k]` is the sum of `x[n] * x[n-k]` over `n = k .. N-1`. -/
def autocorr (p : Nat) (xs : List Int) : List Int :=
  (List.range (p + 1)).map fun k => dot (xs.drop k) xs

/-- `ACORR` as a state change (41_lpc_analyzer R160, R161). -/
def acorr (c : Config) (s : State) : State :=
  State.goStage
    { s with lpc := { s.lpc with acr := (autocorr c.p (s.frame c.n)).map (BitVec.ofInt 64) } } .levdur

/-- `ACORR` (41_lpc_analyzer R160) -/
def execAcorr (s : State) : Host.Outcome State Fault Refusal := .next (acorr Config.core s)

/-- 2^30 -/
def fTwoPow30 : F32 := 0x4E800000#32

/-- The biased estimate in real units (41_lpc_analyzer R163). -/
def normalise (n : Nat) (acr : List Int) : List F32 :=
  let den := fmul (i2f n) fTwoPow30
  acr.map fun v => fdiv (i2f v) den

/-- The inner sum of the recursion for order `i`: `r[i]` and then `a[j] * r[i-j]` for increasing `j = 1 .. i-1`
(41_lpc_analyzer R165). -/
def levAcc (r a : List F32) (i : Nat) : F32 :=
  (List.range (i - 1)).foldl
    (fun acc j => fadd acc (fmul (a.getD (j + 1) fZero) (r.getD (i - (j + 1)) fZero)))
    (r.getD i fZero)

/-- The coefficient update for order `i` from the old values throughout, `a[i] = k` last (41_lpc_analyzer R165). -/
def levUpdate (a : List F32) (i : Nat) (k : F32) : List F32 :=
  ((List.range i).map fun j =>
    if j = 0 then a.getD 0 fZero
    else fadd (a.getD j fZero) (fmul k (a.getD (i - j) fZero))) ++ [k]

/-- `m` orders of the recursion from order `i` on, given `a[0..i-1]`, `LPC_K[0..i-1]` and `E`; `none` is
`goto degenerate` (41_lpc_analyzer R165). -/
def levLoop (r : List F32) : Nat → Nat → List F32 → List F32 → F32 → Option (List F32 × List F32 × F32)
  | 0, _, a, ks, e => some (a, ks, e)
  | m + 1, i, a, ks, e =>
    let k := fneg (fdiv (levAcc r a i) e)
    if !isFinite k || !flt (fabs k) fOne then none
    else
      let e' := fmul e (fsub fOne (fmul k k))
      if !isFinite e' || !flt fZero e' then none
      else levLoop r m (i + 1) (levUpdate a i k) (ks ++ [k]) e'

/-- The predictor, the reflection coefficients, energy and gain, and which branch gave them. -/
structure Predictor where
  a : List F32
  k : List F32
  e : F32
  g : F32
  degen : Bool
  deriving DecidableEq, Repr

/-- The flat-spectrum branch (41_lpc_analyzer R166). -/
def flatPredictor (p : Nat) (acf : List F32) : Predictor where
  a := fOne :: List.replicate p fZero
  k := List.replicate (p + 1) fZero
  e := acf.getD 0 fZero
  g := fsqrt (acf.getD 0 fZero)
  degen := true

/-- The degeneracy test and the recursion (41_lpc_analyzer R164, R165, R166). -/
def predictor (c : Config) (acr : List Int) (acf : List F32) : Predictor :=
  if acr.getD 0 0 ≤ c.energyMin then flatPredictor c.p acf
  else
    match levLoop acf c.p 1 [fOne] [fZero] (acf.getD 0 fZero) with
    | none => flatPredictor c.p acf
    | some (a, k, e) => { a := a, k := k, e := e, g := fsqrt e, degen := false }

/-- Conversion to Q`CF` (41_lpc_analyzer R167, 42_pole_shifter R191). -/
def toFixed (c : Config) (a : List F32) : List Word := a.map fun v => BitVec.ofInt 32 (f2fix v c.cf 32)

/-- `LEVDUR` as a state change (41_lpc_analyzer R162). -/
def levdur (c : Config) (s : State) : State :=
  let acr := padTo (c.p + 1) 0 (s.lpc.acr.map BitVec.toInt)
  let acf := normalise c.n acr
  let r := predictor c acr acf
  State.goStage
    { s with
      lpc := { s.lpc with acf := acf, a := r.a, k := r.k, e := r.e, g := r.g, aq := toFixed c r.a }
      fr := { s.fr with degen := r.degen } } .resid

/-- `LEVDUR` (41_lpc_analyzer R162) -/
def execLevdur (s : State) : Host.Outcome State Fault Refusal := .next (levdur Config.core s)

/-- The inverse filter: `past` holds the samples before, latest first; samples before the frame's start count as
zero (41_lpc_analyzer R168). -/
def residLoop (cf : Nat) (aq : List Int) : List Int → List Int → List Int
  | _, [] => []
  | past, x :: xs => sat 32 (rhuShr (dot aq (x :: past)) cf) :: residLoop cf aq (x :: past) xs

/-- The residual of a frame (41_lpc_analyzer R168). -/
def residual (cf : Nat) (aq xs : List Int) : List Int := residLoop cf aq [] xs

/-- The coefficients `LPC_AQ[0..P]` as integers. -/
def fixedCoefs (c : Config) (aq : List Word) : List Int := padTo (c.p + 1) 0 (aq.map BitVec.toInt)

/-- `RESID` as a state change (41_lpc_analyzer R168). -/
def resid (c : Config) (s : State) : State :=
  State.goStage
    { s with mem := writeRes s.mem (residual c.cf (fixedCoefs c s.lpc.aq) (s.frame c.n)) } .proots

/-- `RESID` (41_lpc_analyzer R168) -/
def execResid (s : State) : Host.Outcome State Fault Refusal := .next (resid Config.core s)

end Sys2Proof.Machine
end

