-- ==== Sys2Proof/Machine/Poles.lean ====
section
/-! DEFINITION. Pole Extractor and Formant Shifter: `PROOTS`, `PSHIFT`, `PRECON` (42_pole_shifter). Polynomials are
lists of coefficients, highest power first. -/

namespace Sys2Proof.Machine

/-- 2.0 -/
def fTwo : F32 := 0x40000000#32

/-- 4.0 -/
def fFour : F32 := 0x40800000#32

/-- 0.5 -/
def fHalf : F32 := 0x3F000000#32

/-- `B[i]` for `i >= 2`, given the two before it (42_pole_shifter R182). -/
def deflateTail (u v : F32) : F32 → F32 → List F32 → List F32
  | _, _, [] => []
  | p1, p2, x :: xs =>
    let b := fsub (fsub x (fmul u p1)) (fmul v p2)
    b :: deflateTail u v b p1 xs

/-- `Deflate(c, n, u, v)`: synthetic division by `z² + u·z + v` (42_pole_shifter R182). -/
def deflate (c : List F32) (u v : F32) : List F32 :=
  match c with
  | [] => []
  | [c0] => [c0]
  | c0 :: c1 :: cs =>
    let b1 := fsub c1 (fmul u c0)
    c0 :: b1 :: deflateTail u v b1 c0 cs

/-- A quadratic factor and the quotient by it. -/
structure Found where
  u : F32
  v : F32
  q : List F32
  deriving DecidableEq, Repr

/-- At most `m` iterations of Bairstow's method from `(u, v)` on a polynomial of degree `n`; `none` sends the search
to the next start guess (42_pole_shifter R181). `C` comes from `B[0..n-1]` by the same recurrence as `B` from `c`. -/
def bairstow (tol : F32) (c : List F32) (n : Nat) : Nat → F32 → F32 → Option Found
  | 0, _, _ => none
  | m + 1, u, v =>
    let b := deflate c u v
    let d := deflate (b.take n) u v
    let c1 := d.getD (n - 1) fZero
    let c2 := d.getD (n - 2) fZero
    let c3 := d.getD (n - 3) fZero
    let b1 := b.getD (n - 1) fZero
    let b0 := b.getD n fZero
    let det := fsub (fmul c2 c2) (fmul c3 c1)
    let du := fdiv (fsub (fmul b1 c2) (fmul b0 c3)) det
    let dv := fdiv (fsub (fmul b0 c2) (fmul b1 c1)) det
    if !isFinite du || !isFinite dv then none
    else
      let u' := fadd u du
      let v' := fadd v dv
      if flt (fadd (fabs du) (fabs dv)) tol then
        let q := (deflate c u' v').take (n - 1)
        if isFinite u' && isFinite v' && q.all isFinite then some { u := u', v := v', q := q } else none
      else bairstow tol c n m u' v'

/-- `FindFactor(c, n)`: the start guesses in turn (42_pole_shifter R181, R183). -/
def findFactor (cfg : Config) (c : List F32) (n : Nat) : List (F32 × F32) → Option Found
  | [] => none
  | g :: gs =>
    match bairstow cfg.rootTol c n cfg.rootIters g.1 g.2 with
    | some f => some f
    | none => findFactor cfg c n gs

/-- One extracted factor (10_state R26). -/
structure Factor where
  kind : FactorKind
  u : F32
  v : F32
  deriving DecidableEq, Repr

/-- What the factor search leaves: factors in extraction order, and the polynomial it could not factor, if any. -/
structure Factors where
  found : List Factor
  left : Option (List F32)
  deriving DecidableEq, Repr

/-- A quadratic factor with its kind: 1 if `disc < 0`, else 2 (42_pole_shifter R180). -/
def quadFactor (u v : F32) : Factor :=
  let disc := fsub (fmul u u) (fmul fFour v)
  { kind := if flt disc fZero then .complexPair else .twoReal, u := u, v := v }

/-- The `while n > 0` loop of `PROOTS` on a working polynomial `c[0..n]` (42_pole_shifter R180); `m` bounds the number
of rounds. -/
def factorLoop (cfg : Config) : Nat → List F32 → Factors
  | 0, _ => { found := [], left := none }
  | m + 1, c =>
    let n := c.length - 1
    if n = 0 then { found := [], left := none }
    else if n = 1 then { found := [{ kind := .oneReal, u := c.getD 1 fZero, v := fZero }], left := none }
    else if n = 2 then { found := [quadFactor (c.getD 1 fZero) (c.getD 2 fZero)], left := none }
    else
      match findFactor cfg c n cfg.rootGuess with
      | none => { found := [], left := some c }
      | some f =>
        let r := factorLoop cfg m f.q
        { found := quadFactor f.u f.v :: r.found, left := r.left }

/-- The factors of the characteristic polynomial of `LPC_A`; a degenerate frame is left whole, with no search
(42_pole_shifter R180). -/
def factorise (cfg : Config) (degen : Bool) (a : List F32) : Factors :=
  let c := padTo (cfg.p + 1) fZero a
  if degen then { found := [], left := some c } else factorLoop cfg (cfg.p + 1) c

/-- `PROOTS` as a state change (42_pole_shifter R180, R184, R185). -/
def proots (cfg : Config) (s : State) : State :=
  let r := factorise cfg s.fr.degen s.lpc.a
  let left := r.left.getD [fOne]
  State.goStage
    { s with
      poles := { s.poles with
        kind := padTo cfg.jmax .empty (r.found.map Factor.kind)
        u := padTo cfg.jmax fZero (r.found.map Factor.u)
        v := padTo cfg.jmax fZero (r.found.map Factor.v)
        nqf := BitVec.ofNat 5 r.found.length
        rem := padTo (cfg.p + 1) fZero left
        remDeg := BitVec.ofNat 5 (left.length - 1) }
      fr := { s.fr with noconv := !s.fr.degen && r.left.isSome } } .pshift

/-- `PROOTS` (42_pole_shifter R180) -/
def execProots (s : State) : Host.Outcome State Fault Refusal := .next (proots Config.core s)

/-- `ScaleMag(m)` under the amplitude factor `as`, and whether it clamped (42_pole_shifter R186). -/
def scaleMag (cfg : Config) (as m : F32) : F32 × Bool :=
  let m2 := fmul m as
  if fle m2 cfg.rMax then (m2, false) else (cfg.rMax, true)

/-- The angle clamp (42_pole_shifter R187). -/
def scaleAngle (cfg : Config) (fs th : F32) : F32 × Bool :=
  let th2 := fmul th fs
  if fle th2 cfg.thetaMax then (th2, false) else (cfg.thetaMax, true)

/-- The six registers `PSHIFT` writes for one factor, and the clamps it took. -/
structure Shifted where
  plA : F32
  plB : F32
  psA : F32
  psB : F32
  shU : F32
  shV : F32
  rclamp : Bool
  aclamp : Bool
  deriving DecidableEq, Repr

def shiftedZero : Shifted where
  plA := fZero
  plB := fZero
  psA := fZero
  psB := fZero
  shU := fZero
  shV := fZero
  rclamp := false
  aclamp := false

/-- Kind 1, a complex-conjugate pair (42_pole_shifter R187). -/
def shiftComplex (cfg : Config) (fs as u v : F32) : Shifted :=
  let rad := fsqrt v
  let cs := fmax (fmin (fdiv (fneg u) (fmul fTwo rad)) fOne) (fneg fOne)
  let th := cfg.num.acos cs
  let th2 := scaleAngle cfg fs th
  let rad2 := scaleMag cfg as rad
  { plA := rad, plB := th, psA := rad2.1, psB := th2.1
    shU := fneg (fmul (fmul fTwo rad2.1) (cfg.num.cos th2.1))
    shV := fmul rad2.1 rad2.1
    rclamp := rad2.2, aclamp := th2.2 }

/-- Kind 2, two real poles (42_pole_shifter R188). -/
def shiftTwoReal (cfg : Config) (as u v : F32) : Shifted :=
  let sq := fsqrt (fsub (fmul u u) (fmul fFour v))
  let p1 := fmul fHalf (fadd (fneg u) sq)
  let p2 := fmul fHalf (fsub (fneg u) sq)
  let m1 := scaleMag cfg as (fabs p1)
  let m2 := scaleMag cfg as (fabs p2)
  let q1 := copysign m1.1 p1
  let q2 := copysign m2.1 p2
  { plA := p1, plB := p2, psA := q1, psB := q2
    shU := fneg (fadd q1 q2), shV := fmul q1 q2
    rclamp := m1.2 || m2.2, aclamp := false }

/-- Kind 3, the unpaired real pole (42_pole_shifter R189). -/
def shiftOneReal (cfg : Config) (as u : F32) : Shifted :=
  let p := fneg u
  let m := scaleMag cfg as (fabs p)
  let q := copysign m.1 p
  { plA := p, plB := fZero, psA := q, psB := fZero
    shU := fneg q, shV := fZero
    rclamp := m.2, aclamp := false }

/-- The rule for one factor by its kind (42_pole_shifter R186). Kind 0 does not occur below `NQF`; it is treated as
no factor. DESIGN CHOICE, unsafe (assumption log 10). -/
def shiftFactor (cfg : Config) (fs as : F32) (f : Factor) : Shifted :=
  match f.kind with
  | .empty => shiftedZero
  | .complexPair => shiftComplex cfg fs as f.u f.v
  | .twoReal => shiftTwoReal cfg as f.u f.v
  | .oneReal => shiftOneReal cfg as f.u

/-- Factor register `j` (10_state R26). -/
def factorAt (p : Poles) (j : Nat) : Factor where
  kind := p.kind.getD j .empty
  u := p.u.getD j fZero
  v := p.v.getD j fZero

/-- The shifted factors for `j = 0 .. JMAX-1` (42_pole_shifter R186). -/
def shiftAll (cfg : Config) (fs as : F32) (p : Poles) : List Shifted :=
  (List.range cfg.jmax).map fun j =>
    if j < p.nqf.toNat then shiftFactor cfg fs as (factorAt p j) else shiftedZero

/-- `PSHIFT` as a state change (42_pole_shifter R186). -/
def pshift (cfg : Config) (s : State) : State :=
  let r := shiftAll cfg s.snap.freq s.snap.amp s.poles
  State.goStage
    { s with
      poles := { s.poles with
        plA := r.map Shifted.plA
        plB := r.map Shifted.plB
        psA := r.map Shifted.psA
        psB := r.map Shifted.psB
        shU := r.map Shifted.shU
        shV := r.map Shifted.shV }
      fr := { s.fr with rclamp := r.any Shifted.rclamp, aclamp := r.any Shifted.aclamp } } .precon

/-- `PSHIFT` (42_pole_shifter R186) -/
def execPshift (s : State) : Host.Outcome State Fault Refusal := .next (pshift Config.core s)

/-- Multiplication by `z + u` (42_pole_shifter R191). -/
def mulLinear (u : F32) (w : List F32) : List F32 :=
  List.zipWith (fun x y => fadd x (fmul u y)) (w ++ [fZero]) (fZero :: w)

/-- Multiplication by `z² + u·z + v` (42_pole_shifter R191). -/
def mulQuadratic (u v : F32) (w : List F32) : List F32 :=
  List.zipWith (fun x y => fadd x (fmul v y))
    (List.zipWith (fun x y => fadd x (fmul u y)) (w ++ [fZero, fZero]) (fZero :: w ++ [fZero]))
    (fZero :: fZero :: w)

/-- `w[i]`, +0.0 outside the polynomial (42_pole_shifter R191). -/
def coefBelow (w : List F32) (i m : Nat) : F32 := if m ≤ i then w.getD (i - m) fZero else fZero

/-- Multiplication by the unfactored remainder of degree `deg` (42_pole_shifter R191). -/
def mulRemainder (rem : List F32) (deg : Nat) (w : List F32) : List F32 :=
  if deg = 0 then w
  else
    (List.range (w.length + deg)).map fun i =>
      (List.range (deg + 1)).foldl
        (fun acc m => fadd acc (fmul (rem.getD m fZero) (coefBelow w i m))) fZero

/-- The product of the shifted factors in extraction order, then of the remainder (42_pole_shifter R191). -/
def reconstruct (p : Poles) : List F32 :=
  let w := (List.range p.nqf.toNat).foldl
    (fun w j =>
      if p.kind.getD j .empty = .oneReal then mulLinear (p.shU.getD j fZero) w
      else mulQuadratic (p.shU.getD j fZero) (p.shV.getD j fZero) w)
    [fOne]
  mulRemainder p.rem p.remDeg.toNat w

/-- `PRECON` as a state change (42_pole_shifter R191, R192). -/
def precon (cfg : Config) (s : State) : State :=
  let w := padTo (cfg.p + 1) fZero (reconstruct s.poles)
  let ok := w.all isFinite
  let newA := if ok then w else padTo (cfg.p + 1) fZero s.lpc.a
  State.goStage
    { s with
      recon := { newA := newA, newAQ := toFixed cfg newA }
      fr := { s.fr with nonfin := !ok } } .resyn

/-- `PRECON` (42_pole_shifter R191) -/
def execPrecon (s : State) : Host.Outcome State Fault Refusal := .next (precon Config.core s)

end Sys2Proof.Machine
end

