-- ==== Sys2Proof/Machine/Radio.lean ====
section
/-! DEFINITION. Radio Effect Chain: `RHPF`, `RSAT`, `RLIM` (45_radio_chain). -/

namespace Sys2Proof.Machine

/-- `RHPF` as a state change (45_radio_chain R232). -/
def rhpf (c : Config) (s : State) : State := State.goStage (State.biquadRun c .highPass s) .rsat

/-- `RHPF` (45_radio_chain R232) -/
def execRhpf (s : State) : Host.Outcome State Fault Refusal := .next (rhpf Config.core s)

/-- The saturation of one sample (45_radio_chain R234). -/
def saturateSample (c : Config) (x : Int) : Int :=
  f2fix (c.num.tanh (fmul c.drive (q2f x))) 15 16

/-- `RSAT` as a state change (45_radio_chain R234). -/
def rsat (c : Config) (s : State) : State :=
  State.goStage (s.setFrame ((s.frame c.n).map (saturateSample c))) .rlim

/-- `RSAT` (45_radio_chain R234) -/
def execRsat (s : State) : Host.Outcome State Fault Refusal := .next (rsat Config.core s)

/-- The hard limit of one sample (45_radio_chain R237). -/
def limitSample (c : Config) (x : Int) : Int :=
  if c.limQ15 < x then c.limQ15 else if x < -c.limQ15 then -c.limQ15 else x

/-- `RLIM` as a state change (45_radio_chain R237). -/
def rlim (c : Config) (s : State) : State :=
  State.goStage (s.setFrame ((s.frame c.n).map (limitSample c))) .release

/-- `RLIM` (45_radio_chain R237) -/
def execRlim (s : State) : Host.Outcome State Fault Refusal := .next (rlim Config.core s)

end Sys2Proof.Machine
end

