-- ==== Sys2Proof/Machine/Resynth.lean ====
section
/-! DEFINITION. LPC Resynthesizer: `RESYN` (43_resynthesizer). -/

namespace Sys2Proof.Machine

/-- One output's effect on the state words: `RS[k] <- RS[k+1] - NEW_AQ[k] * y` for `k = 1 .. P-1` and
`RS[P] <- - NEW_AQ[P] * y`, where `as` is `NEW_AQ[1..P]` (43_resynthesizer R200). -/
def resynShift (as rs : List Int) (y : Int) : List Int :=
  List.zipWith (fun r a => r - a * y) (rs.tail ++ [0]) as

/-- The synthesis loop: outputs and final state words (43_resynthesizer R200). -/
def resynLoop (cf : Nat) (as : List Int) : List Int → List Int → List Int × List Int
  | rs, [] => ([], rs)
  | rs, e :: es =>
    let y := sat 16 (rhdShr (e * 2 ^ cf + rs.headD 0) cf)
    let r := resynLoop cf as (resynShift as rs y) es
    (y :: r.1, r.2)

/-- `NEW_AQ[1..P]` as integers. -/
def feedbackCoefs (c : Config) (aq : List Word) : List Int := (fixedCoefs c aq).tail

/-- `RS[1..P]` as integers. -/
def resynState (c : Config) (rs : List Wide) : List Int := padTo c.p 0 (rs.map BitVec.toInt)

/-- The stage after `RESYN` (46_dispatcher R262). -/
def afterResyn : EffectMode → Instr
  | .formantShiftRadio => .rhpf
  | .formantShift | .formantFilter | .radio | .formantFilterRadio => .release

/-- `RESYN` as a state change (43_resynthesizer R200). -/
def resyn (c : Config) (s : State) : State :=
  let r := resynLoop c.cf (feedbackCoefs c s.recon.newAQ) (resynState c s.filt.rs) (readRes s.mem c.n)
  let t := s.setFrame r.1
  State.goStage
    { t with filt := { t.filt with rs := r.2.map (BitVec.ofInt 64) } } (afterResyn s.snap.mode)

/-- `RESYN` (43_resynthesizer R200) -/
def execResyn (s : State) : Host.Outcome State Fault Refusal := .next (resyn Config.core s)

end Sys2Proof.Machine
end

