-- ==== Sys2Proof/Machine/Dispatch.lean ====
section
/-! DEFINITION. One arm per instruction. -/

namespace Sys2Proof.Machine

def exec (i : Instr) (s : State) : Host.Outcome State Fault Refusal :=
  match i with
  | .nop => Sys2Proof.Machine.execNop s
  | .captureDone slot => Sys2Proof.Machine.execCaptureDone slot s
  | .outputReq => Sys2Proof.Machine.execOutputReq s
  | .claim => Sys2Proof.Machine.execClaim s
  | .acorr => Sys2Proof.Machine.execAcorr s
  | .levdur => Sys2Proof.Machine.execLevdur s
  | .resid => Sys2Proof.Machine.execResid s
  | .proots => Sys2Proof.Machine.execProots s
  | .pshift => Sys2Proof.Machine.execPshift s
  | .precon => Sys2Proof.Machine.execPrecon s
  | .resyn => Sys2Proof.Machine.execResyn s
  | .fbcoef => Sys2Proof.Machine.execFbcoef s
  | .fbank => Sys2Proof.Machine.execFbank s
  | .rhpf => Sys2Proof.Machine.execRhpf s
  | .rsat => Sys2Proof.Machine.execRsat s
  | .rlim => Sys2Proof.Machine.execRlim s
  | .release => Sys2Proof.Machine.execRelease s

end Sys2Proof.Machine
end

