-- ==== Sys2Proof/Machine/Port.lean ====
section
/-! DEFINITION. The host port: `PortRead`, `PortWrite` (20_memory R71 to R73, R82, R83), the reset input
(70_reset R330 to R332) and CE's own step (10_state R29). -/

namespace Sys2Proof.Machine

/-- `PortRead(addr)` (20_memory R72): the word returned is left in `env.portOut`. Case (2) applies where the address
maps to something CE owns; a reserved address falls under case (4) whatever `SEQ` is (assumption log 18). -/
def portRead (c : Config) (a : PortAddr) (s : State) : State :=
  match slotElem c a.toNat with
  | some (sl, n) =>
    if hostMayRead (s.slotState sl) then
      s.answer (sampleWord (read16 s.mem (elemAddr (.slot sl) n)))
    else s.signalXerr.answer 0#32
  | none =>
    match mappedWord c s a.toNat with
    | some w => if ceOwned a.toNat && s.busy then s.answerFree else s.answer w
    | none => s.answer 0#32

/-- `PortWrite(addr, w)` at every address but `CMD` (20_memory R73 (2) to (6)). -/
def portStore (c : Config) (a : PortAddr) (w : Word) (s : State) : State :=
  match a.toNat with
  | 0x0003 => s.clearStatus w
  | 0x0004 => { s with irqEn := w &&& irqMask }
  | 0x0008 => { s with par := { s.par with freq := w } }
  | 0x0009 => { s with par := { s.par with amp := w } }
  | 0x000A => { s with par := { s.par with vowel := w } }
  | 0x000B => { s with par := { s.par with mode := w } }
  | n =>
    match slotElem c n with
    | some (sl, k) =>
      if hostMayWrite (s.slotState sl) then
        { s with mem := write16 s.mem (elemAddr (.slot sl) k) (w.extractLsb' 0 16) }
      else s.signalXerr
    | none => s

/-- A write to `CMD`: the decoded command is performed in the same step; an illegal word sets `CMDERR` and does
nothing else (46_dispatcher R250, R252). `run` performs an instruction. -/
def commandWrite (run : Instr → State → Host.Outcome State Fault Refusal) (w : Word) (s : State) :
    Host.Outcome State Fault Refusal :=
  match decodeCommand w with
  | .ok i => run i s
  | .error _ => .next s.signalCmderr

/-- `PortWrite(addr, w)` (20_memory R73). -/
def portWrite (c : Config) (run : Instr → State → Host.Outcome State Fault Refusal) (a : PortAddr) (w : Word)
    (s : State) : Host.Outcome State Fault Refusal :=
  if a.toNat = 0x0002 then commandWrite run w s else .next (portStore c a w s)

/-- CE performs the stage operation that `SEQ` names (10_state R29, 46_dispatcher R262). -/
def ceStep (run : Instr → State → Host.Outcome State Fault Refusal) (s : State) : Host.Outcome State Fault Refusal :=
  match decodeStage s.disp.seq with
  | .ok i => run i s
  | .error _ => .refused (.stageCodeReserved s.disp.seq)

/-- `rst` asserted and released: the reset state (70_reset R330 to R332). The steps still to come and the count of
free words are no state of the core and go on. -/
def applyReset (c : Config) (s : State) : State :=
  { resetOf c with env := { s.env with portOut := 0#32 } }

/-- One event. -/
def runEvent (c : Config) (run : Instr → State → Host.Outcome State Fault Refusal) (e : Event) (s : State) :
    Host.Outcome State Fault Refusal :=
  match e with
  | .read a => .next (portRead c a s)
  | .write a w => portWrite c run a w s
  | .ce => ceStep run s
  | .rst => .next (applyReset c s)

/-- The state with the first `n` of the coming events gone. -/
def State.dropEvents (s : State) (n : Nat) : State :=
  { s with env := { s.env with sched := s.env.sched.drop n } }

/-- Puts an event before all that are to come. -/
def State.pushEvent (s : State) (e : Event) : State :=
  { s with env := { s.env with sched := e :: s.env.sched } }

/-- One step in configuration `c`, `run` performing an instruction: the next event of the interleaving, and CE's own
step when no agent outside has one to come (00_scope R11, R16; 20_memory R85). -/
def stepBy (c : Config) (run : Instr → State → Host.Outcome State Fault Refusal) (s : State) :
    Host.Outcome State Fault Refusal :=
  match s.env.sched with
  | [] => ceStep run s
  | e :: _ => runEvent c run e (s.dropEvents 1)

end Sys2Proof.Machine
end

