-- ==== Sys2Proof/Machine/Step.lean ====
section
/-! DEFINITION. One step of the machine, and how a word is placed to be run next. -/

namespace Sys2Proof.Machine

/-- One step of the machine of the default configuration (00_scope R9). -/
def step (s : State) : Host.Outcome State Fault Refusal := stepBy Config.core exec s

/-- `s` made ready to run one opcode-table word in its next step: a stage code stands in `SEQ` and CE is the next to
move; a command word is the next write to `CMD`. -/
def State.withFetchWord (s : State) (nbits w : Nat) : State :=
  if nbits ≤ 8 then
    State.pushEvent { s with disp := { s.disp with seq := BitVec.ofNat 4 w } } .ce
  else s.pushEvent (.write 0x0002#13 (BitVec.ofNat 32 w))

end Sys2Proof.Machine
end

