-- ==== Sys2Proof/Machine/Configured.lean ====
section
/-! DEFINITION. The core in any configuration (00_scope R9, R10; 93_implementation_defined U9): the whole machine as a
function of the one configuration record. `exec`, `step`, `State.reset` and `Sys2Proof.core` are this machine at
`Config.core`. -/

namespace Sys2Proof.Machine

/-- What an instruction does in the core of configuration `c`. -/
def perform (c : Config) (i : Instr) (s : State) : State :=
  match i with
  | .nop => s
  | .captureDone slot => captureDone slot s
  | .outputReq => outputReq c s
  | .claim => claim c s
  | .acorr => acorr c s
  | .levdur => levdur c s
  | .resid => resid c s
  | .proots => proots c s
  | .pshift => pshift c s
  | .precon => precon c s
  | .resyn => resyn c s
  | .fbcoef => fbcoef c s
  | .fbank => fbank c s
  | .rhpf => rhpf c s
  | .rsat => rsat c s
  | .rlim => rlim c s
  | .release => release s

/-- One step of the core of configuration `c`. -/
def stepIn (c : Config) (s : State) : Host.Outcome State Fault Refusal :=
  stepBy c (fun i t => .next (perform c i t)) s

/-- The core of configuration `c`, from its reset state on. -/
def coreIn (c : Config) : Host.Core where
  State := State
  Fault := Fault
  Refusal := Refusal
  step := stepIn c
  reset := resetOf c

end Sys2Proof.Machine
end

