-- ==== Sys2Proof/Safety.lean ====
section
/-! DEFINITION. What claims are stated in: the invariants of the dispatcher (46_dispatcher R272), of the registers and
of the filter state (40_numerics R127), the bytes of a memory space, and the next-stage table (46_dispatcher R262). -/

namespace Sys2Proof.Machine

/-! ### Memory as claims speak of it -/

/-- How many bytes of an element of a space are stored (20_memory R70). -/
def elemBytes : Space → Nat
  | .slot _ => 2
  | .outbuf => 2
  | .res => 4

/-- Byte address `x` holds part of one of the `N` elements of a space. -/
def inSpace (sp : Space) (x : Nat) : Prop :=
  ∃ n < Config.core.n, elemAddr sp n ≤ x ∧ x < elemAddr sp n + elemBytes sp

/-- Two states read alike at every byte outside a space. -/
def sameMemoryOutside (sp : Space) (s t : State) : Prop :=
  ∀ x, ¬ inSpace sp x → readByte t.mem x = readByte s.mem x

/-- Sample `n` of a slot (10_state R43). -/
def State.sample (s : State) (sl : Slot) (n : Nat) : Int := readSample s.mem (.slot sl) n

/-- Sample `n` of `OUTBUF` (10_state R44). -/
def State.outSample (s : State) (n : Nat) : Int := readSample s.mem .outbuf n

/-- Element `n` of `RES` (10_state R45). -/
def State.resElem (s : State) (n : Nat) : Int := (read32 s.mem (elemAddr .res n)).toInt

/-- Sample `n` of `SLOT[CUR]`. -/
def State.cur (s : State) (n : Nat) : Int := s.sample s.disp.cur n

/-! ### The host port as claims speak of it -/

/-- A read of word address `n` shows `w` and changes no state of the core. -/
def State.readShows (s : State) (n : Nat) (w : Word) : Prop :=
  portRead Config.core (BitVec.ofNat 13 n) s = { s with env := { s.env with portOut := w } }

/-- A read of word address `n`, which CE owns, shows `w` while CE is idle and a free word while it is busy
(20_memory R72 (2), (3)). -/
def State.ownedReadShows (s : State) (n : Nat) (w : Word) : Prop :=
  (s.disp.seq = 0#4 → s.readShows n w) ∧
  (s.disp.seq ≠ 0#4 →
    portRead Config.core (BitVec.ofNat 13 n) s =
      { s with env := { s.env with
          portOut := Config.freeWord s.env.freeCount, freeCount := s.env.freeCount + 1 } })

/-- The implemented addresses of 10_state R50 outside the slots, for `N = 256` and `P = 12`: the single registers, the
elements `k <= P`, `n < N`, `j < JMAX` of the arrays, offsets 0 to 8 of a biquad stage and of a factor. -/
def hostMapped (a : Nat) : Prop :=
  a ≤ 0x001A ∨ (0x0040 ≤ a ∧ a < 0x0040 + 2 * 13) ∨
  (0x0080 ≤ a ∧ a < 0x0080 + 13) ∨ (0x00A0 ≤ a ∧ a < 0x00A0 + 13) ∨ (0x00C0 ≤ a ∧ a < 0x00C0 + 13) ∨
  (0x00E0 ≤ a ∧ a < 0x00E0 + 13) ∨ (0x0100 ≤ a ∧ a < 0x0100 + 13) ∨ (0x0120 ≤ a ∧ a < 0x0120 + 13) ∨
  (0x0140 ≤ a ∧ a < 0x0140 + 13) ∨
  (0x0200 ≤ a ∧ a < 0x0200 + 16 * 4 ∧ a % 16 ≤ 8) ∨ (0x0280 ≤ a ∧ a < 0x0280 + 2 * 12) ∨
  (0x0300 ≤ a ∧ a < 0x0300 + 16 * 6 ∧ a % 16 ≤ 8) ∨
  (0x0800 ≤ a ∧ a < 0x0800 + 256) ∨ (0x1800 ≤ a ∧ a < 0x1800 + 256)

/-! ### Binary32 as claims speak of it -/

/-- `r` is the binary32 that the exact value `x` rounds to, to nearest, ties to even (40_numerics R131): an infinity
from half a last place above the largest finite value on, else a finite value to which none is nearer, its last bit 0
where another value is as near. The sign of a zero is not its concern. -/
def RoundsTo (x : ℝ) (r : F32) : Prop :=
  (2 ^ 128 - 2 ^ 103 ≤ |x| → r = if x < 0 then 0xFF800000#32 else 0x7F800000#32) ∧
  (|x| < 2 ^ 128 - 2 ^ 103 → isFinite r = true ∧ ∀ g, isFinite g = true →
    |(fValue r : ℝ) - x| ≤ |(fValue g : ℝ) - x| ∧
    (|(fValue g : ℝ) - x| = |(fValue r : ℝ) - x| → fValue g ≠ fValue r → r.getLsbD 0 = false))

/-- The place of a pattern that is no NaN in the order of values; every finite value is below `2 ^ 128` in magnitude. -/
def fOrder (a : F32) : ℚ :=
  if isInf a = true then (if fSign a = true then -2 ^ 128 else 2 ^ 128) else fValue a

/-! ### The factor search as claims speak of it -/

/-- Bairstow's iteration on the polynomial `c[0..n]` from the start guess `g` finds the factor `f` (42_pole_shifter
R181): after `m + 1 <= 32` iterations, of which only the last meets the tolerance; `U it`, `V it` are `u`, `v` before
iteration `it + 1`, `C it` its second array, `du it`, `dv it` its step. Factor and quotient are finite. -/
def guessFinds (c : List F32) (n : Nat) (g : F32 × F32) (f : Found) : Prop :=
  ∃ (m : Nat) (U V : Nat → F32) (C : Nat → Nat → F32) (du dv : Nat → F32),
    m < 32 ∧ U 0 = g.1 ∧ V 0 = g.2 ∧
    (∀ it ≤ m,
      let B := fun i => (deflate c (U it) (V it)).getD i 0#32
      let det := fsub (fmul (C it (n - 2)) (C it (n - 2))) (fmul (C it (n - 3)) (C it (n - 1)))
      C it 0 = B 0 ∧ C it 1 = fsub (B 1) (fmul (U it) (C it 0)) ∧
      (∀ i, 2 ≤ i → i < n →
        C it i = fsub (fsub (B i) (fmul (U it) (C it (i - 1)))) (fmul (V it) (C it (i - 2)))) ∧
      du it = fdiv (fsub (fmul (B (n - 1)) (C it (n - 2))) (fmul (B n) (C it (n - 3)))) det ∧
      dv it = fdiv (fsub (fmul (B n) (C it (n - 2))) (fmul (B (n - 1)) (C it (n - 1)))) det ∧
      isFinite (du it) = true ∧ isFinite (dv it) = true ∧
      U (it + 1) = fadd (U it) (du it) ∧ V (it + 1) = fadd (V it) (dv it) ∧
      (flt (fadd (fabs (du it)) (fabs (dv it))) 0x35800000#32 = true ↔ it = m)) ∧
    f.u = U (m + 1) ∧ f.v = V (m + 1) ∧ isFinite f.u = true ∧ isFinite f.v = true ∧
    f.q.length = n - 1 ∧
    ∀ i, i + 1 < n →
      f.q.getD i 0#32 = (deflate c f.u f.v).getD i 0#32 ∧ isFinite (f.q.getD i 0#32) = true

/-! ### Invariants -/

/-- The state invariants (a) and (b) of 46_dispatcher R272, with 10_state R47: the slot being processed is exactly
`CUR` while `SEQ != 0`, and each queue lists exactly the slots in its state, each once. `SEQ` is one of the fourteen
codes (10_state R29). -/
structure Coherent (s : State) : Prop where
  processing : ∀ sl, s.slotState sl = .processing ↔ s.disp.seq ≠ 0#4 ∧ sl = s.disp.cur
  ready : ∀ sl, sl ∈ s.disp.rdyq ↔ s.slotState sl = .readyForProcessing
  output : ∀ sl, sl ∈ s.disp.outq ↔ s.slotState sl = .readyForOutput
  readyOnce : s.disp.rdyq.Nodup
  outputOnce : s.disp.outq.Nodup
  stage : s.disp.seq.toNat ≤ 13

/-- Invariant (c) of 46_dispatcher R272. -/
structure CountersAgree (s : State) : Prop where
  inCore : s.cnt.ready - s.cnt.done =
    BitVec.ofNat 32 (s.disp.rdyq.length + (if s.disp.seq = 0#4 then 0 else 1))
  waiting : s.cnt.done - s.cnt.out = BitVec.ofNat 32 s.disp.outq.length

/-- Every register array has the length the configuration gives it (10_state R20 to R28, R42). -/
structure Shape (s : State) : Prop where
  acr : s.lpc.acr.length = 13
  acf : s.lpc.acf.length = 13
  a : s.lpc.a.length = 13
  k : s.lpc.k.length = 13
  aq : s.lpc.aq.length = 13
  kind : s.poles.kind.length = 6
  u : s.poles.u.length = 6
  v : s.poles.v.length = 6
  plA : s.poles.plA.length = 6
  plB : s.poles.plB.length = 6
  psA : s.poles.psA.length = 6
  psB : s.poles.psB.length = 6
  shU : s.poles.shU.length = 6
  shV : s.poles.shV.length = 6
  rem : s.poles.rem.length = 13
  newA : s.recon.newA.length = 13
  newAQ : s.recon.newAQ.length = 13
  rs : s.filt.rs.length = 12

/-- The bounds of 40_numerics R127 (c), (d): state word `RS[j+1]` is a sum of at most `P - j` products of a 32-bit
coefficient and a 16-bit output, and `|BQ_S2| <= 2^47`, `|BQ_S1| <= 2^48`. -/
structure FilterBounds (s : State) : Prop where
  rs : ∀ j, |(s.filt.rs.getD j 0#64).toInt| ≤ ((12 - j : Nat) : Int) * 2 ^ 46
  s1 : ∀ st, |(s.biquad st).s1.toInt| ≤ 2 ^ 48
  s2 : ∀ st, |(s.biquad st).s2.toInt| ≤ 2 ^ 47

/-- The implemented bits of `IRQ_EN` (10_state R36), the snapshot ranges (10_state R35), the constant stage-0
coefficients (45_radio_chain R231), factors recorded only below `NQF <= JMAX` (10_state R26), and the lengths of the
arrays. -/
structure RegistersLegal (s : State) : Prop where
  shape : Shape s
  irqEn : s.irqEn &&& ~~~irqMask = 0#32
  freqLow : fle Config.core.shiftMin s.snap.freq = true
  freqHigh : fle s.snap.freq Config.core.shiftMax = true
  ampLow : fle Config.core.shiftMin s.snap.amp = true
  ampHigh : fle s.snap.amp Config.core.shiftMax = true
  highPass : s.filt.hp.coef = Config.highPass
  nqf : s.poles.nqf.toNat ≤ 6
  kinds : ∀ j, s.poles.kind.getD j .empty = .empty ↔ s.poles.nqf.toNat ≤ j

/-! ### The dispatcher's tables -/

/-- The cycle of slot states (10_state R46). -/
def nextSlotState : SlotState → SlotState
  | .capturing => .readyForProcessing
  | .readyForProcessing => .processing
  | .processing => .readyForOutput
  | .readyForOutput => .capturing

/-- The next-stage function (46_dispatcher R262), as the table gives it: the code `SEQ` holds after a stage. A command
is no stage and has no row. -/
def nextStageCode (mode : EffectMode) : Instr → Option (BitVec 4)
  | .claim =>
    some (match mode with
      | .formantShift => 1#4
      | .formantShiftRadio => 1#4
      | .formantFilter => 8#4
      | .formantFilterRadio => 8#4
      | .radio => 10#4)
  | .acorr => some 2#4
  | .levdur => some 3#4
  | .resid => some 4#4
  | .proots => some 5#4
  | .pshift => some 6#4
  | .precon => some 7#4
  | .resyn => some (if mode = .formantShiftRadio then 10#4 else 13#4)
  | .fbcoef => some 9#4
  | .fbank => some (if mode = .formantFilterRadio then 10#4 else 13#4)
  | .rhpf => some 11#4
  | .rsat => some 12#4
  | .rlim => some 13#4
  | .release => some 0#4
  | .nop => none
  | .captureDone _ => none
  | .outputReq => none

/-- How many CE steps a frame takes in each mode, with `CLAIM` and `RELEASE` (46_dispatcher R263). -/
def stageCount : EffectMode → Nat
  | .formantShift => 9
  | .formantFilter => 4
  | .radio => 5
  | .formantShiftRadio => 12
  | .formantFilterRadio => 7

/-- Is this a stage operation of CE (30_encoding R104)? -/
def isStage (i : Instr) : Bool :=
  match encode i with
  | .stage _ => true
  | .command _ => false

/-- The state with other live parameters. -/
def State.withParams (s : State) (p : Params) : State := { s with par := p }

end Sys2Proof.Machine
end

