-- ==== Sys2Proof/Certificates/Slice0/Obligations.lean ====
section
/-! DEFINITION. The statements about the machine, from the numbered rules of spec/. -/

open Sys2Proof Sys2Proof.Machine

/-! ### Encoding (30_encoding) -/

/-- A few words written out from 30_encoding R102 and R104 decode to their instructions. -/
def Obligations.SpecWordsDecode : Prop :=
  decodeTableWord 32 0x00000000 = some .nop ∧
  decodeTableWord 32 0x00000001 = some (.captureDone .zero) ∧
  decodeTableWord 32 0x00000101 = some (.captureDone .one) ∧
  decodeTableWord 32 0x00000002 = some .outputReq ∧
  decodeTableWord 32 0x00000201 = none ∧
  decodeTableWord 8 0b0001 = some .acorr ∧
  decodeTableWord 8 0b0100 = some .proots ∧
  decodeTableWord 8 0b0111 = some .resyn ∧
  decodeTableWord 8 0b1001 = some .fbank ∧
  decodeTableWord 8 0b1100 = some .rlim ∧
  decodeTableWord 8 0b1101 = some .release ∧
  decodeTableWord 8 0b1110 = none

/-- Every instruction's encoding, and its bytes, decode to it (30_encoding R102, R104). That a stage code has a byte form
at all, and which, is the model's choice (assumption log 15); the spec gives it four bits. -/
def Obligations.DecodeInvertsEncode : Prop :=
  ∀ i : Instr, Instr.wellFormed Config.core i = true →
    decode (encode i) = .ok i ∧ decodeBytes (bytesOfEncoded (encode i)) = .ok i

/-- 30_encoding R102, R103: the four valid command words and what they are; every other word is illegal. -/
def Obligations.CommandWordDecodesIffValid : Prop :=
  decodeCommand 0x00000000#32 = .ok .nop ∧
  decodeCommand 0x00000001#32 = .ok (.captureDone .zero) ∧
  decodeCommand 0x00000101#32 = .ok (.captureDone .one) ∧
  decodeCommand 0x00000002#32 = .ok .outputReq ∧
  ∀ w : Word,
    (commandValid w = true ↔
      w.extractLsb' 9 23 = 0#23 ∧
      (w.extractLsb' 0 8 = 0x00#8 ∨ w.extractLsb' 0 8 = 0x01#8 ∨ w.extractLsb' 0 8 = 0x02#8) ∧
      (w.extractLsb' 0 8 ≠ 0x01#8 → w.extractLsb' 8 1 = 0#1)) ∧
    (commandValid w = true ↔
      w = 0x00000000#32 ∨ w = 0x00000001#32 ∨ w = 0x00000101#32 ∨ w = 0x00000002#32) ∧
    (commandValid w = false ↔ decodeCommand w = .error .illegalCommand) ∧
    (∀ i, decodeCommand w = .ok i ↔ encode i = .command w)

/-- 30_encoding R104, R105: the fourteen codes name their stages, in this order; 14 and 15 name none. -/
def Obligations.StageCodeDecodesIffValid : Prop :=
  (∀ code : BitVec 4,
    [Instr.claim, .acorr, .levdur, .resid, .proots, .pshift, .precon, .resyn, .fbcoef, .fbank, .rhpf, .rsat,
      .rlim, .release][code.toNat]? = (decodeStage code).toOption) ∧
  ∀ code : BitVec 4,
    (stageCodeValid code = false ↔ decodeStage code = .error .unreachableStageCode) ∧
    (∀ i, decodeStage code = .ok i ↔ encode i = .stage code)

/-! ### A step (00_scope R16, 20_memory R73, 46_dispatcher R250) -/

/-- 46_dispatcher R250: a write to `CMD` decodes the word and performs the command in the same step, or sets `CMDERR`
and does nothing else. The write is gone from what is to come. -/
def Obligations.StepRunsDecodedCommand : Prop :=
  ∀ (s : State) (w : Word) (rest : List Event), s.env.sched = .write 0x0002#13 w :: rest →
    (∀ i, decodeCommand w = .ok i →
      step s = exec i { s with env := { s.env with sched := rest } }) ∧
    (∀ r, decodeCommand w = .error r →
      step s = .next { s with
        sticky := { s.sticky with cmderr := true }, env := { s.env with sched := rest } })

/-- When CE moves, it runs the stage that `SEQ` decodes to (10_state R29, 30_encoding R111). The first case, that CE
moves when no event is to come, is the model's choice (assumption log 1). -/
def Obligations.StepRunsDecodedStage : Prop :=
  ∀ (s : State) (i : Instr), decodeStage s.disp.seq = .ok i →
    (s.env.sched = [] → step s = exec i s) ∧
    (∀ rest, s.env.sched = .ce :: rest → step s = exec i { s with env := { s.env with sched := rest } })

/-- A port access to come is what the next step performs (20_memory R71). -/
def Obligations.StepRunsPortAccess : Prop :=
  ∀ (s : State) (a : PortAddr) (rest : List Event),
    (s.env.sched = .read a :: rest →
      step s = .next (portRead Config.core a { s with env := { s.env with sched := rest } })) ∧
    (∀ w, s.env.sched = .write a w :: rest → a ≠ 0x0002#13 →
      step s = .next (portStore Config.core a w { s with env := { s.env with sched := rest } }))

/-! ### Reset (10_state R52, 70_reset R330 to R332) -/

/-- 70_reset R331: every piece of state of the core after reset. -/
def Obligations.ResetStateValues : Prop :=
  State.reset.lpc =
    { acr := List.replicate 13 0#64, acf := List.replicate 13 0#32, a := List.replicate 13 0#32
      k := List.replicate 13 0#32, e := 0#32, g := 0#32, aq := List.replicate 13 0#32 } ∧
  State.reset.poles =
    { kind := List.replicate 6 .empty, u := List.replicate 6 0#32, v := List.replicate 6 0#32
      plA := List.replicate 6 0#32, plB := List.replicate 6 0#32, psA := List.replicate 6 0#32
      psB := List.replicate 6 0#32, shU := List.replicate 6 0#32, shV := List.replicate 6 0#32
      nqf := 0#5, rem := List.replicate 13 0#32, remDeg := 0#5 } ∧
  State.reset.recon = { newA := List.replicate 13 0#32, newAQ := List.replicate 13 0#32 } ∧
  State.reset.filt.hp =
    { coef := { b0 := 246978379#32, b1 := BitVec.ofInt 32 (-493956758), b2 := 246978379#32
                a1 := BitVec.ofInt 32 (-492238862), a2 := 227239197#32 }
      s1 := 0#64, s2 := 0#64 } ∧
  (∀ st, st ≠ .highPass → State.reset.biquad st = { coef := ⟨0#32, 0#32, 0#32, 0#32, 0#32⟩, s1 := 0#64, s2 := 0#64 }) ∧
  State.reset.filt.fbValid = false ∧ State.reset.filt.fbKeyVowel = .a ∧ State.reset.filt.fbKeyFreq = 0#32 ∧
  State.reset.filt.rs = List.replicate 12 0#64 ∧
  State.reset.par = { freq := 0x3F800000#32, amp := 0x3F800000#32, vowel := 0#32, mode := 0#32 } ∧
  State.reset.snap = { freq := 0x3F800000#32, amp := 0x3F800000#32, vowel := .a, mode := .formantShift } ∧
  State.reset.irqEn = 0#32 ∧
  State.reset.sticky = { underrun := false, xerr := false, cmderr := false } ∧
  State.reset.fr.word = 0#32 ∧
  State.reset.cnt = { ready := 0#32, done := 0#32, out := 0#32, under := 0#32 } ∧
  State.reset.disp =
    { seq := 0#4, cur := .zero, st0 := .capturing, st1 := .capturing, rdyq := [], outq := [] } ∧
  (∀ x, readByte State.reset.mem x = 0#8) ∧ State.reset.irq = false

/-- 70_reset R332: `rst` between steps abandons whatever is in progress. That the events still to come and the count
of free words go on, and the port shows 0, is the model's choice (assumption log 11). -/
def Obligations.ResetEventRestartsCore : Prop :=
  ∀ (s : State) (rest : List Event), s.env.sched = .rst :: rest →
    step s = .next { State.reset with
      env := { sched := rest, portOut := 0#32, freeCount := s.env.freeCount } }

/-! ### Invariants that every step keeps -/

/-- Every invariant below holds after reset (46_dispatcher R272, 10_state R47, R52). The clause on memory is about the
model's own representation (assumption log 6). -/
def Obligations.ResetMeetsInvariants : Prop :=
  Coherent State.reset ∧ CountersAgree State.reset ∧ FilterBounds State.reset ∧
  RegistersLegal State.reset ∧ Memory.wf State.reset.mem

/-- 46_dispatcher R272 (a), (b) and 10_state R47: whatever any agent does next, at most one slot is being processed, it
is `CUR`, and the queues list exactly the slots in their states, each once. -/
def Obligations.StepKeepsDispatcherCoherent : Prop :=
  ∀ s t : State, Coherent s → step s = .next t → Coherent t

/-- 46_dispatcher R272 (c). -/
def Obligations.StepKeepsCountersAgreeing : Prop :=
  ∀ s t : State, Coherent s → CountersAgree s → step s = .next t → CountersAgree t

/-- Memory keeps its one canonical form (the model's representation, assumption log 6). -/
def Obligations.StepKeepsMemoryCanonical : Prop :=
  ∀ s t : State, Memory.wf s.mem → step s = .next t → Memory.wf t.mem

/-- 40_numerics R127 (c), (d): no filter state word ever leaves its container. -/
def Obligations.StepKeepsFilterStateBounded : Prop :=
  ∀ s t : State, FilterBounds s → step s = .next t → FilterBounds t

/-- The reserved bits of `IRQ_EN`, the snapshot ranges, the fixed high-pass and the factor count stay legal
(10_state R26, R35, R36; 45_radio_chain R231),
and every register array keeps its length (10_state R20 to R28, R42). -/
def Obligations.StepKeepsRegistersLegal : Prop :=
  ∀ s t : State, RegistersLegal s → step s = .next t → RegistersLegal t

/-- 60_exceptions R290: no step stops, in any configuration. -/
def Obligations.NoStepRaisesException : Prop :=
  ∀ s : State, Coherent s → (∃ t, step s = .next t) ∧ ∀ c : Config, ∃ t, stepIn c s = .next t

/-- 46_dispatcher R271: in any step but reset, each slot stays in its state or moves to the next one of the cycle. -/
def Obligations.SlotsMoveOnlyAlongCycle : Prop :=
  ∀ s t : State, Coherent s → (∀ rest, s.env.sched ≠ .rst :: rest) → step s = .next t →
    ∀ sl, t.slotState sl = s.slotState sl ∨ t.slotState sl = nextSlotState (s.slotState sl)

/-! ### Commands (46_dispatcher section 1) -/

/-- 46_dispatcher R253. -/
def Obligations.NopChangesNothing : Prop :=
  encode .nop = .command 0x00000000#32 ∧ ∀ s : State, exec .nop s = .next s

/-- 46_dispatcher R251, R252: an accepted `CAPTURE_DONE` moves the slot on, queues it last and counts it; otherwise it
sets `CMDERR` and changes nothing else. -/
def Obligations.CaptureDoneQueuesSlot : Prop :=
  encode (.captureDone .zero) = .command 0x00000001#32 ∧ encode (.captureDone .one) = .command 0x00000101#32 ∧
  ∀ (s : State) (sl : Slot),
    (s.slotState sl = .capturing →
      ∃ t, exec (.captureDone sl) s = .next t ∧
        t.slotState sl = .readyForProcessing ∧
        (∀ sl', sl' ≠ sl → t.slotState sl' = s.slotState sl') ∧
        t.disp.rdyq = s.disp.rdyq ++ [sl] ∧
        t = { s with
          disp := { s.disp with st0 := t.disp.st0, st1 := t.disp.st1, rdyq := t.disp.rdyq }
          cnt := { s.cnt with ready := s.cnt.ready + 1#32 } }) ∧
    (s.slotState sl ≠ .capturing →
      exec (.captureDone sl) s = .next { s with sticky := { s.sticky with cmderr := true } })

/-- 46_dispatcher R256: `OUTPUT_REQ` copies the oldest finished frame to `OUTBUF`, frees its slot and counts it; with
no frame ready it sets `UNDERRUN` and counts that, and `OUTBUF` stays. -/
def Obligations.OutputReqDeliversOrUnderruns : Prop :=
  encode .outputReq = .command 0x00000002#32 ∧
  ∀ s : State,
    (∀ sl rest, s.disp.outq = sl :: rest →
      ∃ t, exec .outputReq s = .next t ∧
        (∀ n < 256, t.outSample n = s.sample sl n) ∧
        sameMemoryOutside .outbuf s t ∧
        t.slotState sl = .capturing ∧ (∀ sl', sl' ≠ sl → t.slotState sl' = s.slotState sl') ∧
        t = { s with
          disp := { s.disp with st0 := t.disp.st0, st1 := t.disp.st1, outq := rest }
          cnt := { s.cnt with out := s.cnt.out + 1#32 }
          mem := t.mem }) ∧
    (s.disp.outq = [] →
      exec .outputReq s = .next { s with
        sticky := { s.sticky with underrun := true }
        cnt := { s.cnt with under := s.cnt.under + 1#32 } })

/-! ### `CLAIM`, `RELEASE`, sequencing (46_dispatcher sections 2 to 4) -/

/-- 46_dispatcher R258: `CLAIM` takes the oldest ready frame and copies the four parameters, clamped, in one step; with
no frame ready CE waits and no state changes. -/
def Obligations.ClaimTakesOldestFrame : Prop :=
  encode .claim = .stage 0#4 ∧
  ∀ s : State, s.disp.seq = 0#4 →
    (s.disp.rdyq = [] → exec .claim s = .next s) ∧
    (∀ sl rest, s.disp.rdyq = sl :: rest →
      ∃ t, exec .claim s = .next t ∧
        t.slotState sl = .processing ∧ (∀ sl', sl' ≠ sl → t.slotState sl' = s.slotState sl') ∧
        t.snap.freq = (clampShift Config.core s.par.freq).1 ∧ t.snap.amp = (clampShift Config.core s.par.amp).1 ∧
        t.snap.vowel = (clampVowel s.par.vowel).1 ∧ t.snap.mode = (clampMode s.par.mode).1 ∧
        (t.fr.parclamp = true ↔
          (clampShift Config.core s.par.freq).2 = true ∨ (clampShift Config.core s.par.amp).2 = true ∨
          (clampVowel s.par.vowel).2 = true ∨ (clampMode s.par.mode).2 = true) ∧
        t.fr = { FrFlags.clear with parclamp := t.fr.parclamp } ∧
        nextStageCode t.snap.mode .claim = some t.disp.seq ∧
        t = { s with
          disp := { s.disp with
            seq := t.disp.seq, cur := sl, st0 := t.disp.st0, st1 := t.disp.st1, rdyq := rest }
          snap := t.snap, fr := t.fr })

/-- 46_dispatcher R259: the clamped values are valid, a valid value is kept, and the flag tells the two apart. -/
def Obligations.ClampsGiveNearestValidValue : Prop :=
  ∀ w : Word,
    (let r := clampShift Config.core w
     fle 0x3E800000#32 r.1 = true ∧ fle r.1 0x40800000#32 = true ∧
     (r.2 = false ↔ (fle 0x3E800000#32 w = true ∧ fle w 0x40800000#32 = true)) ∧
     (r.2 = false → r.1 = w) ∧
     (isNaN w = true → r.1 = 0x3F800000#32) ∧
     (flt w 0x3E800000#32 = true → r.1 = 0x3E800000#32) ∧
     (flt 0x40800000#32 w = true → r.1 = 0x40800000#32)) ∧
    ((vowelCode (clampVowel w).1 : Int) = max 0 (min 4 w.toInt) ∧
      ((clampVowel w).2 = false ↔ 0 ≤ w.toInt ∧ w.toInt ≤ 4)) ∧
    (modeCode (clampMode w).1 = min 4 w.toNat ∧ ((clampMode w).2 = false ↔ w.toNat ≤ 4))

/-- 46_dispatcher R270. -/
def Obligations.ReleaseQueuesFrameForOutput : Prop :=
  encode .release = .stage 13#4 ∧
  ∀ s : State, ∃ t, exec .release s = .next t ∧
    t.slotState s.disp.cur = .readyForOutput ∧
    (∀ sl, sl ≠ s.disp.cur → t.slotState sl = s.slotState sl) ∧
    t = { s with
      disp := { s.disp with
        seq := 0#4, st0 := t.disp.st0, st1 := t.disp.st1, outq := s.disp.outq ++ [s.disp.cur] }
      cnt := { s.cnt with done := s.cnt.done + 1#32 } }

/-- 46_dispatcher R262: whatever stage just finished, `SEQ` holds the code its row of the table names (`CLAIM` finishes
where a frame is ready); no command, no illegal word written to `CMD` and no other port access transfers control. (Reset
sets `SEQ` to 0, 70_reset R331.) -/
def Obligations.StagesFollowNextStageTable : Prop :=
  (∀ (s t : State) (i : Instr), isStage i = true → (i = .claim → s.disp.seq = 0#4 ∧ s.disp.rdyq ≠ []) →
    exec i s = .next t → nextStageCode t.snap.mode i = some t.disp.seq) ∧
  (∀ (s t : State) (i : Instr), isStage i = false → exec i s = .next t → t.disp.seq = s.disp.seq) ∧
  (∀ (s : State) (a : PortAddr) (w : Word),
    (portRead Config.core a s).disp.seq = s.disp.seq ∧ (portStore Config.core a w s).disp.seq = s.disp.seq) ∧
  (∀ (s t : State) (w : Word) (rest : List Event), s.env.sched = .write 0x0002#13 w :: rest → step s = .next t →
    t.disp.seq = s.disp.seq)

/-- 46_dispatcher R263, 70_reset R345: when only CE moves, a claimed frame runs to completion in the number of steps
its mode takes, and is queued for output. That CE moves when no event is to come is the model's choice (assumption
log 1). -/
def Obligations.ClaimedFrameRunsToRelease : Prop :=
  ∀ (s : State) (sl : Slot) (rest : List Slot),
    s.env.sched = [] → s.disp.seq = 0#4 → s.disp.rdyq = sl :: rest →
    ∃ t, core.run (stageCount (clampMode s.par.mode).1) s = .next t ∧
      t.disp.seq = 0#4 ∧ t.disp.rdyq = rest ∧ t.disp.outq = s.disp.outq ++ [sl] ∧
      t.slotState sl = .readyForOutput ∧ t.cnt = { s.cnt with done := s.cnt.done + 1#32 } ∧
      t.par = s.par ∧ t.sticky = s.sticky

/-- 20_memory R86 (e), 70_reset R343: a stage of a claimed frame computes the same whatever the live parameters. -/
def Obligations.ParametersDoNotReachClaimedFrame : Prop :=
  ∀ (s t : State) (i : Instr) (p : Params), isStage i = true → i ≠ .claim → exec i s = .next t →
    exec i (s.withParams p) = .next (t.withParams p)

/-! ### LPC Analyzer (41_lpc_analyzer) -/

/-- 41_lpc_analyzer R160: the lag sums, exact, and nothing else changed. -/
def Obligations.AcorrComputesLagSums : Prop :=
  encode .acorr = .stage 1#4 ∧
  ∀ s : State, ∃ t, exec .acorr s = .next t ∧
    t.lpc.acr.length = 13 ∧
    (∀ k ≤ 12, (t.lpc.acr.getD k 0#64).toInt =
      ∑ n ∈ Finset.range 256, if k ≤ n then s.cur n * s.cur (n - k) else 0) ∧
    t = { s with lpc := { s.lpc with acr := t.lpc.acr }, disp := { s.disp with seq := 2#4 } }

/-- 41_lpc_analyzer R160, corner cases: `ACR[0] >= 0` and `|ACR[k]| <= ACR[0]` (Cauchy-Schwarz). -/
def Obligations.LagZeroDominatesLagSums : Prop :=
  ∀ s t : State, exec .acorr s = .next t → ∀ k ≤ 12,
    0 ≤ (t.lpc.acr.getD 0 0#64).toInt ∧
    |(t.lpc.acr.getD k 0#64).toInt| ≤ (t.lpc.acr.getD 0 0#64).toInt

/-- 41_lpc_analyzer R163, R167: the normalised lags and the fixed-point predictor, for every frame; only the registers
R162 names change. -/
def Obligations.LevdurNormalisesAndConverts : Prop :=
  ∀ s : State, ∃ t, exec .levdur s = .next t ∧
    (∀ k ≤ 12, t.lpc.acf.getD k 0#32 = fdiv (i2f (s.lpc.acr.getD k 0#64).toInt) 0x52800000#32) ∧
    (∀ k ≤ 12, (t.lpc.aq.getD k 0#32).toInt = f2fix (t.lpc.a.getD k 0#32) 20 32) ∧
    t.lpc.a.getD 0 0#32 = 0x3F800000#32 ∧ (t.lpc.aq.getD 0 0#32).toInt = 2 ^ 20 ∧
    t.lpc.k.getD 0 0#32 = 0#32 ∧
    t = { s with
      lpc := { t.lpc with acr := s.lpc.acr }
      fr := { s.fr with degen := t.fr.degen }
      disp := { s.disp with seq := 3#4 } }

/-- 41_lpc_analyzer R166 with R164: a frame of no more than one unit of mean square is degenerate, and a degenerate
frame, for whatever reason, takes the flat spectrum whole. -/
def Obligations.LevdurFlattensDegenerateFrame : Prop :=
  ∀ s : State, ∃ t, exec .levdur s = .next t ∧
    ((s.lpc.acr.getD 0 0#64).toInt ≤ 256 → t.fr.degen = true) ∧
    (t.fr.degen = true →
      t.lpc.a = 0x3F800000#32 :: List.replicate 12 0#32 ∧ t.lpc.k = List.replicate 13 0#32 ∧
      t.lpc.e = t.lpc.acf.getD 0 0#32 ∧ t.lpc.g = fsqrt (t.lpc.acf.getD 0 0#32) ∧
      t.lpc.aq = 1048576#32 :: List.replicate 12 0#32)

/-- 41_lpc_analyzer R165: the recursion, `A i j` being coefficient `j` after order `i`, `K i` and `E i` the reflection
coefficient and the error energy of order `i`. The frame is not degenerate exactly when its energy is above the
threshold and every guard of every order holds, and then the registers hold the last order. -/
def Obligations.LevdurFollowsRecursion : Prop :=
  ∀ s : State, ∃ (t : State) (A : Nat → Nat → F32) (K E : Nat → F32), exec .levdur s = .next t ∧
    E 0 = t.lpc.acf.getD 0 0#32 ∧ (∀ i ≤ 12, A i 0 = 0x3F800000#32) ∧
    (∀ i, 1 ≤ i → i ≤ 12 →
      K i = fneg (fdiv
        ((List.range (i - 1)).foldl
          (fun acc j => fadd acc (fmul (A (i - 1) (j + 1)) (t.lpc.acf.getD (i - (j + 1)) 0#32)))
          (t.lpc.acf.getD i 0#32))
        (E (i - 1))) ∧
      (∀ j, 1 ≤ j → j < i → A i j = fadd (A (i - 1) j) (fmul (K i) (A (i - 1) (i - j)))) ∧
      A i i = K i ∧
      E i = fmul (E (i - 1)) (fsub 0x3F800000#32 (fmul (K i) (K i)))) ∧
    (t.fr.degen = false ↔
      256 < (s.lpc.acr.getD 0 0#64).toInt ∧
      ∀ i, 1 ≤ i → i ≤ 12 →
        isFinite (K i) = true ∧ flt (fabs (K i)) 0x3F800000#32 = true ∧
        isFinite (E i) = true ∧ flt 0#32 (E i) = true) ∧
    (t.fr.degen = false →
      (∀ j ≤ 12, t.lpc.a.getD j 0#32 = A 12 j) ∧ (∀ j, 1 ≤ j → j ≤ 12 → t.lpc.k.getD j 0#32 = K j) ∧
      t.lpc.k.getD 0 0#32 = 0#32 ∧ t.lpc.e = E 12 ∧ t.lpc.g = fsqrt (E 12))

/-- 41_lpc_analyzer R168: the inverse filter, with zero history before the frame; the saturation never acts; only
`RES` changes. -/
def Obligations.ResidFiltersFrame : Prop :=
  encode .resid = .stage 3#4 ∧
  ∀ s : State, ∃ t, exec .resid s = .next t ∧
    (∀ n < 256, t.resElem n =
      rhuShr (∑ k ∈ Finset.range 13,
        if k ≤ n then (s.lpc.aq.getD k 0#32).toInt * s.cur (n - k) else 0) 20) ∧
    sameMemoryOutside .res s t ∧
    t = { s with mem := t.mem, disp := { s.disp with seq := 4#4 } }

/-! ### Pole Extractor and Formant Shifter (42_pole_shifter) -/

/-- 42_pole_shifter R182: synthetic division, coefficient by coefficient. -/
def Obligations.DeflateFollowsRecurrence : Prop :=
  ∀ (c : List F32) (n : Nat) (u v : F32), 1 ≤ n → c.length = n + 1 →
    (deflate c u v).length = n + 1 ∧
    (deflate c u v).getD 0 0#32 = c.getD 0 0#32 ∧
    (deflate c u v).getD 1 0#32 = fsub (c.getD 1 0#32) (fmul u ((deflate c u v).getD 0 0#32)) ∧
    ∀ i, 2 ≤ i → i ≤ n →
      (deflate c u v).getD i 0#32 =
        fsub (fsub (c.getD i 0#32) (fmul u ((deflate c u v).getD (i - 1) 0#32)))
          (fmul v ((deflate c u v).getD (i - 2) 0#32))

/-- 42_pole_shifter R181, R183: the search answers what the first of the eight start guesses to find a factor finds, in
their order, and fails exactly where none of them finds one. -/
def Obligations.FactorSearchFollowsIteration : Prop :=
  ∀ (c : List F32) (n : Nat), 3 ≤ n → c.length = n + 1 →
    let guess := fun g : Nat =>
      [((0x00000000#32, 0x00000000#32) : F32 × F32), (0xBF800000#32, 0x3F000000#32), (0x3F800000#32, 0x3F000000#32),
        (0x00000000#32, 0x3F000000#32), (0xBFC00000#32, 0x3F400000#32), (0x3FC00000#32, 0x3F400000#32),
        (0xBF000000#32, 0x3F400000#32), (0x3F000000#32, 0x3F400000#32)].getD g (0#32, 0#32)
    (∀ f, findFactor Config.core c n Config.core.rootGuess = some f ↔
      ∃ g < 8, guessFinds c n (guess g) f ∧ ∀ h < g, ∀ f', ¬ guessFinds c n (guess h) f') ∧
    (findFactor Config.core c n Config.core.rootGuess = none ↔ ∀ g < 8, ∀ f, ¬ guessFinds c n (guess g) f)

/-- 42_pole_shifter R180, R184: the working polynomials `c j`, of degree `12 - 2 * j`, from `LPC_A` on: a factor each by
the search (the last one directly), until a search fails and its polynomial is left whole in `REM`; a degenerate frame
is left whole at once; the degrees add up; only the registers R180 names change. -/
def Obligations.ProotsExtractsFactors : Prop :=
  encode .proots = .stage 4#4 ∧
  ∀ s : State, ∃ (t : State) (c : Nat → List F32), exec .proots s = .next t ∧
    (∀ k ≤ 12, (c 0).getD k 0#32 = s.lpc.a.getD k 0#32) ∧
    t.poles.nqf.toNat ≤ 6 ∧ (s.fr.degen = true → t.poles.nqf = 0#5) ∧
    (∀ j < t.poles.nqf.toNat,
      (c j).length = 13 - 2 * j ∧
      (j < 5 → findFactor Config.core (c j) (12 - 2 * j) Config.core.rootGuess =
        some { u := t.poles.u.getD j 0#32, v := t.poles.v.getD j 0#32, q := c (j + 1) }) ∧
      (j = 5 → t.poles.u.getD j 0#32 = (c 5).getD 1 0#32 ∧ t.poles.v.getD j 0#32 = (c 5).getD 2 0#32) ∧
      t.poles.kind.getD j .empty =
        (if flt (fsub (fmul (t.poles.u.getD j 0#32) (t.poles.u.getD j 0#32))
            (fmul 0x40800000#32 (t.poles.v.getD j 0#32))) 0#32 = true
         then .complexPair else .twoReal)) ∧
    (∀ j, t.poles.nqf.toNat ≤ j →
      t.poles.kind.getD j .empty = .empty ∧ t.poles.u.getD j 0#32 = 0#32 ∧ t.poles.v.getD j 0#32 = 0#32) ∧
    (t.poles.nqf = 6#5 →
      t.poles.rem = 0x3F800000#32 :: List.replicate 12 0#32 ∧ t.poles.remDeg = 0#5 ∧ t.fr.noconv = false) ∧
    (t.poles.nqf ≠ 6#5 →
      (s.fr.degen = false → t.poles.nqf.toNat ≤ 4 ∧
        findFactor Config.core (c t.poles.nqf.toNat) (12 - 2 * t.poles.nqf.toNat) Config.core.rootGuess = none) ∧
      (c t.poles.nqf.toNat).length = 13 - 2 * t.poles.nqf.toNat ∧
      (∀ k ≤ 12, t.poles.rem.getD k 0#32 = (c t.poles.nqf.toNat).getD k 0#32) ∧
      t.poles.remDeg.toNat = 12 - 2 * t.poles.nqf.toNat ∧ t.fr.noconv = !s.fr.degen) ∧
    2 * (t.poles.kind.count .complexPair + t.poles.kind.count .twoReal) + t.poles.kind.count .oneReal +
      t.poles.remDeg.toNat = 12 ∧
    t = { s with
      poles := { s.poles with
        kind := t.poles.kind, u := t.poles.u, v := t.poles.v, nqf := t.poles.nqf
        rem := t.poles.rem, remDeg := t.poles.remDeg }
      fr := { s.fr with noconv := t.fr.noconv }
      disp := { s.disp with seq := 5#4 } }

/-- 42_pole_shifter R190: after `PSHIFT` every recorded pole is inside the clamps, for every admissible `NUM`. -/
def Obligations.PshiftKeepsPolesStable : Prop :=
  ∀ s : State, RegistersLegal s → ∃ t, exec .pshift s = .next t ∧
    ∀ j < s.poles.nqf.toNat,
      (s.poles.kind.getD j .empty = .complexPair →
        fle (t.poles.psA.getD j 0#32) 0x3F7FBE77#32 = true ∧ fle (t.poles.psB.getD j 0#32) 0x40470D23#32 = true) ∧
      (s.poles.kind.getD j .empty = .twoReal ∨ s.poles.kind.getD j .empty = .oneReal →
        fle (fabs (t.poles.psA.getD j 0#32)) 0x3F7FBE77#32 = true ∧
        fle (fabs (t.poles.psB.getD j 0#32)) 0x3F7FBE77#32 = true)

/-- 42_pole_shifter R186 to R189: what `PSHIFT` writes for each factor by its kind, where `mag m` is `ScaleMag(m)` and
`big m` tells whether it clamps; the two flags tell whether any clamp acted; registers of factors not found are zeroed;
only the registers R186 names change. -/
def Obligations.PshiftShiftsEachFactor : Prop :=
  encode .pshift = .stage 5#4 ∧
  ∀ s : State, ∃ t, exec .pshift s = .next t ∧
    (let mag := fun m => if fle (fmul m s.snap.amp) 0x3F7FBE77#32 = true then fmul m s.snap.amp else 0x3F7FBE77#32
     let big := fun m => fle (fmul m s.snap.amp) 0x3F7FBE77#32 = false
     let wide := fun th => fle (fmul th s.snap.freq) 0x40470D23#32 = false
     let kind := fun j => s.poles.kind.getD j .empty
     let u := fun j => s.poles.u.getD j 0#32
     let v := fun j => s.poles.v.getD j 0#32
     let plA := fun j => t.poles.plA.getD j 0#32
     let plB := fun j => t.poles.plB.getD j 0#32
     let psA := fun j => t.poles.psA.getD j 0#32
     let psB := fun j => t.poles.psB.getD j 0#32
     let shU := fun j => t.poles.shU.getD j 0#32
     let shV := fun j => t.poles.shV.getD j 0#32
     (∀ j < 6, s.poles.nqf.toNat ≤ j →
       plA j = 0#32 ∧ plB j = 0#32 ∧ psA j = 0#32 ∧ psB j = 0#32 ∧ shU j = 0#32 ∧ shV j = 0#32) ∧
     (∀ j < 6, j < s.poles.nqf.toNat →
       (kind j = .complexPair →
         plA j = fsqrt (v j) ∧
         plB j = Config.anyNum.acos (fmax (fmin (fdiv (fneg (u j)) (fmul 0x40000000#32 (plA j))) 0x3F800000#32)
           0xBF800000#32) ∧
         psA j = mag (plA j) ∧
         (¬ wide (plB j) → psB j = fmul (plB j) s.snap.freq) ∧ (wide (plB j) → psB j = 0x40470D23#32) ∧
         shU j = fneg (fmul (fmul 0x40000000#32 (psA j)) (Config.anyNum.cos (psB j))) ∧
         shV j = fmul (psA j) (psA j)) ∧
       (kind j = .twoReal →
         (∃ sq, sq = fsqrt (fsub (fmul (u j) (u j)) (fmul 0x40800000#32 (v j))) ∧
           plA j = fmul 0x3F000000#32 (fadd (fneg (u j)) sq) ∧
           plB j = fmul 0x3F000000#32 (fsub (fneg (u j)) sq)) ∧
         psA j = copysign (mag (fabs (plA j))) (plA j) ∧ psB j = copysign (mag (fabs (plB j))) (plB j) ∧
         shU j = fneg (fadd (psA j) (psB j)) ∧ shV j = fmul (psA j) (psB j)) ∧
       (kind j = .oneReal →
         plA j = fneg (u j) ∧ plB j = 0#32 ∧
         psA j = copysign (mag (fabs (plA j))) (plA j) ∧ psB j = 0#32 ∧
         shU j = fneg (psA j) ∧ shV j = 0#32)) ∧
     (t.fr.rclamp = true ↔ ∃ j < 6, j < s.poles.nqf.toNat ∧
       ((kind j = .complexPair ∧ big (plA j)) ∨
        (kind j = .twoReal ∧ (big (fabs (plA j)) ∨ big (fabs (plB j)))) ∨
        (kind j = .oneReal ∧ big (fabs (plA j))))) ∧
     (t.fr.aclamp = true ↔ ∃ j < 6, j < s.poles.nqf.toNat ∧ kind j = .complexPair ∧ wide (plB j))) ∧
    t = { s with
      poles := { s.poles with
        plA := t.poles.plA, plB := t.poles.plB, psA := t.poles.psA, psB := t.poles.psB
        shU := t.poles.shU, shV := t.poles.shV }
      fr := { s.fr with rclamp := t.fr.rclamp, aclamp := t.fr.aclamp }
      disp := { s.disp with seq := 6#4 } }

/-- 42_pole_shifter R191: the product of the shifted factors and of the remainder, `w j i` being coefficient `i` (+0.0
outside the polynomial) after `j` factors and `d j` the degree, `f` the product with the remainder; where a coefficient
of it is not finite the analysis coefficients take its place; only the registers R191 names change. -/
def Obligations.PreconMultipliesFactors : Prop :=
  encode .precon = .stage 6#4 ∧
  ∀ s : State, ∃ (t : State) (d : Nat → Nat) (w : Nat → Nat → F32) (f : Nat → F32), exec .precon s = .next t ∧
    (let below := fun (p : Nat → F32) (i m : Nat) => if m ≤ i then p (i - m) else 0#32
     let u := fun j => s.poles.shU.getD j 0#32
     let v := fun j => s.poles.shV.getD j 0#32
     let n := s.poles.nqf.toNat
     let r := s.poles.remDeg.toNat
     d 0 = 0 ∧ (∀ i, w 0 i = if i = 0 then 0x3F800000#32 else 0#32) ∧
     (∀ j < n,
       (s.poles.kind.getD j .empty = .oneReal →
         d (j + 1) = d j + 1 ∧
         ∀ i, w (j + 1) i =
           if i ≤ d j + 1 then fadd (w j i) (fmul (u j) (below (w j) i 1)) else 0#32) ∧
       (s.poles.kind.getD j .empty ≠ .oneReal →
         d (j + 1) = d j + 2 ∧
         ∀ i, w (j + 1) i =
           if i ≤ d j + 2 then
             fadd (fadd (w j i) (fmul (u j) (below (w j) i 1))) (fmul (v j) (below (w j) i 2))
           else 0#32)) ∧
     (r = 0 → ∀ i, f i = w n i) ∧
     (0 < r → ∀ i, f i =
       if i ≤ d n + r then
         (List.range (r + 1)).foldl
           (fun acc m => fadd acc (fmul (s.poles.rem.getD m 0#32) (below (w n) i m))) 0#32
       else 0#32)) ∧
    (t.fr.nonfin = false ↔ ∀ k ≤ 12, isFinite (f k) = true) ∧
    (t.fr.nonfin = false → ∀ k ≤ 12, t.recon.newA.getD k 0#32 = f k) ∧
    (t.fr.nonfin = true → ∀ k ≤ 12, t.recon.newA.getD k 0#32 = s.lpc.a.getD k 0#32) ∧
    (∀ k ≤ 12, (t.recon.newAQ.getD k 0#32).toInt = f2fix (t.recon.newA.getD k 0#32) 20 32) ∧
    t = { s with
      recon := t.recon
      fr := { s.fr with nonfin := t.fr.nonfin }
      disp := { s.disp with seq := 7#4 } }

/-! ### LPC Resynthesizer (43_resynthesizer) -/

/-- 43_resynthesizer R200: the recurrence, where `r n k` is `RS[k+1]` immediately before sample `n`; only `SLOT[CUR]`,
`RS` and `SEQ` change. -/
def Obligations.ResynFollowsRecurrence : Prop :=
  encode .resyn = .stage 7#4 ∧
  ∀ s : State, ∃ t, exec .resyn s = .next t ∧
    (∃ r : Nat → Nat → Int,
      (∀ k < 12, r 0 k = (s.filt.rs.getD k 0#64).toInt) ∧
      (∀ n < 256, t.cur n = sat 16 (rhdShr (s.resElem n * 2 ^ 20 + r n 0) 20) ∧
        (∀ k < 11, r (n + 1) k = r n (k + 1) - (s.recon.newAQ.getD (k + 1) 0#32).toInt * t.cur n) ∧
        r (n + 1) 11 = -(s.recon.newAQ.getD 12 0#32).toInt * t.cur n) ∧
      t.filt.rs.length = 12 ∧ (∀ k < 12, t.filt.rs.getD k 0#64 = BitVec.ofInt 64 (r 256 k))) ∧
    sameMemoryOutside (.slot s.disp.cur) s t ∧
    t = { s with
      mem := t.mem
      filt := { s.filt with rs := t.filt.rs }
      disp := { s.disp with seq := if s.snap.mode = .formantShiftRadio then 10#4 else 13#4 } }

/-- 43_resynthesizer R201: from zero state the outputs follow the direct form of the all-pole filter. -/
def Obligations.ResynIsDirectFormFromZeroState : Prop :=
  ∀ s : State, (∀ k < 12, s.filt.rs.getD k 0#64 = 0#64) →
    ∃ t, exec .resyn s = .next t ∧
      ∀ n < 256, t.cur n = sat 16 (rhdShr (s.resElem n * 2 ^ 20 -
        ∑ m ∈ Finset.range 13,
          if 1 ≤ m ∧ m ≤ n then (s.recon.newAQ.getD m 0#32).toInt * t.cur (n - m) else 0) 20)

/-- 43_resynthesizer R204: resynthesis from the residual, with the analysis coefficients and zero state, gives the
frame back with no error at all. -/
def Obligations.ResynUndoesResidExactly : Prop :=
  ∀ s : State, (∀ k < 12, s.filt.rs.getD k 0#64 = 0#64) →
    (s.lpc.aq.getD 0 0#32).toInt = 2 ^ 20 → s.recon.newAQ = s.lpc.aq →
    ∃ t u, exec .resid s = .next t ∧ exec .resyn t = .next u ∧ ∀ n < 256, u.cur n = s.cur n

/-! ### Static Formant Filter Bank (44_filter_bank) -/

/-- 44_filter_bank R211 to R213: a hit changes nothing; a miss designs the three sections from the snapshot and the
vowel's row of the table, each formant a pair of centre frequency and bandwidth, keys the
cache and records a clamp of a centre frequency; the delay words are never touched. -/
def Obligations.FbcoefHitsOrDesignsBank : Prop :=
  encode .fbcoef = .stage 8#4 ∧
  ∀ s : State,
    (s.filt.fbValid = true ∧ s.filt.fbKeyVowel = s.snap.vowel ∧ s.filt.fbKeyFreq = s.snap.freq →
      exec .fbcoef s = .next { s with disp := { s.disp with seq := 9#4 } }) ∧
    (¬ (s.filt.fbValid = true ∧ s.filt.fbKeyVowel = s.snap.vowel ∧ s.filt.fbKeyFreq = s.snap.freq) →
      ∃ t F1 F2 F3, exec .fbcoef s = .next t ∧ (F1, F2, F3) =
        (match s.snap.vowel with
          | .a => ((730, 80), (1090, 90), (2440, 120))
          | .e => ((530, 80), (1840, 90), (2480, 120))
          | .i => ((270, 80), (2290, 90), (3010, 120))
          | .o => ((570, 80), (840, 90), (2410, 120))
          | .u => ((300, 80), (870, 90), (2240, 120))) ∧
        (∀ (F : Nat × Nat) (b : BiquadCoef),
          (F = F1 ∧ b = t.filt.bp1.coef) ∨ (F = F2 ∧ b = t.filt.bp2.coef) ∨ (F = F3 ∧ b = t.filt.bp3.coef) →
          ∃ fc w0 alpha a0 : F32,
            fc = (if fle (fmul (i2f F.1) s.snap.freq) 0x45F78000#32 = true
                  then fmul (i2f F.1) s.snap.freq else 0x45F78000#32) ∧
            w0 = fdiv (fmul 0x40C90FDB#32 fc) (i2f 16000) ∧
            alpha = fdiv (Config.anyNum.sin w0) (fmul 0x40000000#32 (fdiv fc (i2f F.2))) ∧
            a0 = fadd 0x3F800000#32 alpha ∧
            b.b0.toInt = f2fix (fdiv alpha a0) 28 32 ∧ b.b1 = 0#32 ∧
            b.b2.toInt = f2fix (fneg (fdiv alpha a0)) 28 32 ∧
            b.a1.toInt = f2fix (fdiv (fmul 0xC0000000#32 (Config.anyNum.cos w0)) a0) 28 32 ∧
            b.a2.toInt = f2fix (fdiv (fsub 0x3F800000#32 alpha) a0) 28 32) ∧
        (t.fr.fcclamp = true ↔ s.fr.fcclamp = true ∨
          ∃ F : Nat × Nat, (F = F1 ∨ F = F2 ∨ F = F3) ∧ fle (fmul (i2f F.1) s.snap.freq) 0x45F78000#32 = false) ∧
        t = { s with
          filt := { s.filt with
            bp1 := { s.filt.bp1 with coef := t.filt.bp1.coef }
            bp2 := { s.filt.bp2 with coef := t.filt.bp2.coef }
            bp3 := { s.filt.bp3 with coef := t.filt.bp3.coef }
            fbValid := true, fbKeyVowel := s.snap.vowel, fbKeyFreq := s.snap.freq }
          fr := { s.fr with fcclamp := t.fr.fcclamp }
          disp := { s.disp with seq := 9#4 } })

/-- 44_filter_bank R216: the three sections in series. `x i n` is sample `n` after `i` sections, `p i n` and `q i n` the
two state words of section `i + 1` immediately before it: each sample passes all three sections as if one by one. -/
def Obligations.FbankIsSeriesOfThreeSections : Prop :=
  encode .fbank = .stage 9#4 ∧
  ∀ s : State, ∃ t, exec .fbank s = .next t ∧
    (∃ x p q : Nat → Nat → Int,
      (∀ n < 256, x 0 n = s.cur n ∧ t.cur n = x 3 n) ∧
      (∀ i st, (i = 0 ∧ st = .band1) ∨ (i = 1 ∧ st = .band2) ∨ (i = 2 ∧ st = .band3) →
        p i 0 = (s.biquad st).s1.toInt ∧ q i 0 = (s.biquad st).s2.toInt ∧
        (∀ n < 256,
          x (i + 1) n = sat 16 (rneShr ((s.biquad st).coef.b0.toInt * x i n + p i n) 28) ∧
          p i (n + 1) = (s.biquad st).coef.b1.toInt * x i n - (s.biquad st).coef.a1.toInt * x (i + 1) n + q i n ∧
          q i (n + 1) = (s.biquad st).coef.b2.toInt * x i n - (s.biquad st).coef.a2.toInt * x (i + 1) n) ∧
        t.biquad st = { coef := (s.biquad st).coef
                        s1 := BitVec.ofInt 64 (p i 256), s2 := BitVec.ofInt 64 (q i 256) })) ∧
    sameMemoryOutside (.slot s.disp.cur) s t ∧
    t = { s with
      mem := t.mem
      filt := { s.filt with bp1 := t.filt.bp1, bp2 := t.filt.bp2, bp3 := t.filt.bp3 }
      disp := { s.disp with seq := if s.snap.mode = .formantFilterRadio then 10#4 else 13#4 } }

/-! ### Radio Effect Chain (45_radio_chain) -/

/-- 45_radio_chain R232 with 40_numerics R137: one biquad run of stage 0; `p n`, `q n` are its state words immediately
before sample `n`. -/
def Obligations.RhpfFiltersFrame : Prop :=
  encode .rhpf = .stage 10#4 ∧
  ∀ s : State, ∃ t, exec .rhpf s = .next t ∧
    (∃ p q : Nat → Int,
      p 0 = s.filt.hp.s1.toInt ∧ q 0 = s.filt.hp.s2.toInt ∧
      (∀ n < 256,
        t.cur n = sat 16 (rneShr (s.filt.hp.coef.b0.toInt * s.cur n + p n) 28) ∧
        p (n + 1) = s.filt.hp.coef.b1.toInt * s.cur n - s.filt.hp.coef.a1.toInt * t.cur n + q n ∧
        q (n + 1) = s.filt.hp.coef.b2.toInt * s.cur n - s.filt.hp.coef.a2.toInt * t.cur n) ∧
      t.filt.hp = { coef := s.filt.hp.coef, s1 := BitVec.ofInt 64 (p 256), s2 := BitVec.ofInt 64 (q 256) }) ∧
    sameMemoryOutside (.slot s.disp.cur) s t ∧
    t = { s with
      mem := t.mem
      filt := { s.filt with hp := t.filt.hp }
      disp := { s.disp with seq := 11#4 } }

/-- 45_radio_chain R234: each sample independently, through `NUM.tanh`; only `SLOT[CUR]` and `SEQ` change. -/
def Obligations.RsatSaturatesEachSample : Prop :=
  encode .rsat = .stage 11#4 ∧
  ∀ s : State, ∃ t, exec .rsat s = .next t ∧
    (∀ n < 256, t.cur n = f2fix (Config.anyNum.tanh (fmul 0x40000000#32 (q2f (s.cur n)))) 15 16) ∧
    sameMemoryOutside (.slot s.disp.cur) s t ∧
    t = { s with mem := t.mem, disp := { s.disp with seq := 12#4 } }

/-- 45_radio_chain R234: the map is odd except at the rails, and takes 0 to 0, for every admissible `NUM`. -/
def Obligations.RsatIsOddInsideRails : Prop :=
  saturateSample Config.core 0 = 0 ∧
  ∀ x : Int, -32767 ≤ x → x ≤ 32767 →
    saturateSample Config.core (-x) = -saturateSample Config.core x ∨
    saturateSample Config.core x = 32767 ∨ saturateSample Config.core x = -32768

/-- 45_radio_chain R237, R238: each sample clamped symmetrically to `LIM_Q15`; only `SLOT[CUR]` and `SEQ` change. -/
def Obligations.RlimBoundsEverySample : Prop :=
  encode .rlim = .stage 12#4 ∧
  ∀ s : State, ∃ t, exec .rlim s = .next t ∧
    (∀ n < 256, t.cur n = max (-29491) (min 29491 (s.cur n)) ∧ |t.cur n| ≤ 29491) ∧
    sameMemoryOutside (.slot s.disp.cur) s t ∧
    t = { s with mem := t.mem, disp := { s.disp with seq := 13#4 } }

/-! ### The host port (20_memory) -/

/-- 20_memory R83: a refused access changes no slot, returns 0 if it is a read, and sets `XERR`. -/
def Obligations.RefusedSlotAccessSetsXerr : Prop :=
  ∀ (s : State) (sl : Slot) (n : Nat) (a : PortAddr), n < 256 → a.toNat = spaceBase (.slot sl) + n →
    (s.slotState sl = .readyForProcessing ∨ s.slotState sl = .processing →
      portRead Config.core a s = { s with
        sticky := { s.sticky with xerr := true }, env := { s.env with portOut := 0#32 } }) ∧
    (s.slotState sl ≠ .capturing → ∀ w,
      portStore Config.core a w s = { s with sticky := { s.sticky with xerr := true } })

/-- 20_memory R72 (3), R73 (5), R82 with 10_state R51: an allowed read shows the sample sign-extended and changes
nothing; an allowed write stores bits [15:0] and changes no other byte. -/
def Obligations.AllowedSlotAccessMovesSample : Prop :=
  ∀ (s : State) (sl : Slot) (n : Nat) (a : PortAddr), n < 256 → a.toNat = spaceBase (.slot sl) + n →
    (s.slotState sl = .capturing ∨ s.slotState sl = .readyForOutput →
      portRead Config.core a s =
        { s with env := { s.env with portOut := BitVec.ofInt 32 (s.sample sl n) } }) ∧
    (s.slotState sl = .capturing → ∀ w : Word,
      (portStore Config.core a w s).sample sl n = (w.extractLsb' 0 16).toInt ∧
      (∀ x, x < elemAddr (.slot sl) n ∨ elemAddr (.slot sl) n + 2 ≤ x →
        readByte (portStore Config.core a w s).mem x = readByte s.mem x) ∧
      portStore Config.core a w s = { s with mem := (portStore Config.core a w s).mem })

/-- 20_memory R72 (2) to (4) over the map of 10_state R50, slots apart: a read shows what the map has at the address, in
the format of R51, and changes no state of the core; of what CE owns only while CE is idle, else an unspecified word
(70_reset R340). Which word is not known of the model either (assumption log 3). An address not mapped reads 0; that it
does so inside CE's ranges while CE is busy too is the model's reading (assumption log 18), and so is it that it does so,
with `XERR` left alone, in a slot's range beyond `N` whatever the slot's state (assumption log 8). -/
def Obligations.PortReadsShowMapOrUnknownWord : Prop :=
  ∀ s : State,
    s.readShows 0x0000 0x4441A001#32 ∧ s.readShows 0x0001 0x020C0100#32 ∧ s.readShows 0x0002 0#32 ∧
    (∃ w, s.readShows 0x0003 w ∧ ∀ i, w.getLsbD i = true ↔
      (i = 0 ∧ s.disp.outq ≠ []) ∨ (i = 1 ∧ s.disp.rdyq ≠ []) ∨ (i = 2 ∧ s.disp.seq ≠ 0#4) ∨
      (i = 8 ∧ s.sticky.underrun = true) ∨ (i = 9 ∧ s.sticky.xerr = true) ∨ (i = 10 ∧ s.sticky.cmderr = true)) ∧
    s.readShows 0x0004 s.irqEn ∧
    (∃ w, s.readShows 0x0005 w ∧
      (let state := fun c : BitVec 2 =>
        [SlotState.capturing, .readyForProcessing, .processing, .readyForOutput][c.toNat]?
       state (w.extractLsb' 0 2) = some s.disp.st0 ∧ state (w.extractLsb' 2 2) = some s.disp.st1) ∧
      w.extractLsb' 4 2 = BitVec.ofNat 2 s.disp.rdyq.length ∧
      (w.getLsbD 6 = true ↔ s.disp.rdyq.head? = some .one) ∧ w.getLsbD 7 = false ∧
      w.extractLsb' 8 2 = BitVec.ofNat 2 s.disp.outq.length ∧
      (w.getLsbD 10 = true ↔ s.disp.outq.head? = some .one) ∧ w.extractLsb' 11 21 = 0#21) ∧
    (∃ w, s.readShows 0x0006 w ∧
      w.extractLsb' 0 4 = s.disp.seq ∧ (w.getLsbD 4 = true ↔ s.disp.cur = .one) ∧ w.extractLsb' 5 27 = 0#27) ∧
    (∃ w, s.ownedReadShows 0x0007 w ∧ ∀ i, w.getLsbD i = true ↔
      (i = 0 ∧ s.fr.degen = true) ∨ (i = 1 ∧ s.fr.noconv = true) ∨ (i = 2 ∧ s.fr.rclamp = true) ∨
      (i = 3 ∧ s.fr.aclamp = true) ∨ (i = 4 ∧ s.fr.parclamp = true) ∨ (i = 5 ∧ s.fr.nonfin = true) ∨
      (i = 6 ∧ s.fr.fcclamp = true)) ∧
    s.readShows 0x0008 s.par.freq ∧ s.readShows 0x0009 s.par.amp ∧ s.readShows 0x000A s.par.vowel ∧
    s.readShows 0x000B s.par.mode ∧
    (let vowel := fun w : Word => [Vowel.a, .e, .i, .o, .u][w.toNat]?
     let mode := fun w : Word =>
      [EffectMode.formantShift, .formantFilter, .radio, .formantShiftRadio, .formantFilterRadio][w.toNat]?
     s.ownedReadShows 0x000C s.snap.freq ∧ s.ownedReadShows 0x000D s.snap.amp ∧
     (∃ w, s.ownedReadShows 0x000E w ∧ vowel w = some s.snap.vowel) ∧
     (∃ w, s.ownedReadShows 0x000F w ∧ mode w = some s.snap.mode) ∧
     s.ownedReadShows 0x0018 (if s.filt.fbValid = true then 1#32 else 0#32) ∧
     (∃ w, s.ownedReadShows 0x0019 w ∧ vowel w = some s.filt.fbKeyVowel) ∧
     s.ownedReadShows 0x001A s.filt.fbKeyFreq) ∧
    s.readShows 0x0010 s.cnt.ready ∧ s.readShows 0x0011 s.cnt.done ∧ s.readShows 0x0012 s.cnt.out ∧
    s.readShows 0x0013 s.cnt.under ∧
    s.ownedReadShows 0x0014 s.lpc.e ∧ s.ownedReadShows 0x0015 s.lpc.g ∧
    s.ownedReadShows 0x0016 (BitVec.ofNat 32 s.poles.nqf.toNat) ∧
    s.ownedReadShows 0x0017 (BitVec.ofNat 32 s.poles.remDeg.toNat) ∧
    (∀ k ≤ 12,
      s.ownedReadShows (0x0040 + 2 * k) ((s.lpc.acr.getD k 0#64).extractLsb' 0 32) ∧
      s.ownedReadShows (0x0041 + 2 * k) ((s.lpc.acr.getD k 0#64).extractLsb' 32 32) ∧
      s.ownedReadShows (0x0080 + k) (s.lpc.acf.getD k 0#32) ∧ s.ownedReadShows (0x00A0 + k) (s.lpc.a.getD k 0#32) ∧
      s.ownedReadShows (0x00C0 + k) (s.lpc.k.getD k 0#32) ∧ s.ownedReadShows (0x00E0 + k) (s.lpc.aq.getD k 0#32) ∧
      s.ownedReadShows (0x0100 + k) (s.poles.rem.getD k 0#32) ∧
      s.ownedReadShows (0x0120 + k) (s.recon.newA.getD k 0#32) ∧
      s.ownedReadShows (0x0140 + k) (s.recon.newAQ.getD k 0#32)) ∧
    (∀ j st, (j = 0 ∧ st = .highPass) ∨ (j = 1 ∧ st = .band1) ∨ (j = 2 ∧ st = .band2) ∨ (j = 3 ∧ st = .band3) →
      let b := s.biquad st
      s.ownedReadShows (0x0200 + 16 * j) b.coef.b0 ∧ s.ownedReadShows (0x0201 + 16 * j) b.coef.b1 ∧
      s.ownedReadShows (0x0202 + 16 * j) b.coef.b2 ∧ s.ownedReadShows (0x0203 + 16 * j) b.coef.a1 ∧
      s.ownedReadShows (0x0204 + 16 * j) b.coef.a2 ∧
      s.ownedReadShows (0x0205 + 16 * j) (b.s1.extractLsb' 0 32) ∧
      s.ownedReadShows (0x0206 + 16 * j) (b.s1.extractLsb' 32 32) ∧
      s.ownedReadShows (0x0207 + 16 * j) (b.s2.extractLsb' 0 32) ∧
      s.ownedReadShows (0x0208 + 16 * j) (b.s2.extractLsb' 32 32)) ∧
    (∀ k, 1 ≤ k → k ≤ 12 →
      s.ownedReadShows (0x0280 + 2 * (k - 1)) ((s.filt.rs.getD (k - 1) 0#64).extractLsb' 0 32) ∧
      s.ownedReadShows (0x0281 + 2 * (k - 1)) ((s.filt.rs.getD (k - 1) 0#64).extractLsb' 32 32)) ∧
    (∀ j < 6,
      (∃ w, s.ownedReadShows (0x0300 + 16 * j) w ∧
        [FactorKind.empty, .complexPair, .twoReal, .oneReal][w.toNat]? = some (s.poles.kind.getD j .empty)) ∧
      s.ownedReadShows (0x0301 + 16 * j) (s.poles.u.getD j 0#32) ∧
      s.ownedReadShows (0x0302 + 16 * j) (s.poles.v.getD j 0#32) ∧
      s.ownedReadShows (0x0303 + 16 * j) (s.poles.plA.getD j 0#32) ∧
      s.ownedReadShows (0x0304 + 16 * j) (s.poles.plB.getD j 0#32) ∧
      s.ownedReadShows (0x0305 + 16 * j) (s.poles.psA.getD j 0#32) ∧
      s.ownedReadShows (0x0306 + 16 * j) (s.poles.psB.getD j 0#32) ∧
      s.ownedReadShows (0x0307 + 16 * j) (s.poles.shU.getD j 0#32) ∧
      s.ownedReadShows (0x0308 + 16 * j) (s.poles.shV.getD j 0#32)) ∧
    (∀ n < 256,
      s.ownedReadShows (0x0800 + n) (BitVec.ofInt 32 (s.resElem n)) ∧
      s.readShows (0x1800 + n) (BitVec.ofInt 32 (s.outSample n))) ∧
    (∀ n < 0x2000, ¬ hostMapped n → (∀ sl k, k < 256 → n ≠ spaceBase (.slot sl) + k) → s.readShows n 0#32)

/-- 20_memory R73 (2) to (4), (6), 10_state R50: `STATUS` bits are write-one-to-clear, `IRQ_EN` keeps its implemented
bits, a parameter register takes the word; any other address outside the slots ignores it. -/
def Obligations.PortWritesReachOnlyTheirRegister : Prop :=
  ∀ (s : State) (w : Word),
    portStore Config.core 0x0003#13 w s = { s with
      sticky := { underrun := s.sticky.underrun && !w.getLsbD 8
                  xerr := s.sticky.xerr && !w.getLsbD 9
                  cmderr := s.sticky.cmderr && !w.getLsbD 10 } } ∧
    portStore Config.core 0x0004#13 w s = { s with irqEn := w &&& 0x00000701#32 } ∧
    portStore Config.core 0x0008#13 w s = { s with par := { s.par with freq := w } } ∧
    portStore Config.core 0x0009#13 w s = { s with par := { s.par with amp := w } } ∧
    portStore Config.core 0x000A#13 w s = { s with par := { s.par with vowel := w } } ∧
    portStore Config.core 0x000B#13 w s = { s with par := { s.par with mode := w } } ∧
    ∀ a : PortAddr, a.toNat ≠ 2 → a.toNat ≠ 3 → a.toNat ≠ 4 → (a.toNat < 8 ∨ 0xB < a.toNat) →
      (∀ sl n, n < 256 → a.toNat ≠ spaceBase (.slot sl) + n) →
      portStore Config.core a w s = s

/-- 60_exceptions R296, R297: `irq` is high exactly when one of the four sources is pending and enabled. -/
def Obligations.IrqFollowsEnabledSources : Prop :=
  ∀ s : State, s.irq = true ↔
    (s.disp.outq ≠ [] ∧ s.irqEn.getLsbD 0 = true) ∨ (s.sticky.underrun = true ∧ s.irqEn.getLsbD 8 = true) ∨
    (s.sticky.xerr = true ∧ s.irqEn.getLsbD 9 = true) ∨ (s.sticky.cmderr = true ∧ s.irqEn.getLsbD 10 = true)

/-- 10_state R48: `SLOTST` determines the slot states and both queues completely. -/
def Obligations.SlotstDeterminesDispatcher : Prop :=
  ∀ s t : State, Coherent s → Coherent t → s.slotstWord = t.slotstWord →
    s.disp.st0 = t.disp.st0 ∧ s.disp.st1 = t.disp.st1 ∧ s.disp.rdyq = t.disp.rdyq ∧ s.disp.outq = t.disp.outq

/-! ### Ownership, over all instructions (10_state R39, 20_memory R84) -/

/-- 20_memory R84, R92: no stage writes a byte outside `SLOT[CUR]` and `RES`, none sets a sticky flag, none writes a
register of the host's. -/
def Obligations.StagesWriteOnlyTheirOwn : Prop :=
  ∀ (s t : State) (i : Instr), isStage i = true → exec i s = .next t →
    (∀ x, ¬ inSpace (.slot s.disp.cur) x → ¬ inSpace .res x → readByte t.mem x = readByte s.mem x) ∧
    t.sticky = s.sticky ∧ t.par = s.par ∧ t.irqEn = s.irqEn ∧ t.env = s.env

/-- 10_state R39: in any step but reset the delay words change only by their owning stage, `RHPF`, `FBANK`, `RESYN`,
when CE performs it; the host port cannot write any of it. -/
def Obligations.OnlyOwnerMovesDelayLines : Prop :=
  ∀ s t : State, (∀ rest, s.env.sched ≠ .rst :: rest) → step s = .next t →
    ((t.filt.hp.s1 ≠ s.filt.hp.s1 ∨ t.filt.hp.s2 ≠ s.filt.hp.s2) → s.disp.seq = 10#4) ∧
    ((∃ st, st ≠ .highPass ∧ ((t.biquad st).s1 ≠ (s.biquad st).s1 ∨ (t.biquad st).s2 ≠ (s.biquad st).s2)) →
      s.disp.seq = 9#4) ∧
    (t.filt.rs ≠ s.filt.rs → s.disp.seq = 7#4) ∧
    (t.filt ≠ s.filt → s.env.sched = [] ∨ ∃ rest, s.env.sched = .ce :: rest)

/-! ### Arithmetic (40_numerics) -/

/-- 40_numerics R121: `rne_shr` gives a nearest integer, the even one on a tie, and is odd symmetric. -/
def Obligations.RneShrRoundsToNearestEven : Prop :=
  ∀ (v : Int) (s : Nat),
    |2 * (rneShr v s * 2 ^ s - v)| ≤ 2 ^ s ∧
    (|2 * (rneShr v s * 2 ^ s - v)| = 2 ^ s → 1 ≤ s → rneShr v s % 2 = 0) ∧
    rneShr (-v) s = -rneShr v s

/-- 40_numerics R124: the pair of rounding shifts as floors, their relation, and the law that they cancel. -/
def Obligations.ComplementaryShiftsCancel : Prop :=
  ∀ (x v : Int) (s : Nat), 1 ≤ s →
    rhuShr v s = ⌊((v : ℚ) + 2 ^ (s - 1)) / 2 ^ s⌋ ∧
    rhdShr v s = ⌊((v : ℚ) + 2 ^ (s - 1) - 1) / 2 ^ s⌋ ∧
    rhdShr v s = -rhuShr (-v) s ∧
    rhdShr (rhuShr (x * 2 ^ s + v) s * 2 ^ s - v) s = x

/-- 40_numerics R134, R136: every integer converts to the nearest binary32, ties to even, one up to `2^24` exactly, and so
does every Q15 sample. -/
def Obligations.IntegersConvertToNearest : Prop :=
  (∀ i : Int, |i| < 2 ^ 63 → RoundsTo (i : ℝ) (i2f i)) ∧ i2f 0 = 0x00000000#32 ∧
  (∀ i : Int, |i| ≤ 2 ^ 24 → isFinite (i2f i) = true ∧ fValue (i2f i) = (i : ℚ)) ∧
  (∀ x : Int, -32768 ≤ x → x ≤ 32767 → isFinite (q2f x) = true ∧ fValue (q2f x) = (x : ℚ) / 32768)

/-- 40_numerics R122, R135: saturation clamps to the range of a `W`-bit integer; of a conversion, NaN gives 0, an infinity
its end of the range, a finite value the saturated nearest integer, the even one on a tie. -/
def Obligations.SaturationAndFixedPointConversion : Prop :=
  (∀ (width : Nat) (v : Int),
    (v < -2 ^ (width - 1) → sat width v = -2 ^ (width - 1)) ∧
    (2 ^ (width - 1) - 1 < v → sat width v = 2 ^ (width - 1) - 1) ∧
    (-2 ^ (width - 1) ≤ v → v ≤ 2 ^ (width - 1) - 1 → sat width v = v)) ∧
  ∀ (v : F32) (f width : Nat),
    (isNaN v = true → f2fix v f width = 0) ∧
    (v = 0x7F800000#32 → f2fix v f width = 2 ^ (width - 1) - 1) ∧
    (v = 0xFF800000#32 → f2fix v f width = -2 ^ (width - 1)) ∧
    (isFinite v = true →
      ∃ r : Int, f2fix v f width = sat width r ∧
        |(r : ℚ) - fValue v * 2 ^ f| ≤ 1 / 2 ∧ (|(r : ℚ) - fValue v * 2 ^ f| = 1 / 2 → r % 2 = 0))

/-- 40_numerics R131, R132: the five operations round the exact result correctly, ties to even and overflow to
infinity; their signs of zero, infinities and canonical NaN; the three sign operations; classes of patterns, the
comparisons, `fmin` and `fmax`. -/
def Obligations.FloatOperationsFollowIeee : Prop :=
  ∀ a b : F32,
    let differ := fSign a != fSign b
    let zero := fun neg : Bool => if neg = true then 0x80000000#32 else 0x00000000#32
    let inf := fun neg : Bool => if neg = true then 0xFF800000#32 else 0x7F800000#32
    (isNaN a = true ↔ 0x7F800000 < (a &&& 0x7FFFFFFF#32).toNat) ∧
    (isFinite a = true ↔ (a &&& 0x7FFFFFFF#32).toNat < 0x7F800000) ∧
    (isNaN a = true ∨ isNaN b = true →
      fadd a b = 0x7FC00000#32 ∧ fsub a b = 0x7FC00000#32 ∧ fmul a b = 0x7FC00000#32 ∧ fdiv a b = 0x7FC00000#32 ∧
      flt a b = false ∧ fle a b = false ∧ feq a b = false ∧ fmin a b = b ∧ fmax a b = b) ∧
    (isNaN a = true →
      fsqrt a = 0x7FC00000#32 ∧ fneg a = 0x7FC00000#32 ∧ fabs a = 0x7FC00000#32 ∧ copysign a b = 0x7FC00000#32) ∧
    (isNaN a = false →
      fneg a = a ^^^ 0x80000000#32 ∧ fabs a = a &&& 0x7FFFFFFF#32 ∧
      copysign a b = (a &&& 0x7FFFFFFF#32) ||| (b &&& 0x80000000#32)) ∧
    (isFinite a = true → isFinite b = true →
      RoundsTo ((fValue a : ℝ) + fValue b) (fadd a b) ∧
      (fValue a + fValue b = 0 → fadd a b = zero (fSign a && fSign b)) ∧
      RoundsTo ((fValue a : ℝ) - fValue b) (fsub a b) ∧
      (fValue a - fValue b = 0 → fsub a b = zero (fSign a && !fSign b)) ∧
      RoundsTo ((fValue a : ℝ) * fValue b) (fmul a b) ∧ fSign (fmul a b) = differ ∧
      (isZero b = false → RoundsTo ((fValue a : ℝ) / fValue b) (fdiv a b) ∧ fSign (fdiv a b) = differ) ∧
      (isZero b = true → fdiv a b = if isZero a = true then 0x7FC00000#32 else inf differ)) ∧
    (isFinite a = true → fSign a = false → RoundsTo (√(fValue a : ℝ)) (fsqrt a) ∧ fSign (fsqrt a) = false) ∧
    (isZero a = true → fsqrt a = a) ∧
    (fSign a = true → isZero a = false → fsqrt a = 0x7FC00000#32) ∧
    fsqrt 0x7F800000#32 = 0x7F800000#32 ∧
    (isInf a = true → isNaN b = false →
      fadd a b = (if isInf b = true ∧ differ = true then 0x7FC00000#32 else a) ∧
      fsub a b = (if isInf b = true ∧ differ = false then 0x7FC00000#32 else a) ∧
      fdiv a b = (if isInf b = true then 0x7FC00000#32 else inf differ)) ∧
    (isFinite a = true → isInf b = true →
      fadd a b = b ∧ fsub a b = inf (!fSign b) ∧ fdiv a b = zero differ) ∧
    (isNaN a = false → isNaN b = false → isInf a = true ∨ isInf b = true →
      fmul a b = if isZero a = true ∨ isZero b = true then 0x7FC00000#32 else inf differ) ∧
    (isNaN a = false → isNaN b = false →
      (flt a b = true ↔ fOrder a < fOrder b) ∧ (fle a b = true ↔ fOrder a ≤ fOrder b) ∧
      (feq a b = true ↔ fOrder a = fOrder b) ∧
      fmin a b = (if fOrder a < fOrder b then a else b) ∧ fmax a b = if fOrder b < fOrder a then a else b)
end

