-- ==== Sys2Proof/Laws/State.lean ====
section
/-! SUPPORT. One lemma per field per named update of State (Ops.lean, Flags.lean, Port.lean), true by rfl, so that no
proof unfolds a record update. -/

namespace Sys2Proof.Machine

/-! ### goStage -/

@[simp] theorem goStage_lpc (s : State) (i : Instr) : (s.goStage i).lpc = s.lpc := rfl
@[simp] theorem goStage_poles (s : State) (i : Instr) : (s.goStage i).poles = s.poles := rfl
@[simp] theorem goStage_recon (s : State) (i : Instr) : (s.goStage i).recon = s.recon := rfl
@[simp] theorem goStage_filt (s : State) (i : Instr) : (s.goStage i).filt = s.filt := rfl
@[simp] theorem goStage_par (s : State) (i : Instr) : (s.goStage i).par = s.par := rfl
@[simp] theorem goStage_snap (s : State) (i : Instr) : (s.goStage i).snap = s.snap := rfl
@[simp] theorem goStage_irqEn (s : State) (i : Instr) : (s.goStage i).irqEn = s.irqEn := rfl
@[simp] theorem goStage_sticky (s : State) (i : Instr) : (s.goStage i).sticky = s.sticky := rfl
@[simp] theorem goStage_fr (s : State) (i : Instr) : (s.goStage i).fr = s.fr := rfl
@[simp] theorem goStage_cnt (s : State) (i : Instr) : (s.goStage i).cnt = s.cnt := rfl
@[simp] theorem goStage_mem (s : State) (i : Instr) : (s.goStage i).mem = s.mem := rfl
@[simp] theorem goStage_env (s : State) (i : Instr) : (s.goStage i).env = s.env := rfl
@[simp] theorem goStage_disp_seq (s : State) (i : Instr) : (s.goStage i).disp.seq = stageCode i := rfl
@[simp] theorem goStage_disp_cur (s : State) (i : Instr) : (s.goStage i).disp.cur = s.disp.cur := rfl
@[simp] theorem goStage_disp_st0 (s : State) (i : Instr) : (s.goStage i).disp.st0 = s.disp.st0 := rfl
@[simp] theorem goStage_disp_st1 (s : State) (i : Instr) : (s.goStage i).disp.st1 = s.disp.st1 := rfl
@[simp] theorem goStage_disp_rdyq (s : State) (i : Instr) : (s.goStage i).disp.rdyq = s.disp.rdyq := rfl
@[simp] theorem goStage_disp_outq (s : State) (i : Instr) : (s.goStage i).disp.outq = s.disp.outq := rfl

/-! ### setFrame -/

@[simp] theorem setFrame_lpc (s : State) (ys : List Int) : (s.setFrame ys).lpc = s.lpc := rfl
@[simp] theorem setFrame_poles (s : State) (ys : List Int) : (s.setFrame ys).poles = s.poles := rfl
@[simp] theorem setFrame_recon (s : State) (ys : List Int) : (s.setFrame ys).recon = s.recon := rfl
@[simp] theorem setFrame_filt (s : State) (ys : List Int) : (s.setFrame ys).filt = s.filt := rfl
@[simp] theorem setFrame_par (s : State) (ys : List Int) : (s.setFrame ys).par = s.par := rfl
@[simp] theorem setFrame_snap (s : State) (ys : List Int) : (s.setFrame ys).snap = s.snap := rfl
@[simp] theorem setFrame_irqEn (s : State) (ys : List Int) : (s.setFrame ys).irqEn = s.irqEn := rfl
@[simp] theorem setFrame_sticky (s : State) (ys : List Int) : (s.setFrame ys).sticky = s.sticky := rfl
@[simp] theorem setFrame_fr (s : State) (ys : List Int) : (s.setFrame ys).fr = s.fr := rfl
@[simp] theorem setFrame_cnt (s : State) (ys : List Int) : (s.setFrame ys).cnt = s.cnt := rfl
@[simp] theorem setFrame_disp (s : State) (ys : List Int) : (s.setFrame ys).disp = s.disp := rfl
@[simp] theorem setFrame_env (s : State) (ys : List Int) : (s.setFrame ys).env = s.env := rfl
@[simp] theorem setFrame_mem (s : State) (ys : List Int) : (s.setFrame ys).mem = writeSamples s.mem (.slot s.disp.cur) ys := rfl

/-! ### signalUnderrun -/

@[simp] theorem signalUnderrun_lpc (s : State) : (s.signalUnderrun).lpc = s.lpc := rfl
@[simp] theorem signalUnderrun_poles (s : State) : (s.signalUnderrun).poles = s.poles := rfl
@[simp] theorem signalUnderrun_recon (s : State) : (s.signalUnderrun).recon = s.recon := rfl
@[simp] theorem signalUnderrun_filt (s : State) : (s.signalUnderrun).filt = s.filt := rfl
@[simp] theorem signalUnderrun_par (s : State) : (s.signalUnderrun).par = s.par := rfl
@[simp] theorem signalUnderrun_snap (s : State) : (s.signalUnderrun).snap = s.snap := rfl
@[simp] theorem signalUnderrun_irqEn (s : State) : (s.signalUnderrun).irqEn = s.irqEn := rfl
@[simp] theorem signalUnderrun_fr (s : State) : (s.signalUnderrun).fr = s.fr := rfl
@[simp] theorem signalUnderrun_cnt (s : State) : (s.signalUnderrun).cnt = s.cnt := rfl
@[simp] theorem signalUnderrun_disp (s : State) : (s.signalUnderrun).disp = s.disp := rfl
@[simp] theorem signalUnderrun_mem (s : State) : (s.signalUnderrun).mem = s.mem := rfl
@[simp] theorem signalUnderrun_env (s : State) : (s.signalUnderrun).env = s.env := rfl
@[simp] theorem signalUnderrun_sticky_underrun (s : State) : (s.signalUnderrun).sticky.underrun = true := rfl
@[simp] theorem signalUnderrun_sticky_xerr (s : State) : (s.signalUnderrun).sticky.xerr = s.sticky.xerr := rfl
@[simp] theorem signalUnderrun_sticky_cmderr (s : State) : (s.signalUnderrun).sticky.cmderr = s.sticky.cmderr := rfl

/-! ### signalXerr -/

@[simp] theorem signalXerr_lpc (s : State) : (s.signalXerr).lpc = s.lpc := rfl
@[simp] theorem signalXerr_poles (s : State) : (s.signalXerr).poles = s.poles := rfl
@[simp] theorem signalXerr_recon (s : State) : (s.signalXerr).recon = s.recon := rfl
@[simp] theorem signalXerr_filt (s : State) : (s.signalXerr).filt = s.filt := rfl
@[simp] theorem signalXerr_par (s : State) : (s.signalXerr).par = s.par := rfl
@[simp] theorem signalXerr_snap (s : State) : (s.signalXerr).snap = s.snap := rfl
@[simp] theorem signalXerr_irqEn (s : State) : (s.signalXerr).irqEn = s.irqEn := rfl
@[simp] theorem signalXerr_fr (s : State) : (s.signalXerr).fr = s.fr := rfl
@[simp] theorem signalXerr_cnt (s : State) : (s.signalXerr).cnt = s.cnt := rfl
@[simp] theorem signalXerr_disp (s : State) : (s.signalXerr).disp = s.disp := rfl
@[simp] theorem signalXerr_mem (s : State) : (s.signalXerr).mem = s.mem := rfl
@[simp] theorem signalXerr_env (s : State) : (s.signalXerr).env = s.env := rfl
@[simp] theorem signalXerr_sticky_underrun (s : State) : (s.signalXerr).sticky.underrun = s.sticky.underrun := rfl
@[simp] theorem signalXerr_sticky_xerr (s : State) : (s.signalXerr).sticky.xerr = true := rfl
@[simp] theorem signalXerr_sticky_cmderr (s : State) : (s.signalXerr).sticky.cmderr = s.sticky.cmderr := rfl

/-! ### signalCmderr -/

@[simp] theorem signalCmderr_lpc (s : State) : (s.signalCmderr).lpc = s.lpc := rfl
@[simp] theorem signalCmderr_poles (s : State) : (s.signalCmderr).poles = s.poles := rfl
@[simp] theorem signalCmderr_recon (s : State) : (s.signalCmderr).recon = s.recon := rfl
@[simp] theorem signalCmderr_filt (s : State) : (s.signalCmderr).filt = s.filt := rfl
@[simp] theorem signalCmderr_par (s : State) : (s.signalCmderr).par = s.par := rfl
@[simp] theorem signalCmderr_snap (s : State) : (s.signalCmderr).snap = s.snap := rfl
@[simp] theorem signalCmderr_irqEn (s : State) : (s.signalCmderr).irqEn = s.irqEn := rfl
@[simp] theorem signalCmderr_fr (s : State) : (s.signalCmderr).fr = s.fr := rfl
@[simp] theorem signalCmderr_cnt (s : State) : (s.signalCmderr).cnt = s.cnt := rfl
@[simp] theorem signalCmderr_disp (s : State) : (s.signalCmderr).disp = s.disp := rfl
@[simp] theorem signalCmderr_mem (s : State) : (s.signalCmderr).mem = s.mem := rfl
@[simp] theorem signalCmderr_env (s : State) : (s.signalCmderr).env = s.env := rfl
@[simp] theorem signalCmderr_sticky_underrun (s : State) : (s.signalCmderr).sticky.underrun = s.sticky.underrun := rfl
@[simp] theorem signalCmderr_sticky_xerr (s : State) : (s.signalCmderr).sticky.xerr = s.sticky.xerr := rfl
@[simp] theorem signalCmderr_sticky_cmderr (s : State) : (s.signalCmderr).sticky.cmderr = true := rfl

/-! ### clearStatus -/

@[simp] theorem clearStatus_lpc (s : State) (w : Word) : (s.clearStatus w).lpc = s.lpc := rfl
@[simp] theorem clearStatus_poles (s : State) (w : Word) : (s.clearStatus w).poles = s.poles := rfl
@[simp] theorem clearStatus_recon (s : State) (w : Word) : (s.clearStatus w).recon = s.recon := rfl
@[simp] theorem clearStatus_filt (s : State) (w : Word) : (s.clearStatus w).filt = s.filt := rfl
@[simp] theorem clearStatus_par (s : State) (w : Word) : (s.clearStatus w).par = s.par := rfl
@[simp] theorem clearStatus_snap (s : State) (w : Word) : (s.clearStatus w).snap = s.snap := rfl
@[simp] theorem clearStatus_irqEn (s : State) (w : Word) : (s.clearStatus w).irqEn = s.irqEn := rfl
@[simp] theorem clearStatus_fr (s : State) (w : Word) : (s.clearStatus w).fr = s.fr := rfl
@[simp] theorem clearStatus_cnt (s : State) (w : Word) : (s.clearStatus w).cnt = s.cnt := rfl
@[simp] theorem clearStatus_disp (s : State) (w : Word) : (s.clearStatus w).disp = s.disp := rfl
@[simp] theorem clearStatus_mem (s : State) (w : Word) : (s.clearStatus w).mem = s.mem := rfl
@[simp] theorem clearStatus_env (s : State) (w : Word) : (s.clearStatus w).env = s.env := rfl
@[simp] theorem clearStatus_sticky_underrun (s : State) (w : Word) : (s.clearStatus w).sticky.underrun = (s.sticky.underrun && !w.getLsbD 8) := rfl
@[simp] theorem clearStatus_sticky_xerr (s : State) (w : Word) : (s.clearStatus w).sticky.xerr = (s.sticky.xerr && !w.getLsbD 9) := rfl
@[simp] theorem clearStatus_sticky_cmderr (s : State) (w : Word) : (s.clearStatus w).sticky.cmderr = (s.sticky.cmderr && !w.getLsbD 10) := rfl

/-! ### answer -/

@[simp] theorem answer_lpc (s : State) (w : Word) : (s.answer w).lpc = s.lpc := rfl
@[simp] theorem answer_poles (s : State) (w : Word) : (s.answer w).poles = s.poles := rfl
@[simp] theorem answer_recon (s : State) (w : Word) : (s.answer w).recon = s.recon := rfl
@[simp] theorem answer_filt (s : State) (w : Word) : (s.answer w).filt = s.filt := rfl
@[simp] theorem answer_par (s : State) (w : Word) : (s.answer w).par = s.par := rfl
@[simp] theorem answer_snap (s : State) (w : Word) : (s.answer w).snap = s.snap := rfl
@[simp] theorem answer_irqEn (s : State) (w : Word) : (s.answer w).irqEn = s.irqEn := rfl
@[simp] theorem answer_sticky (s : State) (w : Word) : (s.answer w).sticky = s.sticky := rfl
@[simp] theorem answer_fr (s : State) (w : Word) : (s.answer w).fr = s.fr := rfl
@[simp] theorem answer_cnt (s : State) (w : Word) : (s.answer w).cnt = s.cnt := rfl
@[simp] theorem answer_disp (s : State) (w : Word) : (s.answer w).disp = s.disp := rfl
@[simp] theorem answer_mem (s : State) (w : Word) : (s.answer w).mem = s.mem := rfl
@[simp] theorem answer_portOut (s : State) (w : Word) : (s.answer w).env.portOut = w := rfl
@[simp] theorem answer_sched (s : State) (w : Word) : (s.answer w).env.sched = s.env.sched := rfl
@[simp] theorem answer_freeCount (s : State) (w : Word) : (s.answer w).env.freeCount = s.env.freeCount := rfl

/-! ### answerFree -/

@[simp] theorem answerFree_lpc (s : State) : (s.answerFree).lpc = s.lpc := rfl
@[simp] theorem answerFree_poles (s : State) : (s.answerFree).poles = s.poles := rfl
@[simp] theorem answerFree_recon (s : State) : (s.answerFree).recon = s.recon := rfl
@[simp] theorem answerFree_filt (s : State) : (s.answerFree).filt = s.filt := rfl
@[simp] theorem answerFree_par (s : State) : (s.answerFree).par = s.par := rfl
@[simp] theorem answerFree_snap (s : State) : (s.answerFree).snap = s.snap := rfl
@[simp] theorem answerFree_irqEn (s : State) : (s.answerFree).irqEn = s.irqEn := rfl
@[simp] theorem answerFree_sticky (s : State) : (s.answerFree).sticky = s.sticky := rfl
@[simp] theorem answerFree_fr (s : State) : (s.answerFree).fr = s.fr := rfl
@[simp] theorem answerFree_cnt (s : State) : (s.answerFree).cnt = s.cnt := rfl
@[simp] theorem answerFree_disp (s : State) : (s.answerFree).disp = s.disp := rfl
@[simp] theorem answerFree_mem (s : State) : (s.answerFree).mem = s.mem := rfl
@[simp] theorem answerFree_portOut (s : State) : (s.answerFree).env.portOut = Config.freeWord s.env.freeCount := rfl
@[simp] theorem answerFree_sched (s : State) : (s.answerFree).env.sched = s.env.sched := rfl
@[simp] theorem answerFree_freeCount (s : State) : (s.answerFree).env.freeCount = s.env.freeCount + 1 := rfl

/-! ### dropEvents -/

@[simp] theorem dropEvents_lpc (s : State) (n : Nat) : (s.dropEvents n).lpc = s.lpc := rfl
@[simp] theorem dropEvents_poles (s : State) (n : Nat) : (s.dropEvents n).poles = s.poles := rfl
@[simp] theorem dropEvents_recon (s : State) (n : Nat) : (s.dropEvents n).recon = s.recon := rfl
@[simp] theorem dropEvents_filt (s : State) (n : Nat) : (s.dropEvents n).filt = s.filt := rfl
@[simp] theorem dropEvents_par (s : State) (n : Nat) : (s.dropEvents n).par = s.par := rfl
@[simp] theorem dropEvents_snap (s : State) (n : Nat) : (s.dropEvents n).snap = s.snap := rfl
@[simp] theorem dropEvents_irqEn (s : State) (n : Nat) : (s.dropEvents n).irqEn = s.irqEn := rfl
@[simp] theorem dropEvents_sticky (s : State) (n : Nat) : (s.dropEvents n).sticky = s.sticky := rfl
@[simp] theorem dropEvents_fr (s : State) (n : Nat) : (s.dropEvents n).fr = s.fr := rfl
@[simp] theorem dropEvents_cnt (s : State) (n : Nat) : (s.dropEvents n).cnt = s.cnt := rfl
@[simp] theorem dropEvents_disp (s : State) (n : Nat) : (s.dropEvents n).disp = s.disp := rfl
@[simp] theorem dropEvents_mem (s : State) (n : Nat) : (s.dropEvents n).mem = s.mem := rfl
@[simp] theorem dropEvents_sched (s : State) (n : Nat) : (s.dropEvents n).env.sched = s.env.sched.drop n := rfl
@[simp] theorem dropEvents_portOut (s : State) (n : Nat) : (s.dropEvents n).env.portOut = s.env.portOut := rfl
@[simp] theorem dropEvents_freeCount (s : State) (n : Nat) : (s.dropEvents n).env.freeCount = s.env.freeCount := rfl

/-! ### pushEvent -/

@[simp] theorem pushEvent_lpc (s : State) (e : Event) : (s.pushEvent e).lpc = s.lpc := rfl
@[simp] theorem pushEvent_poles (s : State) (e : Event) : (s.pushEvent e).poles = s.poles := rfl
@[simp] theorem pushEvent_recon (s : State) (e : Event) : (s.pushEvent e).recon = s.recon := rfl
@[simp] theorem pushEvent_filt (s : State) (e : Event) : (s.pushEvent e).filt = s.filt := rfl
@[simp] theorem pushEvent_par (s : State) (e : Event) : (s.pushEvent e).par = s.par := rfl
@[simp] theorem pushEvent_snap (s : State) (e : Event) : (s.pushEvent e).snap = s.snap := rfl
@[simp] theorem pushEvent_irqEn (s : State) (e : Event) : (s.pushEvent e).irqEn = s.irqEn := rfl
@[simp] theorem pushEvent_sticky (s : State) (e : Event) : (s.pushEvent e).sticky = s.sticky := rfl
@[simp] theorem pushEvent_fr (s : State) (e : Event) : (s.pushEvent e).fr = s.fr := rfl
@[simp] theorem pushEvent_cnt (s : State) (e : Event) : (s.pushEvent e).cnt = s.cnt := rfl
@[simp] theorem pushEvent_disp (s : State) (e : Event) : (s.pushEvent e).disp = s.disp := rfl
@[simp] theorem pushEvent_mem (s : State) (e : Event) : (s.pushEvent e).mem = s.mem := rfl
@[simp] theorem pushEvent_sched (s : State) (e : Event) : (s.pushEvent e).env.sched = e :: s.env.sched := rfl
@[simp] theorem pushEvent_portOut (s : State) (e : Event) : (s.pushEvent e).env.portOut = s.env.portOut := rfl
@[simp] theorem pushEvent_freeCount (s : State) (e : Event) : (s.pushEvent e).env.freeCount = s.env.freeCount := rfl

/-! ### setSlotState -/

@[simp] theorem setSlotState_lpc (s : State) (sl : Slot) (v : SlotState) : (s.setSlotState sl v).lpc = s.lpc := by cases sl <;> rfl
@[simp] theorem setSlotState_poles (s : State) (sl : Slot) (v : SlotState) : (s.setSlotState sl v).poles = s.poles := by cases sl <;> rfl
@[simp] theorem setSlotState_recon (s : State) (sl : Slot) (v : SlotState) : (s.setSlotState sl v).recon = s.recon := by cases sl <;> rfl
@[simp] theorem setSlotState_filt (s : State) (sl : Slot) (v : SlotState) : (s.setSlotState sl v).filt = s.filt := by cases sl <;> rfl
@[simp] theorem setSlotState_par (s : State) (sl : Slot) (v : SlotState) : (s.setSlotState sl v).par = s.par := by cases sl <;> rfl
@[simp] theorem setSlotState_snap (s : State) (sl : Slot) (v : SlotState) : (s.setSlotState sl v).snap = s.snap := by cases sl <;> rfl
@[simp] theorem setSlotState_irqEn (s : State) (sl : Slot) (v : SlotState) : (s.setSlotState sl v).irqEn = s.irqEn := by cases sl <;> rfl
@[simp] theorem setSlotState_sticky (s : State) (sl : Slot) (v : SlotState) : (s.setSlotState sl v).sticky = s.sticky := by cases sl <;> rfl
@[simp] theorem setSlotState_fr (s : State) (sl : Slot) (v : SlotState) : (s.setSlotState sl v).fr = s.fr := by cases sl <;> rfl
@[simp] theorem setSlotState_cnt (s : State) (sl : Slot) (v : SlotState) : (s.setSlotState sl v).cnt = s.cnt := by cases sl <;> rfl
@[simp] theorem setSlotState_mem (s : State) (sl : Slot) (v : SlotState) : (s.setSlotState sl v).mem = s.mem := by cases sl <;> rfl
@[simp] theorem setSlotState_env (s : State) (sl : Slot) (v : SlotState) : (s.setSlotState sl v).env = s.env := by cases sl <;> rfl
@[simp] theorem setSlotState_disp_seq (s : State) (sl : Slot) (v : SlotState) : (s.setSlotState sl v).disp.seq = s.disp.seq := by cases sl <;> rfl
@[simp] theorem setSlotState_disp_cur (s : State) (sl : Slot) (v : SlotState) : (s.setSlotState sl v).disp.cur = s.disp.cur := by cases sl <;> rfl
@[simp] theorem setSlotState_disp_rdyq (s : State) (sl : Slot) (v : SlotState) : (s.setSlotState sl v).disp.rdyq = s.disp.rdyq := by cases sl <;> rfl
@[simp] theorem setSlotState_disp_outq (s : State) (sl : Slot) (v : SlotState) : (s.setSlotState sl v).disp.outq = s.disp.outq := by cases sl <;> rfl

/-! ### setBiquad -/

@[simp] theorem setBiquad_lpc (s : State) (st : BiquadStage) (b : Biquad) : (s.setBiquad st b).lpc = s.lpc := by cases st <;> rfl
@[simp] theorem setBiquad_poles (s : State) (st : BiquadStage) (b : Biquad) : (s.setBiquad st b).poles = s.poles := by cases st <;> rfl
@[simp] theorem setBiquad_recon (s : State) (st : BiquadStage) (b : Biquad) : (s.setBiquad st b).recon = s.recon := by cases st <;> rfl
@[simp] theorem setBiquad_par (s : State) (st : BiquadStage) (b : Biquad) : (s.setBiquad st b).par = s.par := by cases st <;> rfl
@[simp] theorem setBiquad_snap (s : State) (st : BiquadStage) (b : Biquad) : (s.setBiquad st b).snap = s.snap := by cases st <;> rfl
@[simp] theorem setBiquad_irqEn (s : State) (st : BiquadStage) (b : Biquad) : (s.setBiquad st b).irqEn = s.irqEn := by cases st <;> rfl
@[simp] theorem setBiquad_sticky (s : State) (st : BiquadStage) (b : Biquad) : (s.setBiquad st b).sticky = s.sticky := by cases st <;> rfl
@[simp] theorem setBiquad_fr (s : State) (st : BiquadStage) (b : Biquad) : (s.setBiquad st b).fr = s.fr := by cases st <;> rfl
@[simp] theorem setBiquad_cnt (s : State) (st : BiquadStage) (b : Biquad) : (s.setBiquad st b).cnt = s.cnt := by cases st <;> rfl
@[simp] theorem setBiquad_disp (s : State) (st : BiquadStage) (b : Biquad) : (s.setBiquad st b).disp = s.disp := by cases st <;> rfl
@[simp] theorem setBiquad_mem (s : State) (st : BiquadStage) (b : Biquad) : (s.setBiquad st b).mem = s.mem := by cases st <;> rfl
@[simp] theorem setBiquad_env (s : State) (st : BiquadStage) (b : Biquad) : (s.setBiquad st b).env = s.env := by cases st <;> rfl
@[simp] theorem setBiquad_filt_fbValid (s : State) (st : BiquadStage) (b : Biquad) : (s.setBiquad st b).filt.fbValid = s.filt.fbValid := by cases st <;> rfl
@[simp] theorem setBiquad_filt_fbKeyVowel (s : State) (st : BiquadStage) (b : Biquad) : (s.setBiquad st b).filt.fbKeyVowel = s.filt.fbKeyVowel := by cases st <;> rfl
@[simp] theorem setBiquad_filt_fbKeyFreq (s : State) (st : BiquadStage) (b : Biquad) : (s.setBiquad st b).filt.fbKeyFreq = s.filt.fbKeyFreq := by cases st <;> rfl
@[simp] theorem setBiquad_filt_rs (s : State) (st : BiquadStage) (b : Biquad) : (s.setBiquad st b).filt.rs = s.filt.rs := by cases st <;> rfl

/-! ### Slot states and biquads, read after written -/

theorem slotState_setSlotState (s : State) (sl sl' : Slot) (v : SlotState) :
    (s.setSlotState sl v).slotState sl' = if sl' = sl then v else s.slotState sl' := by
  cases sl <;> cases sl' <;> rfl

@[simp] theorem slotState_setSlotState_self (s : State) (sl : Slot) (v : SlotState) :
    (s.setSlotState sl v).slotState sl = v := by cases sl <;> rfl

/-- The slot states depend on `ST[0]` and `ST[1]` alone. -/
theorem slotState_congr (s t : State) (h0 : t.disp.st0 = s.disp.st0) (h1 : t.disp.st1 = s.disp.st1) (sl : Slot) :
    t.slotState sl = s.slotState sl := by cases sl <;> assumption

theorem biquad_setBiquad (s : State) (st st' : BiquadStage) (b : Biquad) :
    (s.setBiquad st b).biquad st' = if st' = st then b else s.biquad st' := by
  cases st <;> cases st' <;> rfl

@[simp] theorem slotState_goStage (s : State) (i : Instr) (sl : Slot) :
    (s.goStage i).slotState sl = s.slotState sl := by cases sl <;> rfl

@[simp] theorem slotState_setFrame (s : State) (ys : List Int) (sl : Slot) :
    (s.setFrame ys).slotState sl = s.slotState sl := by cases sl <;> rfl

@[simp] theorem slotState_setBiquad (s : State) (st : BiquadStage) (b : Biquad) (sl : Slot) :
    (s.setBiquad st b).slotState sl = s.slotState sl := by cases st <;> cases sl <;> rfl

@[simp] theorem biquad_setFrame (s : State) (ys : List Int) (st : BiquadStage) :
    (s.setFrame ys).biquad st = s.biquad st := by cases st <;> rfl

@[simp] theorem biquad_goStage (s : State) (i : Instr) (st : BiquadStage) :
    (s.goStage i).biquad st = s.biquad st := by cases st <;> rfl

end Sys2Proof.Machine
end

