-- ==== Sys2Proof/Laws/Memory.lean ====
section
/-! SUPPORT. The laws of memory: read after write, everything else unchanged, and the canonical form, for one byte,
one element and a whole space. -/

namespace Sys2Proof.Machine

/-! ### One byte -/

theorem readByte_eraseByte (m : Memory) (x y : Nat) :
    readByte (eraseByte m x) y = if y = x then unlistedByte else readByte m y := by
  induction m with
  | nil => simp [eraseByte, readByte]
  | cons c m ih =>
    unfold eraseByte at ih ⊢
    by_cases hc : c.1 = x
    · rw [List.filter_cons_of_neg (by simpa using hc), ih]
      by_cases hy : y = x
      · simp [hy]
      · simp [hy, readByte, hc]
    · rw [List.filter_cons_of_pos (by simpa using hc)]
      simp only [readByte, ih]
      by_cases hy : y = c.1
      · simp [hy, hc]
      · simp [hy]

theorem readByte_insertByte (m : Memory) (x : Nat) (v : BitVec 8) (y : Nat) (h : ∀ c ∈ m, c.1 ≠ x) :
    readByte (insertByte m x v) y = if y = x then v else readByte m y := by
  induction m with
  | nil => simp [insertByte, readByte]
  | cons c m ih =>
    have hc : c.1 ≠ x := h c (by simp)
    have ih' := ih fun d hd => h d (by simp [hd])
    unfold insertByte
    split
    · simp [readByte]
    · simp only [readByte, ih']
      by_cases hy : y = x
      · simp [hy, hc.symm]
      · simp [hy]

theorem not_mem_eraseByte (m : Memory) (x : Nat) : ∀ c ∈ eraseByte m x, c.1 ≠ x := by
  intro c hc
  simpa using (List.mem_filter.mp hc).2

/-- What a stored byte does to every read: the byte at its own address, all others as before. -/
theorem readByte_writeByte (m : Memory) (x : Nat) (v : BitVec 8) (y : Nat) :
    readByte (writeByte m x v) y = if y = x then v else readByte m y := by
  unfold writeByte
  split
  · next h => rw [readByte_eraseByte, h]
  · rw [readByte_insertByte _ _ _ _ (not_mem_eraseByte m x), readByte_eraseByte]
    by_cases hy : y = x <;> simp [hy]

theorem wf_nil : Memory.wf [] := ⟨List.Pairwise.nil, by simp⟩

theorem wf_eraseByte (m : Memory) (x : Nat) (h : Memory.wf m) : Memory.wf (eraseByte m x) :=
  ⟨h.1.filter _, fun c hc => h.2 c (List.mem_filter.mp hc).1⟩

theorem mem_insertByte (m : Memory) (x : Nat) (v : BitVec 8) (c : Host.Cell) :
    c ∈ insertByte m x v ↔ c = (x, v) ∨ c ∈ m := by
  induction m with
  | nil => simp [insertByte]
  | cons d m ih =>
    unfold insertByte
    split
    · simp
    · simp only [List.mem_cons, ih]
      tauto

theorem wf_insertByte (m : Memory) (x : Nat) (v : BitVec 8) (h : Memory.wf m) (hx : ∀ c ∈ m, c.1 ≠ x)
    (hv : v ≠ unlistedByte) : Memory.wf (insertByte m x v) := by
  refine ⟨?_, fun c hc => ?_⟩
  · have hp := h.1
    clear h
    induction m with
    | nil => simp [insertByte]
    | cons d m ih =>
      unfold insertByte
      rw [List.pairwise_cons] at hp
      split
      · next hlt =>
        refine List.pairwise_cons.mpr ⟨fun c hc => ?_, List.pairwise_cons.mpr hp⟩
        rcases List.mem_cons.mp hc with rfl | hc
        · exact hlt
        · exact Nat.lt_trans hlt (hp.1 c hc)
      · next hge =>
        refine List.pairwise_cons.mpr ⟨fun c hc => ?_, ih (fun c hc => hx c (by simp [hc])) hp.2⟩
        rcases (mem_insertByte m x v c).mp hc with rfl | hc
        · exact Nat.lt_of_le_of_ne (Nat.not_lt.mp hge) (hx d (by simp))
        · exact hp.1 c hc
  · rcases (mem_insertByte m x v c).mp hc with rfl | hc
    · exact hv
    · exact h.2 c hc

theorem wf_writeByte (m : Memory) (x : Nat) (v : BitVec 8) (h : Memory.wf m) : Memory.wf (writeByte m x v) := by
  unfold writeByte
  split
  · exact wf_eraseByte m x h
  · next hv => exact wf_insertByte _ _ _ (wf_eraseByte m x h) (not_mem_eraseByte m x) hv

/-! ### One element -/

theorem readByte_write16 (m : Memory) (x : Nat) (v : Sample) (y : Nat) :
    readByte (write16 m x v) y =
      if y = x + 1 then v.extractLsb' 8 8 else if y = x then v.extractLsb' 0 8 else readByte m y := by
  simp only [write16, readByte_writeByte]

/-- A 16-bit element changes no byte but its own two. -/
theorem readByte_write16_outside (m : Memory) (x : Nat) (v : Sample) (y : Nat) (h : y < x ∨ x + 2 ≤ y) :
    readByte (write16 m x v) y = readByte m y := by
  rw [readByte_write16, if_neg (by omega), if_neg (by omega)]

theorem halves16 (v : BitVec 16) : v.extractLsb' 8 8 ++ v.extractLsb' 0 8 = v := by
  apply BitVec.eq_of_getLsbD_eq
  intro i hi
  simp only [BitVec.getLsbD_append, BitVec.getLsbD_extractLsb']
  by_cases h : i < 8
  · simp [h]
  · have h8 : 8 + (i - 8) = i := by omega
    simp [h, h8, show i - 8 < 8 by omega]

theorem halves32 (v : BitVec 32) : v.extractLsb' 16 16 ++ v.extractLsb' 0 16 = v := by
  apply BitVec.eq_of_getLsbD_eq
  intro i hi
  simp only [BitVec.getLsbD_append, BitVec.getLsbD_extractLsb']
  by_cases h : i < 16
  · simp [h]
  · have h8 : 16 + (i - 16) = i := by omega
    simp [h, h8, show i - 16 < 16 by omega]

theorem read16_write16_self (m : Memory) (x : Nat) (v : Sample) : read16 (write16 m x v) x = v := by
  simp only [read16, readByte_write16]
  rw [if_pos trivial, if_neg (by omega), if_pos trivial]
  exact halves16 v

theorem read16_congr (m m' : Memory) (x : Nat) (h0 : readByte m' x = readByte m x)
    (h1 : readByte m' (x + 1) = readByte m (x + 1)) : read16 m' x = read16 m x := by
  simp only [read16, h0, h1]

theorem read16_write16_outside (m : Memory) (x y : Nat) (v : Sample) (h : y + 2 ≤ x ∨ x + 2 ≤ y) :
    read16 (write16 m x v) y = read16 m y :=
  read16_congr _ _ _ (readByte_write16_outside _ _ _ _ (by omega)) (readByte_write16_outside _ _ _ _ (by omega))

theorem wf_write16 (m : Memory) (x : Nat) (v : Sample) (h : Memory.wf m) : Memory.wf (write16 m x v) :=
  wf_writeByte _ _ _ (wf_writeByte _ _ _ h)

theorem readByte_write32_outside (m : Memory) (x : Nat) (v : Word) (y : Nat) (h : y < x ∨ x + 4 ≤ y) :
    readByte (write32 m x v) y = readByte m y := by
  unfold write32
  rw [readByte_write16_outside _ _ _ _ (by omega), readByte_write16_outside _ _ _ _ (by omega)]

theorem read32_write32_self (m : Memory) (x : Nat) (v : Word) : read32 (write32 m x v) x = v := by
  unfold read32 write32
  rw [read16_write16_self, read16_write16_outside _ _ _ _ (by omega), read16_write16_self]
  exact halves32 v

theorem read32_congr (m m' : Memory) (x : Nat) (h : ∀ y, x ≤ y → y < x + 4 → readByte m' y = readByte m y) :
    read32 m' x = read32 m x := by
  unfold read32
  rw [read16_congr m m' x (h x (by omega) (by omega)) (h (x + 1) (by omega) (by omega)),
    read16_congr m m' (x + 2) (h _ (by omega) (by omega)) (h _ (by omega) (by omega))]

theorem read32_write32_outside (m : Memory) (x y : Nat) (v : Word) (h : y + 4 ≤ x ∨ x + 4 ≤ y) :
    read32 (write32 m x v) y = read32 m y :=
  read32_congr _ _ _ fun z h1 h2 => readByte_write32_outside _ _ _ _ (by omega)

theorem wf_write32 (m : Memory) (x : Nat) (v : Word) (h : Memory.wf m) : Memory.wf (write32 m x v) :=
  wf_write16 _ _ _ (wf_write16 _ _ _ h)

/-! ### A run of elements, four bytes apart -/

theorem readByte_storeSamples_outside (ys : List Int) : ∀ (m : Memory) (x y : Nat),
    (y < x ∨ x + 4 * ys.length ≤ y ∨ 2 ≤ (y - x) % 4) → readByte (storeSamples m x ys) y = readByte m y := by
  induction ys with
  | nil => intros; rfl
  | cons v ys ih =>
    intro m x y h
    have h' : y < x ∨ x + 4 * (ys.length + 1) ≤ y ∨ 2 ≤ (y - x) % 4 := h
    rw [storeSamples, ih _ _ _ (by omega), readByte_write16_outside _ _ _ _ (by omega)]

theorem read16_storeSamples_below (ys : List Int) (m : Memory) (x y : Nat) (h : y + 2 ≤ x) :
    read16 (storeSamples m x ys) y = read16 m y :=
  read16_congr _ _ _ (readByte_storeSamples_outside _ _ _ _ (by omega))
    (readByte_storeSamples_outside _ _ _ _ (by omega))

theorem read16_storeSamples (ys : List Int) : ∀ (m : Memory) (x k : Nat), k < ys.length →
    read16 (storeSamples m x ys) (x + 4 * k) = BitVec.ofInt 16 (ys.getD k 0) := by
  induction ys with
  | nil => intro m x k h; simp at h
  | cons v ys ih =>
    intro m x k h
    cases k with
    | zero =>
      rw [storeSamples, show x + 4 * 0 = x from rfl, read16_storeSamples_below _ _ _ _ (by omega),
        read16_write16_self]
      rfl
    | succ k =>
      rw [storeSamples, show x + 4 * (k + 1) = x + 4 + 4 * k by omega, ih _ _ _ (by simpa using h)]
      rfl

theorem wf_storeSamples (ys : List Int) : ∀ (m : Memory) (x : Nat), Memory.wf m → Memory.wf (storeSamples m x ys) := by
  induction ys with
  | nil => intro m x h; exact h
  | cons v ys ih => intro m x h; exact ih _ _ (wf_write16 _ _ _ h)

theorem readByte_storeWords_outside (ys : List Int) : ∀ (m : Memory) (x y : Nat),
    (y < x ∨ x + 4 * ys.length ≤ y) → readByte (storeWords m x ys) y = readByte m y := by
  induction ys with
  | nil => intros; rfl
  | cons v ys ih =>
    intro m x y h
    have h' : y < x ∨ x + 4 * (ys.length + 1) ≤ y := h
    rw [storeWords, ih _ _ _ (by omega), readByte_write32_outside _ _ _ _ (by omega)]

theorem read32_storeWords (ys : List Int) : ∀ (m : Memory) (x k : Nat), k < ys.length →
    read32 (storeWords m x ys) (x + 4 * k) = BitVec.ofInt 32 (ys.getD k 0) := by
  induction ys with
  | nil => intro m x k h; simp at h
  | cons v ys ih =>
    intro m x k h
    cases k with
    | zero =>
      have hc : read32 (storeWords (write32 m x (BitVec.ofInt 32 v)) (x + 4) ys) x =
          read32 (write32 m x (BitVec.ofInt 32 v)) x :=
        read32_congr _ _ _ fun z h1 h2 => readByte_storeWords_outside _ _ _ _ (by omega)
      rw [storeWords, show x + 4 * 0 = x from rfl, hc, read32_write32_self]
      rfl
    | succ k =>
      rw [storeWords, show x + 4 * (k + 1) = x + 4 + 4 * k by omega, ih _ _ _ (by simpa using h)]
      rfl

theorem wf_storeWords (ys : List Int) : ∀ (m : Memory) (x : Nat), Memory.wf m → Memory.wf (storeWords m x ys) := by
  induction ys with
  | nil => intro m x h; exact h
  | cons v ys ih => intro m x h; exact ih _ _ (wf_write32 _ _ _ h)

/-! ### Whole spaces -/

@[simp] theorem readSamples_length (m : Memory) (sp : Space) (n : Nat) : (readSamples m sp n).length = n := by
  simp [readSamples]

@[simp] theorem readRes_length (m : Memory) (n : Nat) : (readRes m n).length = n := by simp [readRes]

@[simp] theorem frame_length (s : State) (n : Nat) : (s.frame n).length = n := by simp [State.frame]

theorem readSamples_getD (m : Memory) (sp : Space) (n k : Nat) (h : k < n) :
    (readSamples m sp n).getD k 0 = readSample m sp k := by
  simp [readSamples, List.getD, h]

theorem readRes_getD (m : Memory) (n k : Nat) (h : k < n) :
    (readRes m n).getD k 0 = (read32 m (elemAddr .res k)).toInt := by
  simp [readRes, List.getD, h]

theorem elemAddr_eq (sp : Space) (k : Nat) : elemAddr sp k = elemAddr sp 0 + 4 * k := by
  simp only [elemAddr]; omega

/-- Reading back an element of a space just written. -/
theorem readSample_writeSamples (m : Memory) (sp : Space) (ys : List Int) (k : Nat) (h : k < ys.length) :
    readSample (writeSamples m sp ys) sp k = (BitVec.ofInt 16 (ys.getD k 0)).toInt := by
  rw [readSample, writeSamples, elemAddr_eq sp k, read16_storeSamples _ _ _ _ h]

/-- A byte that is none of the stored elements' is unchanged. -/
theorem readByte_writeSamples_outside (m : Memory) (sp : Space) (ys : List Int) (y : Nat)
    (h : ∀ k < ys.length, y < elemAddr sp k ∨ elemAddr sp k + 2 ≤ y) :
    readByte (writeSamples m sp ys) y = readByte m y := by
  apply readByte_storeSamples_outside
  by_contra hc
  have hk := h ((y - elemAddr sp 0) / 4) (by omega)
  rw [elemAddr_eq] at hk
  omega

theorem readByte_writeRes_outside (m : Memory) (ys : List Int) (y : Nat)
    (h : y < elemAddr .res 0 ∨ elemAddr .res ys.length ≤ y) :
    readByte (writeRes m ys) y = readByte m y := by
  apply readByte_storeWords_outside
  rw [elemAddr_eq .res ys.length] at h
  exact h

theorem read32_writeRes (m : Memory) (ys : List Int) (k : Nat) (h : k < ys.length) :
    read32 (writeRes m ys) (elemAddr .res k) = BitVec.ofInt 32 (ys.getD k 0) := by
  rw [writeRes, elemAddr_eq .res k, read32_storeWords _ _ _ _ h]

theorem wf_writeSamples (m : Memory) (sp : Space) (ys : List Int) (h : Memory.wf m) :
    Memory.wf (writeSamples m sp ys) := wf_storeSamples _ _ _ h

theorem wf_writeRes (m : Memory) (ys : List Int) (h : Memory.wf m) : Memory.wf (writeRes m ys) :=
  wf_storeWords _ _ _ h

/-- The memory of the reset state has the canonical form. -/
theorem wf_reset : Memory.wf State.reset.mem := wf_nil

end Sys2Proof.Machine
end

