-- ==== Sys2Proof/Laws/Ops.lean ====
section
/-! SUPPORT. For each shared operation, one lemma that says once what it does; proofs cite these and do not unfold the
operation. -/

namespace Sys2Proof.Machine

/-! ### The meanings as state changes -/

theorem exec_nop (s : State) : exec .nop s = .next s := rfl
theorem exec_captureDone (sl : Slot) (s : State) : exec (.captureDone sl) s = .next (captureDone sl s) := rfl
theorem exec_outputReq (s : State) : exec .outputReq s = .next (outputReq Config.core s) := rfl
theorem exec_claim (s : State) : exec .claim s = .next (claim Config.core s) := rfl
theorem exec_acorr (s : State) : exec .acorr s = .next (acorr Config.core s) := rfl
theorem exec_levdur (s : State) : exec .levdur s = .next (levdur Config.core s) := rfl
theorem exec_resid (s : State) : exec .resid s = .next (resid Config.core s) := rfl
theorem exec_proots (s : State) : exec .proots s = .next (proots Config.core s) := rfl
theorem exec_pshift (s : State) : exec .pshift s = .next (pshift Config.core s) := rfl
theorem exec_precon (s : State) : exec .precon s = .next (precon Config.core s) := rfl
theorem exec_resyn (s : State) : exec .resyn s = .next (resyn Config.core s) := rfl
theorem exec_fbcoef (s : State) : exec .fbcoef s = .next (fbcoef Config.core s) := rfl
theorem exec_fbank (s : State) : exec .fbank s = .next (fbank Config.core s) := rfl
theorem exec_rhpf (s : State) : exec .rhpf s = .next (rhpf Config.core s) := rfl
theorem exec_rsat (s : State) : exec .rsat s = .next (rsat Config.core s) := rfl
theorem exec_rlim (s : State) : exec .rlim s = .next (rlim Config.core s) := rfl
theorem exec_release (s : State) : exec .release s = .next (release s) := rfl

/-! ### The default configuration -/

@[simp] theorem core_n : Config.core.n = 256 := rfl
@[simp] theorem core_p : Config.core.p = 12 := rfl
@[simp] theorem core_jmax : Config.core.jmax = 6 := rfl
@[simp] theorem core_cf : Config.core.cf = 20 := rfl
@[simp] theorem core_bf : Config.core.bf = 28 := rfl
@[simp] theorem core_num : Config.core.num = Config.numFns := rfl

/-! ### Integer arithmetic -/

theorem sat_bounds (width : Nat) (v : Int) :
    -(2 ^ (width - 1) : Int) ≤ sat width v ∧ sat width v ≤ (2 ^ (width - 1) : Int) - 1 := by
  have h : (0 : Int) < 2 ^ (width - 1) := by positivity
  unfold sat
  split_ifs <;> omega

theorem sat_of_mem (width : Nat) (v : Int) (h0 : -(2 ^ (width - 1) : Int) ≤ v)
    (h1 : v ≤ (2 ^ (width - 1) : Int) - 1) : sat width v = v := by
  unfold sat
  split_ifs <;> omega

theorem sat16_bounds (v : Int) : -32768 ≤ sat 16 v ∧ sat 16 v ≤ 32767 := by
  simpa using sat_bounds 16 v

/-- A saturated sample comes back from the element that stores it. -/
theorem toInt_ofInt16 (v : Int) (h0 : -32768 ≤ v) (h1 : v ≤ 32767) : (BitVec.ofInt 16 v).toInt = v := by
  rw [BitVec.toInt_ofInt]
  exact Int.bmod_eq_of_le (by norm_num; omega) (by norm_num; omega)

theorem toInt_ofInt32 (v : Int) (h0 : -2147483648 ≤ v) (h1 : v ≤ 2147483647) : (BitVec.ofInt 32 v).toInt = v := by
  rw [BitVec.toInt_ofInt]
  exact Int.bmod_eq_of_le (by norm_num; omega) (by norm_num; omega)

theorem toInt_ofInt64 (v : Int) (h0 : -9223372036854775808 ≤ v) (h1 : v ≤ 9223372036854775807) :
    (BitVec.ofInt 64 v).toInt = v := by
  rw [BitVec.toInt_ofInt]
  exact Int.bmod_eq_of_le (by norm_num; omega) (by norm_num; omega)

theorem toInt16_bounds (x : BitVec 16) : -32768 ≤ x.toInt ∧ x.toInt ≤ 32767 := by
  have h0 := x.le_toInt
  have h1 := x.toInt_lt
  norm_num at h0 h1
  omega

theorem toInt32_bounds (x : BitVec 32) : -2147483648 ≤ x.toInt ∧ x.toInt ≤ 2147483647 := by
  have h0 := x.le_toInt
  have h1 := x.toInt_lt
  norm_num at h0 h1
  omega

theorem f2fix_bounds (v : F32) (f width : Nat) :
    -(2 ^ (width - 1) : Int) ≤ f2fix v f width ∧ f2fix v f width ≤ (2 ^ (width - 1) : Int) - 1 := by
  have h : (0 : Int) < 2 ^ (width - 1) := by positivity
  unfold f2fix
  split_ifs
  · omega
  · omega
  · omega
  · exact sat_bounds _ _

/-- A coefficient register holds what the conversion gave. -/
theorem toInt_f2fix32 (v : F32) (f : Nat) : (BitVec.ofInt 32 (f2fix v f 32)).toInt = f2fix v f 32 := by
  have h := f2fix_bounds v f 32
  norm_num at h
  exact toInt_ofInt32 _ h.1 (by omega)

@[simp] theorem length_padTo {α : Type} (len : Nat) (d : α) (l : List α) : (padTo len d l).length = len := by
  simp [padTo]

/-- Element `k` of an array written whole. -/
theorem getD_padTo {α : Type} (len : Nat) (d : α) (l : List α) (k : Nat) :
    (padTo len d l).getD k d = if k < len then l.getD k d else d := by
  by_cases h : k < len <;> simp [padTo, List.getD, h]

theorem dot_nil (ys : List Int) : dot [] ys = 0 := by simp [dot]

theorem dot_cons (x y : Int) (xs ys : List Int) : dot (x :: xs) (y :: ys) = x * y + dot xs ys := by simp [dot]

/-- The sum of products as a sum over indices; beyond the shorter list the terms are 0. -/
theorem dot_eq_sum (n : Nat) : ∀ (xs ys : List Int), xs.length ≤ n ∨ ys.length ≤ n →
    dot xs ys = ∑ i ∈ Finset.range n, xs.getD i 0 * ys.getD i 0 := by
  induction n with
  | zero =>
    intro xs ys h
    rcases h with h | h <;> simp [List.length_eq_zero_iff.mp (Nat.le_zero.mp h), dot]
  | succ n ih =>
    intro xs ys h
    rw [Finset.sum_range_succ']
    cases xs with
    | nil => simp [dot]
    | cons x xs =>
      cases ys with
      | nil => simp [dot]
      | cons y ys =>
        rw [dot_cons, ih xs ys (by simpa using h)]
        simp [List.getD]
        ring

/-! ### The frame in `SLOT[CUR]` -/

@[simp] theorem length_frame (s : State) (n : Nat) : (s.frame n).length = n := by simp [State.frame, readSamples]

theorem getD_frame (s : State) (n k : Nat) (h : k < n) : (s.frame n).getD k 0 = s.cur k := by
  rw [State.frame, readSamples_getD _ _ _ _ h]
  rfl

theorem frame_eq_map (s : State) (n : Nat) : s.frame n = (List.range n).map s.cur := rfl

theorem cur_bounds (s : State) (n : Nat) : -32768 ≤ s.cur n ∧ s.cur n ≤ 32767 := toInt16_bounds _

/-- What overwriting the frame does: each sample reads back, and no other byte changes. -/
theorem cur_setFrame (s : State) (ys : List Int) (n : Nat) (h : n < ys.length)
    (h0 : -32768 ≤ ys.getD n 0) (h1 : ys.getD n 0 ≤ 32767) : (s.setFrame ys).cur n = ys.getD n 0 := by
  show readSample (writeSamples s.mem (.slot s.disp.cur) ys) (.slot s.disp.cur) n = _
  rw [readSample_writeSamples _ _ _ _ h, toInt_ofInt16 _ h0 h1]

theorem sameMemoryOutside_setFrame (s : State) (ys : List Int) (h : ys.length = 256) :
    sameMemoryOutside (.slot s.disp.cur) s (s.setFrame ys) := by
  intro x hx
  apply readByte_writeSamples_outside
  intro k hk
  by_contra hc
  exact hx ⟨k, by simpa [Config.core, h] using hk, by simp only [elemBytes]; omega⟩

/-- A stage that only overwrites the frame changes memory and `SEQ`. -/
theorem goStage_setFrame (s : State) (ys : List Int) (i : Instr) :
    (s.setFrame ys).goStage i =
      { s with mem := ((s.setFrame ys).goStage i).mem, disp := { s.disp with seq := stageCode i } } := rfl

/-- A biquad run changes memory and the filter store. -/
theorem setBiquad_setFrame (s : State) (ys : List Int) (st : BiquadStage) (b : Biquad) :
    (s.setFrame ys).setBiquad st b =
      { s with mem := (s.setFrame ys).mem, filt := ((s.setFrame ys).setBiquad st b).filt } := by
  cases st <;> rfl

/-- What storing the residual does. -/
theorem resElem_writeRes (s : State) (ys : List Int) (n : Nat) (h : n < ys.length)
    (h0 : -2147483648 ≤ ys.getD n 0) (h1 : ys.getD n 0 ≤ 2147483647) :
    State.resElem { s with mem := writeRes s.mem ys } n = ys.getD n 0 := by
  show (read32 (writeRes s.mem ys) (elemAddr .res n)).toInt = _
  rw [read32_writeRes _ _ _ h, toInt_ofInt32 _ h0 h1]

theorem sameMemoryOutside_writeRes (s : State) (ys : List Int) (h : ys.length = 256) :
    sameMemoryOutside .res s { s with mem := writeRes s.mem ys } := by
  intro x hx
  apply readByte_writeRes_outside
  by_contra hc
  refine hx ⟨(x - elemAddr .res 0) / 4, ?_, ?_⟩
  · rw [h, elemAddr_eq .res 256] at hc
    simp only [Config.core]
    omega
  · rw [elemAddr_eq .res ((x - elemAddr .res 0) / 4)]
    simp only [elemBytes]
    omega

/-- A claim about memory carries over to a state with the same memory. -/
theorem sameMemoryOutside_of_mem {sp : Space} {s t u : State} (h : sameMemoryOutside sp s t) (hm : u.mem = t.mem) :
    sameMemoryOutside sp s u := fun x hx => by rw [hm]; exact h x hx

theorem sameMemoryOutside_refl (sp : Space) (s : State) : sameMemoryOutside sp s s := fun _ _ => rfl

theorem sameMemoryOutside_trans {sp : Space} {s t u : State} (h : sameMemoryOutside sp s t)
    (h' : sameMemoryOutside sp t u) : sameMemoryOutside sp s u := fun x hx => (h' x hx).trans (h x hx)

/-- A sample depends on the memory and on `CUR` only. -/
theorem cur_of_mem {s t : State} (hm : t.mem = s.mem) (hc : t.disp.cur = s.disp.cur) (n : Nat) :
    t.cur n = s.cur n := by simp only [State.cur, State.sample, hm, hc]

theorem resElem_of_mem {s t : State} (hm : t.mem = s.mem) (n : Nat) : t.resElem n = s.resElem n := by
  simp only [State.resElem, hm]

/-- Bytes of `RES` lie in no slot, so overwriting the frame leaves `RES` alone. -/
theorem resElem_setFrame (s : State) (ys : List Int) (h : ys.length = 256) (n : Nat) (hn : n < 256) :
    (s.setFrame ys).resElem n = s.resElem n := by
  simp only [State.resElem]
  rw [read32_congr s.mem (s.setFrame ys).mem]
  intro y h0 h1
  apply readByte_writeSamples_outside
  intro k hk
  rw [elemAddr_eq] at h0 h1
  have h2 := elemAddr_eq (.slot s.disp.cur) k
  cases hcur : s.disp.cur <;> simp only [hcur, elemAddr, spaceBase] at * <;> omega

/-- Bytes of a slot lie outside `RES`, so storing the residual leaves every sample alone. -/
theorem cur_writeRes (s : State) (ys : List Int) (h : ys.length = 256) (n : Nat) :
    State.cur { s with mem := writeRes s.mem ys } n = s.cur n := by
  simp only [State.cur, State.sample, readSample]
  rw [read16_congr s.mem (writeRes s.mem ys)] <;>
  · apply readByte_writeRes_outside
    rw [h, elemAddr_eq .res 256]
    cases s.disp.cur <;> simp only [elemAddr, spaceBase] <;> omega

/-! ### The filter loops -/

@[simp] theorem length_biquadLoop (bf : Nat) (c : BiquadInts) (xs : List Int) :
    ∀ s1 s2, (biquadLoop bf c s1 s2 xs).1.length = xs.length := by
  induction xs with
  | nil => intros; rfl
  | cons x xs ih => intro s1 s2; simp [biquadLoop, ih]

/-- `BiquadRun` sample by sample: `p n`, `q n` are the two state words immediately before sample `n`. -/
theorem biquadLoop_spec (bf : Nat) (c : BiquadInts) (xs : List Int) : ∀ s1 s2 : Int,
    ∃ p q : Nat → Int, p 0 = s1 ∧ q 0 = s2 ∧
      (∀ n < xs.length,
        (biquadLoop bf c s1 s2 xs).1.getD n 0 = sat 16 (rneShr (c.b0 * xs.getD n 0 + p n) bf) ∧
        p (n + 1) = c.b1 * xs.getD n 0 - c.a1 * (biquadLoop bf c s1 s2 xs).1.getD n 0 + q n ∧
        q (n + 1) = c.b2 * xs.getD n 0 - c.a2 * (biquadLoop bf c s1 s2 xs).1.getD n 0) ∧
      (biquadLoop bf c s1 s2 xs).2 = (p xs.length, q xs.length) := by
  induction xs with
  | nil => intro s1 s2; exact ⟨fun _ => s1, fun _ => s2, rfl, rfl, by simp, rfl⟩
  | cons x xs ih =>
    intro s1 s2
    obtain ⟨p, q, hp, hq, hstep, hend⟩ := ih
      (c.b1 * x - c.a1 * sat 16 (rneShr (c.b0 * x + s1) bf) + s2)
      (c.b2 * x - c.a2 * sat 16 (rneShr (c.b0 * x + s1) bf))
    refine ⟨fun n => if n = 0 then s1 else p (n - 1), fun n => if n = 0 then s2 else q (n - 1), rfl, rfl, ?_, ?_⟩
    · intro n hn
      cases n with
      | zero => simp [biquadLoop, hp, hq]
      | succ n =>
        have h := hstep n (by simpa using hn)
        simpa [biquadLoop] using h
    · simpa [biquadLoop] using hend

/-- Every output of a biquad is a sample. -/
theorem biquadLoop_bounds (bf : Nat) (c : BiquadInts) (xs : List Int) : ∀ s1 s2 : Int, ∀ n < xs.length,
    -32768 ≤ (biquadLoop bf c s1 s2 xs).1.getD n 0 ∧ (biquadLoop bf c s1 s2 xs).1.getD n 0 ≤ 32767 := by
  intro s1 s2 n hn
  obtain ⟨p, q, -, -, h, -⟩ := biquadLoop_spec bf c xs s1 s2
  rw [(h n hn).1]
  exact sat16_bounds _

/-- The loop of one `BiquadRun` on the frame as it stands. -/
def biquadResult (s : State) (st : BiquadStage) : List Int × Int × Int :=
  biquadLoop Config.core.bf (biquadInts (s.biquad st).coef) (s.biquad st).s1.toInt (s.biquad st).s2.toInt
    (s.frame Config.core.n)

theorem biquadRun_mem (s : State) (st : BiquadStage) :
    (s.biquadRun Config.core st).mem = (s.setFrame (biquadResult s st).1).mem := by
  simp only [State.biquadRun, setBiquad_mem, biquadResult]

@[simp] theorem biquadRun_disp (s : State) (st : BiquadStage) : (s.biquadRun Config.core st).disp = s.disp := by
  cases st <;> rfl

@[simp] theorem biquadRun_snap (s : State) (st : BiquadStage) : (s.biquadRun Config.core st).snap = s.snap := by
  cases st <;> rfl

theorem biquadRun_biquad_self (s : State) (st : BiquadStage) :
    (s.biquadRun Config.core st).biquad st =
      { coef := (s.biquad st).coef
        s1 := BitVec.ofInt 64 (biquadResult s st).2.1
        s2 := BitVec.ofInt 64 (biquadResult s st).2.2 } := by
  rw [State.biquadRun, biquad_setBiquad, if_pos rfl, biquadResult]

theorem biquadRun_biquad_other (s : State) (st st' : BiquadStage) (h : st' ≠ st) :
    (s.biquadRun Config.core st).biquad st' = s.biquad st' := by
  rw [State.biquadRun, biquad_setBiquad, if_neg h, biquad_setFrame]

/-- What one `BiquadRun` does, sample by sample: `p n`, `q n` are the stage's state words immediately before sample
`n` (40_numerics R137). -/
theorem biquadRun_spec (s : State) (st : BiquadStage) :
    (∃ p q : Nat → Int, p 0 = (s.biquad st).s1.toInt ∧ q 0 = (s.biquad st).s2.toInt ∧
      (∀ n < 256,
        (s.biquadRun Config.core st).cur n =
          sat 16 (rneShr ((s.biquad st).coef.b0.toInt * s.cur n + p n) 28) ∧
        p (n + 1) = (s.biquad st).coef.b1.toInt * s.cur n -
          (s.biquad st).coef.a1.toInt * (s.biquadRun Config.core st).cur n + q n ∧
        q (n + 1) = (s.biquad st).coef.b2.toInt * s.cur n -
          (s.biquad st).coef.a2.toInt * (s.biquadRun Config.core st).cur n) ∧
      (s.biquadRun Config.core st).biquad st =
        { coef := (s.biquad st).coef, s1 := BitVec.ofInt 64 (p 256), s2 := BitVec.ofInt 64 (q 256) }) ∧
    sameMemoryOutside (.slot s.disp.cur) s (s.biquadRun Config.core st) := by
  obtain ⟨p, q, hp, hq, h, he⟩ := biquadLoop_spec Config.core.bf (biquadInts (s.biquad st).coef)
    (s.frame Config.core.n) (s.biquad st).s1.toInt (s.biquad st).s2.toInt
  have hlen : (s.frame Config.core.n).length = 256 := by simp
  have hr : (biquadResult s st).1.length = 256 := by simp [biquadResult]
  have hc : ∀ n < 256, (s.biquadRun Config.core st).cur n = (biquadResult s st).1.getD n 0 := by
    intro n hn
    have hb := biquadLoop_bounds Config.core.bf (biquadInts (s.biquad st).coef) (s.frame Config.core.n)
      (s.biquad st).s1.toInt (s.biquad st).s2.toInt n (by omega)
    rw [cur_of_mem (biquadRun_mem s st) (by simp)]
    exact cur_setFrame s (biquadResult s st).1 n (by omega) hb.1 hb.2
  change ∀ n < _, (biquadResult s st).1.getD n 0 = _ ∧ p (n + 1) = _ - _ * (biquadResult s st).1.getD n 0 + _ ∧
    q (n + 1) = _ - _ * (biquadResult s st).1.getD n 0 at h
  change (biquadResult s st).2 = _ at he
  rw [hlen] at h he
  refine ⟨⟨p, q, hp, hq, fun n hn => ?_, ?_⟩, ?_⟩
  · have h' := h n hn
    rw [getD_frame _ _ _ (by simpa using hn), ← hc n hn, core_bf] at h'
    exact h'
  · rw [biquadRun_biquad_self, he]
  · exact sameMemoryOutside_of_mem (sameMemoryOutside_setFrame s (biquadResult s st).1 hr) (biquadRun_mem s st)

@[simp] theorem length_residLoop (cf : Nat) (aq xs : List Int) :
    ∀ past, (residLoop cf aq past xs).length = xs.length := by
  induction xs with
  | nil => intros; rfl
  | cons x xs ih => intro past; simp [residLoop, ih]

/-- Residual `n` sees sample `n`, the samples before it in this call, latest first, then the past. -/
theorem getD_residLoop (cf : Nat) (aq xs : List Int) : ∀ (past : List Int), ∀ n < xs.length,
    (residLoop cf aq past xs).getD n 0 =
      sat 32 (rhuShr (dot aq ((xs.take (n + 1)).reverse ++ past)) cf) := by
  induction xs with
  | nil => intro past n h; simp at h
  | cons x xs ih =>
    intro past n h
    cases n with
    | zero => simp [residLoop]
    | succ n =>
      have := ih (x :: past) n (by simpa using h)
      simpa [residLoop] using this

@[simp] theorem length_resynLoop (cf : Nat) (as es : List Int) :
    ∀ rs, (resynLoop cf as rs es).1.length = es.length := by
  induction es with
  | nil => intros; rfl
  | cons e es ih => intro rs; simp [resynLoop, ih]

theorem length_resynShift (as rs : List Int) (y : Int) (h : as.length = rs.length) (h0 : 0 < rs.length) :
    (resynShift as rs y).length = rs.length := by
  simp [resynShift]
  omega

/-- One output's effect on state word `k`, and on the last one. -/
theorem getD_resynShift (as rs : List Int) (y : Int) (h : as.length = rs.length) (k : Nat) :
    (resynShift as rs y).getD k 0 =
      if k < rs.length then rs.getD (k + 1) 0 - as.getD k 0 * y else 0 := by
  by_cases hk : k < rs.length
  · have h1 : k < (rs.tail ++ [(0 : Int)]).length := by simp; omega
    have h2 : k < as.length := by omega
    have h3 : (rs.tail ++ [(0 : Int)])[k] = rs.getD (k + 1) 0 := by
      by_cases hl : k < rs.tail.length
      · rw [List.getElem_append_left hl]
        have : k + 1 < rs.length := by simp at hl; omega
        simp [List.getD, this]
      · rw [List.getElem_append_right (by omega)]
        have : rs.length ≤ k + 1 := by simp at hl; omega
        simp [List.getD, this]
    simp only [resynShift, List.getD, List.getElem?_zipWith, List.getElem?_eq_getElem h1,
      List.getElem?_eq_getElem h2, h3, hk, if_true]
    simp
  · simp only [resynShift, List.getD, if_neg hk, List.getElem?_zipWith]
    have : as[k]? = none := by simp; omega
    simp [this]

/-- The synthesis loop sample by sample: `r n k` is state word `k + 1` immediately before sample `n`. -/
theorem resynLoop_spec (cf : Nat) (as es : List Int) : ∀ rs : List Int, as.length = rs.length → 0 < rs.length →
    ∃ r : Nat → Nat → Int, (∀ k, r 0 k = rs.getD k 0) ∧
      (∀ n < es.length,
        (resynLoop cf as rs es).1.getD n 0 = sat 16 (rhdShr (es.getD n 0 * 2 ^ cf + r n 0) cf) ∧
        ∀ k < rs.length, r (n + 1) k = r n (k + 1) - as.getD k 0 * (resynLoop cf as rs es).1.getD n 0) ∧
      (∀ n, ∀ k, rs.length ≤ k → r n k = 0) ∧
      (resynLoop cf as rs es).2.length = rs.length ∧
      (∀ k, (resynLoop cf as rs es).2.getD k 0 = r es.length k) := by
  induction es with
  | nil =>
    intro rs _ _
    refine ⟨fun _ k => rs.getD k 0, fun _ => rfl, by simp, fun _ k hk => ?_, rfl, fun _ => rfl⟩
    simp [List.getD, hk]
  | cons e es ih =>
    intro rs hl h0
    have hl' := length_resynShift as rs (sat 16 (rhdShr (e * 2 ^ cf + rs.headD 0) cf)) hl h0
    obtain ⟨r, hr0, hstep, hbig, hlen, hend⟩ :=
      ih (resynShift as rs (sat 16 (rhdShr (e * 2 ^ cf + rs.headD 0) cf))) (by omega) (by omega)
    have hhead : rs.headD 0 = rs.getD 0 0 := by cases rs <;> rfl
    refine ⟨fun n k => if n = 0 then rs.getD k 0 else r (n - 1) k, fun _ => rfl, ?_, ?_, ?_, ?_⟩
    · intro n hn
      cases n with
      | zero =>
        refine ⟨by simp only [if_true, ← hhead]; rfl, fun k hk => ?_⟩
        simp only [Nat.zero_add, if_neg Nat.one_ne_zero, Nat.sub_self, hr0, if_true]
        rw [getD_resynShift _ _ _ hl, if_pos hk]
        simp [resynLoop]
      | succ n =>
        have h := hstep n (by simpa using hn)
        rw [hl'] at h
        simpa [resynLoop] using h
    · intro n k hk
      cases n with
      | zero => simp [List.getD, hk]
      | succ n => simpa using hbig n k (by omega)
    · simpa [resynLoop] using hlen.trans hl'
    · intro k
      simpa [resynLoop] using hend k

/-- Every synthesised output is a sample. -/
theorem resynLoop_bounds (cf : Nat) (as es : List Int) : ∀ rs : List Int, ∀ n < es.length,
    -32768 ≤ (resynLoop cf as rs es).1.getD n 0 ∧ (resynLoop cf as rs es).1.getD n 0 ≤ 32767 := by
  induction es with
  | nil => intro rs n h; simp at h
  | cons e es ih =>
    intro rs n h
    cases n with
    | zero => simpa [resynLoop] using sat16_bounds _
    | succ n => simpa [resynLoop] using ih _ n (by simpa using h)

/-! ### `RESID` and `RESYN` as record updates -/

/-- The residual that `RESID` stores. -/
def residResult (s : State) : List Int :=
  residual Config.core.cf (fixedCoefs Config.core s.lpc.aq) (s.frame Config.core.n)

@[simp] theorem length_residResult (s : State) : (residResult s).length = 256 := by simp [residResult, residual]

theorem resid_eq (s : State) :
    resid Config.core s =
      { s with mem := writeRes s.mem (residResult s), disp := { s.disp with seq := 4#4 } } := by
  simp only [resid, residResult]
  generalize residual _ _ _ = r
  rfl

/-- The outputs and the final state words of `RESYN`. -/
def resynResult (s : State) : List Int × List Int :=
  resynLoop Config.core.cf (feedbackCoefs Config.core s.recon.newAQ) (resynState Config.core s.filt.rs)
    (readRes s.mem Config.core.n)

@[simp] theorem length_resynResult (s : State) : (resynResult s).1.length = 256 := by
  rw [resynResult, length_resynLoop]
  simp [readRes]

theorem resyn_eq (s : State) :
    resyn Config.core s =
      { s with
        mem := writeSamples s.mem (.slot s.disp.cur) (resynResult s).1
        filt := { s.filt with rs := (resynResult s).2.map (BitVec.ofInt 64) }
        disp := { s.disp with seq := stageCode (afterResyn s.snap.mode) } } := by
  simp only [resyn, resynResult]
  generalize resynLoop _ _ _ _ = r
  rfl

/-- A coefficient register read as an integer, whatever the array's length. -/
theorem getD_fixedCoefs (aq : List Word) (k : Nat) (h : k ≤ 12) :
    (fixedCoefs Config.core aq).getD k 0 = (aq.getD k 0#32).toInt := by
  rw [fixedCoefs, getD_padTo, core_p, if_pos (by omega)]
  simp only [List.getD, List.getElem?_map]
  cases aq[k]? <;> rfl

theorem getD_resynState (rs : List Wide) (k : Nat) :
    (resynState Config.core rs).getD k 0 = if k < 12 then (rs.getD k 0#64).toInt else 0 := by
  rw [resynState, getD_padTo, core_p]
  congr 1
  simp only [List.getD, List.getElem?_map]
  cases rs[k]? <;> rfl

/-! ### Polynomials -/

@[simp] theorem length_deflateTail (u v : F32) (xs : List F32) :
    ∀ p1 p2, (deflateTail u v p1 p2 xs).length = xs.length := by
  induction xs with
  | nil => intros; rfl
  | cons x xs ih => intro p1 p2; simp [deflateTail, ih]

@[simp] theorem length_deflate (c : List F32) (u v : F32) : (deflate c u v).length = c.length := by
  unfold deflate
  split <;> simp

@[simp] theorem length_mulLinear (u : F32) (w : List F32) : (mulLinear u w).length = w.length + 1 := by
  simp [mulLinear]

@[simp] theorem length_mulQuadratic (u v : F32) (w : List F32) : (mulQuadratic u v w).length = w.length + 2 := by
  simp [mulQuadratic]

theorem length_mulRemainder (rem : List F32) (deg : Nat) (w : List F32) :
    (mulRemainder rem deg w).length = w.length + deg := by
  unfold mulRemainder
  split <;> simp [*]

/-! ### The dispatcher -/

theorem captureDone_cases (sl : Slot) (s : State) :
    (s.slotState sl = .capturing ∧
      captureDone sl s =
        { s.setSlotState sl .readyForProcessing with
          disp := { (s.setSlotState sl .readyForProcessing).disp with rdyq := s.disp.rdyq ++ [sl] }
          cnt := { s.cnt with ready := s.cnt.ready + 1#32 } }) ∨
    (s.slotState sl ≠ .capturing ∧ captureDone sl s = s.signalCmderr) := by
  by_cases h : s.slotState sl = .capturing
  · exact .inl ⟨h, by rw [captureDone, if_pos h]; cases sl <;> rfl⟩
  · exact .inr ⟨h, by rw [captureDone, if_neg h]⟩

theorem claim_cases (s : State) :
    (∃ sl rest, s.disp.seq = 0#4 ∧ s.disp.rdyq = sl :: rest ∧
      claim Config.core s = claimSlot Config.core sl rest s) ∨
    claim Config.core s = s := by
  unfold claim
  split
  · next h =>
    split
    · next sl rest hq => exact .inl ⟨sl, rest, h, hq, rfl⟩
    · exact .inr rfl
  · exact .inr rfl

/-- A flag's word has that one bit. -/
theorem flagBit_getLsbD (b : Bool) (n i : Nat) (hn : n < 32) : (flagBit b n).getLsbD i = (b && decide (i = n)) := by
  cases b
  · simp [flagBit]
  · have h : (1#32 <<< n).getLsbD i = decide (i = n) := by
      rw [← BitVec.twoPow_eq, BitVec.getLsbD_twoPow]
      by_cases h : i = n
      · subst h; simp [hn]
      · simp [h, Ne.symm h]
    simp [flagBit, h]

/-- Once what a read can do: it is refused, or shows a free word, or shows some word. -/
theorem portRead_cases (a : PortAddr) (s : State) :
    portRead Config.core a s = s.signalXerr.answer 0#32 ∨
    portRead Config.core a s = s.answerFree ∨
    ∃ w, portRead Config.core a s = s.answer w := by
  unfold portRead
  split
  · split
    · exact .inr (.inr ⟨_, rfl⟩)
    · exact .inl rfl
  · split
    · split
      · exact .inr (.inl rfl)
      · exact .inr (.inr ⟨_, rfl⟩)
    · exact .inr (.inr ⟨_, rfl⟩)

/-- A read outside the slots, by what is mapped there (20_memory R72 (2) to (4)). -/
theorem portRead_mapped (a : PortAddr) (s : State) (h : slotElem Config.core a.toNat = none) :
    portRead Config.core a s =
      match mappedWord Config.core s a.toNat with
      | some w => if ceOwned a.toNat && s.busy then s.answerFree else s.answer w
      | none => s.answer 0#32 := by
  cases hm : mappedWord Config.core s a.toNat <;> simp only [portRead, h, hm]

/-- No slot element stands at an address exactly when it is outside `0x1000 + n` and `0x1400 + n`, `n < N`. -/
theorem slotElem_none_iff (a : Nat) :
    slotElem Config.core a = none ↔ ∀ sl n, n < 256 → a ≠ spaceBase (.slot sl) + n := by
  have hn : Config.core.n = 256 := rfl
  constructor
  · intro h sl n hlt he
    unfold slotElem at h
    split_ifs at h with h0 h1
    rw [hn] at h0 h1
    cases sl <;> simp only [spaceBase] at he <;> omega
  · intro h
    have h0 := fun n hlt => h .zero n hlt
    have h1 := fun n hlt => h .one n hlt
    simp only [spaceBase] at h0 h1
    rw [slotElem, if_neg, if_neg]
    · rintro ⟨ha, hb, -⟩
      exact h1 (a - 0x1400) (by omega) (by omega)
    · rintro ⟨ha, hb, -⟩
      exact h0 (a - 0x1000) (by omega) (by omega)

/-- What a read shows at a mapped address that CE does not own. -/
theorem readShows_of_mapped (s : State) (n : Nat) (w : Word) (hn : n < 0x2000) (hs : slotElem Config.core n = none)
    (hm : mappedWord Config.core s n = some w) (hc : ceOwned n = false) : s.readShows n w := by
  have e : (BitVec.ofNat 13 n).toNat = n := by simp; omega
  rw [State.readShows, portRead_mapped _ _ (by rw [e]; exact hs), e, hm]
  simp [hc, State.answer]

/-- What a read shows at a mapped address that CE owns. -/
theorem ownedReadShows_of_mapped (s : State) (n : Nat) (w : Word) (hn : n < 0x1000)
    (hm : mappedWord Config.core s n = some w) (hc : ceOwned n = true) : s.ownedReadShows n w := by
  have e : (BitVec.ofNat 13 n).toNat = n := by simp; omega
  have h : slotElem Config.core n = none :=
    (slotElem_none_iff n).2 fun sl k _ => by cases sl <;> simp only [spaceBase] <;> omega
  rw [State.ownedReadShows, State.readShows, portRead_mapped _ _ (by rw [e]; exact h), e, hm]
  exact ⟨fun hs => by simp [hc, State.busy, hs, State.answer], fun hs => by simp [hc, State.busy, hs, State.answerFree]⟩

/-- What a read shows where nothing is mapped, whatever CE does. -/
theorem readShows_of_reserved (s : State) (n : Nat) (hn : n < 0x2000) (hs : slotElem Config.core n = none)
    (hm : mappedWord Config.core s n = none) : s.readShows n 0#32 := by
  have e : (BitVec.ofNat 13 n).toNat = n := by simp; omega
  rw [State.readShows, portRead_mapped _ _ (by rw [e]; exact hs), e, hm]
  rfl

/-- What a write beside `CMD` can change: a register of the host's, one sample of a slot being captured, `XERR`. -/
theorem portStore_cases (a : PortAddr) (w : Word) (s : State) :
    portStore Config.core a w s = s.clearStatus w ∨
    portStore Config.core a w s = { s with irqEn := w &&& irqMask } ∨
    (∃ p, portStore Config.core a w s = { s with par := p }) ∨
    (∃ sl k, s.slotState sl = .capturing ∧
      portStore Config.core a w s =
        { s with mem := write16 s.mem (elemAddr (.slot sl) k) (w.extractLsb' 0 16) }) ∨
    portStore Config.core a w s = s.signalXerr ∨
    portStore Config.core a w s = s := by
  unfold portStore
  split
  · exact .inl rfl
  · exact .inr (.inl rfl)
  · exact .inr (.inr (.inl ⟨_, rfl⟩))
  · exact .inr (.inr (.inl ⟨_, rfl⟩))
  · exact .inr (.inr (.inl ⟨_, rfl⟩))
  · exact .inr (.inr (.inl ⟨_, rfl⟩))
  · split
    · next sl k _ =>
      split
      · next h =>
        refine .inr (.inr (.inr (.inl ⟨sl, k, ?_, rfl⟩)))
        cases hs : s.slotState sl <;> simp [hs, hostMayWrite] at h ⊢
      · exact .inr (.inr (.inr (.inr (.inl rfl))))
    · exact .inr (.inr (.inr (.inr (.inr rfl))))

/-! ### A step -/

theorem decodeStage_isStage (code : BitVec 4) (i : Instr) (h : decodeStage code = .ok i) :
    isStage i = true ∧ stageCode i = code := by
  unfold decodeStage at h
  have hc : ∀ n : Nat, code.toNat = n → code = BitVec.ofNat 4 n := fun n hn => by rw [← hn]; simp
  split at h <;> first
    | (next hn => cases h; rw [hc _ hn]; exact ⟨rfl, rfl⟩)
    | exact absurd h (by simp)

/-- Every instruction's meaning answers a next state. -/
theorem exec_next (i : Instr) (s : State) : ∃ t, exec i s = .next t := by
  cases i <;> exact ⟨_, rfl⟩

/-- `exec` is the core of the default configuration. -/
theorem exec_eq_perform (i : Instr) (s : State) : exec i s = .next (perform Config.core i s) := by
  cases i <;> rfl

/-- `step` is the step of the core of the default configuration. -/
theorem stepIn_core (s : State) : stepIn Config.core s = step s := by
  rw [stepIn, step, show exec = fun i t => .next (perform Config.core i t) from funext₂ exec_eq_perform]

/-- Once what a step can do: CE performs the stage `SEQ` names, or the first event to come is performed. -/
theorem step_cases (s t : State) (h : step s = .next t) :
    (s.env.sched = [] ∧ ∃ i, decodeStage s.disp.seq = .ok i ∧ exec i s = .next t) ∨
    (∃ rest, s.env.sched = .ce :: rest ∧
      ∃ i, decodeStage s.disp.seq = .ok i ∧ exec i (s.dropEvents 1) = .next t) ∨
    (∃ a rest, s.env.sched = .read a :: rest ∧ t = portRead Config.core a (s.dropEvents 1)) ∨
    (∃ a w rest, s.env.sched = .write a w :: rest ∧ a.toNat ≠ 2 ∧ t = portStore Config.core a w (s.dropEvents 1)) ∨
    (∃ a w rest, s.env.sched = .write a w :: rest ∧ a.toNat = 2 ∧
      ((∃ i, decodeCommand w = .ok i ∧ exec i (s.dropEvents 1) = .next t) ∨
       ((∃ r, decodeCommand w = .error r) ∧ t = (s.dropEvents 1).signalCmderr))) ∨
    (∃ rest, s.env.sched = .rst :: rest ∧ t = applyReset Config.core (s.dropEvents 1)) := by
  have hce : ∀ u : State, ceStep exec u = .next t → ∃ i, decodeStage u.disp.seq = .ok i ∧ exec i u = .next t := by
    intro u hu
    unfold ceStep at hu
    split at hu
    · next i hi => exact ⟨i, hi, hu⟩
    · cases hu
  unfold step stepBy at h
  split at h
  · next hs => exact .inl ⟨hs, hce s h⟩
  · next e rest hs =>
    cases e with
    | ce => exact .inr (.inl ⟨rest, hs, hce _ h⟩)
    | read a => cases h; exact .inr (.inr (.inl ⟨a, rest, hs, rfl⟩))
    | rst => cases h; exact .inr (.inr (.inr (.inr (.inr ⟨rest, hs, rfl⟩))))
    | write a w =>
      simp only [runEvent, portWrite] at h
      split at h
      · next ha =>
        refine .inr (.inr (.inr (.inr (.inl ⟨a, w, rest, hs, ha, ?_⟩))))
        unfold commandWrite at h
        split at h
        · next i hi => exact .inl ⟨i, hi, h⟩
        · next r hr => cases h; exact .inr ⟨⟨r, hr⟩, rfl⟩
      · next ha => cases h; exact .inr (.inr (.inr (.inl ⟨a, w, rest, hs, ha, rfl⟩)))

end Sys2Proof.Machine
end

