-- ==== Sys2Proof/Laws/PerInstr.lean ====
section
/-! SUPPORT. Statements for all instructions, one lemma per constructor. -/

/-- The encoding of an instruction is one the spec calls valid: a valid command word (30_encoding R102) or one of the
fourteen stage codes (R104), and its operand names a slot that exists. -/
def Sys2Proof.Laws.ValidEncoding.Statement (i : Sys2Proof.Instr) : Prop :=
  Sys2Proof.Instr.wellFormed Sys2Proof.Config.core i = true ∧
  (∀ w, Sys2Proof.encode i = .command w →
    Sys2Proof.commandValid w = true ∧ Sys2Proof.Machine.isStage i = false) ∧
  (∀ code, Sys2Proof.encode i = .stage code →
    Sys2Proof.stageCodeValid code = true ∧ Sys2Proof.Machine.isStage i = true ∧
    Sys2Proof.Machine.stageCode i = code)

/-- A valid command word gives the statement for its command. -/
theorem Sys2Proof.Laws.ValidEncoding.of_command {i : Sys2Proof.Instr} {w : Sys2Proof.Word}
    (hw : Sys2Proof.Instr.wellFormed Sys2Proof.Config.core i = true) (h : Sys2Proof.encode i = .command w)
    (hv : Sys2Proof.commandValid w = true) : Sys2Proof.Laws.ValidEncoding.Statement i := by
  refine ⟨hw, fun w' h' => ?_, fun code h' => ?_⟩
  · rw [h] at h'
    cases h'
    exact ⟨hv, by simp [Sys2Proof.Machine.isStage, h]⟩
  · rw [h] at h'
    cases h'

/-- A valid stage code gives the statement for its stage. -/
theorem Sys2Proof.Laws.ValidEncoding.of_stage {i : Sys2Proof.Instr} {code : BitVec 4}
    (hw : Sys2Proof.Instr.wellFormed Sys2Proof.Config.core i = true) (h : Sys2Proof.encode i = .stage code)
    (hv : Sys2Proof.stageCodeValid code = true) : Sys2Proof.Laws.ValidEncoding.Statement i := by
  refine ⟨hw, fun w' h' => ?_, fun code' h' => ?_⟩
  · rw [h] at h'
    cases h'
  · rw [h] at h'
    cases h'
    exact ⟨hv, by simp [Sys2Proof.Machine.isStage, h], by simp [Sys2Proof.Machine.stageCode, h]⟩

theorem Sys2Proof.Laws.ValidEncoding.nop : Sys2Proof.Laws.ValidEncoding.Statement .nop :=
  Sys2Proof.Laws.ValidEncoding.of_command rfl rfl (by decide)

theorem Sys2Proof.Laws.ValidEncoding.captureDone (slot : Sys2Proof.Slot) :
    Sys2Proof.Laws.ValidEncoding.Statement (.captureDone slot) := by
  cases slot <;> exact Sys2Proof.Laws.ValidEncoding.of_command (by decide) rfl (by decide)

theorem Sys2Proof.Laws.ValidEncoding.outputReq : Sys2Proof.Laws.ValidEncoding.Statement .outputReq :=
  Sys2Proof.Laws.ValidEncoding.of_command rfl rfl (by decide)

theorem Sys2Proof.Laws.ValidEncoding.claim : Sys2Proof.Laws.ValidEncoding.Statement .claim :=
  Sys2Proof.Laws.ValidEncoding.of_stage rfl rfl (by decide)

theorem Sys2Proof.Laws.ValidEncoding.acorr : Sys2Proof.Laws.ValidEncoding.Statement .acorr :=
  Sys2Proof.Laws.ValidEncoding.of_stage rfl rfl (by decide)

theorem Sys2Proof.Laws.ValidEncoding.levdur : Sys2Proof.Laws.ValidEncoding.Statement .levdur :=
  Sys2Proof.Laws.ValidEncoding.of_stage rfl rfl (by decide)

theorem Sys2Proof.Laws.ValidEncoding.resid : Sys2Proof.Laws.ValidEncoding.Statement .resid :=
  Sys2Proof.Laws.ValidEncoding.of_stage rfl rfl (by decide)

theorem Sys2Proof.Laws.ValidEncoding.proots : Sys2Proof.Laws.ValidEncoding.Statement .proots :=
  Sys2Proof.Laws.ValidEncoding.of_stage rfl rfl (by decide)

theorem Sys2Proof.Laws.ValidEncoding.pshift : Sys2Proof.Laws.ValidEncoding.Statement .pshift :=
  Sys2Proof.Laws.ValidEncoding.of_stage rfl rfl (by decide)

theorem Sys2Proof.Laws.ValidEncoding.precon : Sys2Proof.Laws.ValidEncoding.Statement .precon :=
  Sys2Proof.Laws.ValidEncoding.of_stage rfl rfl (by decide)

theorem Sys2Proof.Laws.ValidEncoding.resyn : Sys2Proof.Laws.ValidEncoding.Statement .resyn :=
  Sys2Proof.Laws.ValidEncoding.of_stage rfl rfl (by decide)

theorem Sys2Proof.Laws.ValidEncoding.fbcoef : Sys2Proof.Laws.ValidEncoding.Statement .fbcoef :=
  Sys2Proof.Laws.ValidEncoding.of_stage rfl rfl (by decide)

theorem Sys2Proof.Laws.ValidEncoding.fbank : Sys2Proof.Laws.ValidEncoding.Statement .fbank :=
  Sys2Proof.Laws.ValidEncoding.of_stage rfl rfl (by decide)

theorem Sys2Proof.Laws.ValidEncoding.rhpf : Sys2Proof.Laws.ValidEncoding.Statement .rhpf :=
  Sys2Proof.Laws.ValidEncoding.of_stage rfl rfl (by decide)

theorem Sys2Proof.Laws.ValidEncoding.rsat : Sys2Proof.Laws.ValidEncoding.Statement .rsat :=
  Sys2Proof.Laws.ValidEncoding.of_stage rfl rfl (by decide)

theorem Sys2Proof.Laws.ValidEncoding.rlim : Sys2Proof.Laws.ValidEncoding.Statement .rlim :=
  Sys2Proof.Laws.ValidEncoding.of_stage rfl rfl (by decide)

theorem Sys2Proof.Laws.ValidEncoding.release : Sys2Proof.Laws.ValidEncoding.Statement .release :=
  Sys2Proof.Laws.ValidEncoding.of_stage rfl rfl (by decide)
end

