-- ==== Sys2Proof/Tests/Slice0.lean ====
section
/-! SUPPORT. Tests: what the well-formedness checks refuse, words written out from spec/30_encoding.md, the worked
examples of the rules, one small step per instruction, and for each statement with hypotheses a state that meets them. -/

namespace Sys2Proof.Tests

open Sys2Proof Sys2Proof.Machine

-- One theorem at a time: many kernel evaluations at once each ask for a thread stack of their own.
set_option Elab.async false

/-! ### Well-formedness refuses ill-formed terms -/

theorem test_wf_reserved_bit : commandReservedZero 0x00010001#32 = false := by decide
theorem test_wf_opcode : commandOpKnown 0x00000003#32 = false := by decide
theorem test_wf_slot_of_output_req : commandSlotAllowed 0x00000102#32 = false := by decide
theorem test_wf_slot_of_nop : commandValid 0x00000100#32 = false := by decide
theorem test_wf_high_bit : commandValid 0x80000000#32 = false := by decide
theorem test_wf_stage_code : stageCodeValid 14#4 = false ∧ stageCodeValid 15#4 = false ∧ stageCodeValid 13#4 = true := by
  decide
theorem test_wf_slot_operand :
    Instr.wellFormed { Config.core with nslot := 1 } (.captureDone .one) = false := by decide
theorem test_wf_order : Config.orderInRange { Config.core with p := 1 } = false := by decide
theorem test_wf_order_high : Config.orderInRange { Config.core with p := 31 } = false := by decide
theorem test_wf_frame : Config.frameInRange { Config.core with n := 12 } = false := by decide
theorem test_wf_frame_high : Config.frameInRange { Config.core with n := 1025 } = false := by decide
theorem test_wf_widths : Config.widthsFixed { Config.core with cf := 19 } = false := by decide
theorem test_wf_formants :
    Config.formantsPositive { Config.core with formants := fun _ => ((730, 80), (0, 90), (2440, 120)) } = false := by
  decide
theorem test_wf_core : Config.core.wellFormed = true := by decide

/-! ### Decoding of words written out from 30_encoding R101, R102, R104 -/

theorem test_decode_nop : decodeTableWord 32 0b00000000000000000000000000000000 = some .nop := by decide
theorem test_decode_captureDone0 :
    decodeTableWord 32 0b00000000000000000000000000000001 = some (.captureDone .zero) := by decide
theorem test_decode_captureDone1 :
    decodeTableWord 32 0b00000000000000000000000100000001 = some (.captureDone .one) := by decide
theorem test_decode_outputReq : decodeTableWord 32 0b00000000000000000000000000000010 = some .outputReq := by decide
theorem test_decode_claim : decodeTableWord 8 0b0000 = some .claim := by decide
theorem test_decode_acorr : decodeTableWord 8 0b0001 = some .acorr := by decide
theorem test_decode_levdur : decodeTableWord 8 0b0010 = some .levdur := by decide
theorem test_decode_resid : decodeTableWord 8 0b0011 = some .resid := by decide
theorem test_decode_proots : decodeTableWord 8 0b0100 = some .proots := by decide
theorem test_decode_pshift : decodeTableWord 8 0b0101 = some .pshift := by decide
theorem test_decode_precon : decodeTableWord 8 0b0110 = some .precon := by decide
theorem test_decode_resyn : decodeTableWord 8 0b0111 = some .resyn := by decide
theorem test_decode_fbcoef : decodeTableWord 8 0b1000 = some .fbcoef := by decide
theorem test_decode_fbank : decodeTableWord 8 0b1001 = some .fbank := by decide
theorem test_decode_rhpf : decodeTableWord 8 0b1010 = some .rhpf := by decide
theorem test_decode_rsat : decodeTableWord 8 0b1011 = some .rsat := by decide
theorem test_decode_rlim : decodeTableWord 8 0b1100 = some .rlim := by decide
theorem test_decode_release : decodeTableWord 8 0b1101 = some .release := by decide
theorem test_decode_unreachable : decodeTableWord 8 0b1110 = none ∧ decodeTableWord 8 0b1111 = none := by decide
theorem test_decode_illegal : decodeCommand 0x00010001#32 = .error .illegalCommand := by decide
/-- 20_memory R74: the least significant byte lies lowest. -/
theorem test_decode_bytes : decodeBytes [0x01#8, 0x01#8, 0x00#8, 0x00#8] = .ok (.captureDone .one) := by decide
theorem test_decode_length : decodeBytes [0x01#8, 0x01#8] = .error .wrongLength := by decide

/-! ### Arithmetic: the examples of 40_numerics -/

/-- R121 -/
theorem test_rneShr : rneShr 3 1 = 2 ∧ rneShr 5 1 = 2 ∧ rneShr (-3) 1 = -2 ∧ rneShr 7 2 = 2 ∧ rneShr 2 2 = 0 := by
  decide
/-- R122 -/
theorem test_sat16 : sat 16 32768 = 32767 ∧ sat 16 (-32769) = -32768 := by decide
/-- R124 -/
theorem test_rhuShr : rhuShr 3 1 = 2 ∧ rhuShr (-1) 1 = 0 ∧ rhuShr (-3) 1 = -1 ∧ rhuShr 5 2 = 1 := by decide
theorem test_rhdShr : rhdShr 3 1 = 1 ∧ rhdShr 1 1 = 0 ∧ rhdShr (-1) 1 = -1 ∧ rhdShr (-3) 1 = -2 := by decide
/-- R134 -/
theorem test_i2f : i2f 16777217 = 0x4B800000#32 ∧ i2f 0 = 0#32 ∧ i2f 256 = 0x43800000#32 := by decide +kernel
/-- R135 -/
theorem test_f2fix :
    f2fix 0x3F800000#32 20 32 = 1048576 ∧ f2fix 0xBF000000#32 20 32 = -524288 ∧
    f2fix 0x453B8000#32 20 32 = 2147483647 ∧ f2fix 0x3F800000#32 15 16 = 32767 ∧
    f2fix 0xBF800000#32 15 16 = -32768 ∧ f2fix 0x7FC00001#32 15 16 = 0 := by decide +kernel
/-- R136 -/
theorem test_q2f : q2f (-32768) = 0xBF800000#32 ∧ q2f 32767 = 0x3F7FFE00#32 := by decide +kernel
/-- R131: division by zero, canonical NaN. -/
theorem test_fdiv_zero :
    fdiv 0x3F800000#32 0x80000000#32 = 0xFF800000#32 ∧ fdiv 0#32 0#32 = 0x7FC00000#32 ∧
    fadd 0x7F800000#32 0xFF800000#32 = 0x7FC00000#32 ∧ fsqrt 0xBF800000#32 = 0x7FC00000#32 := by decide +kernel
/-- 41_lpc_analyzer R165: the gain of the worked example is the root of its error energy. -/
theorem test_fsqrt : fsqrt 0x3A82CA24#32 = 0x3D016325#32 := by decide +kernel

/-! ### One step per instruction: the worked examples of the rules, at `N = 8`, `P = 2` (00_scope R10) -/

/-- The configuration of the worked examples. -/
def small : Config := { Config.core with n := 8, p := 2, energyMin := 8 }

/-- The state after reset of that configuration, with a frame in slot 0 and a stage to run on it. -/
def withFrame (seq : BitVec 4) (xs : List Int) : State :=
  { resetOf small with
    mem := writeSamples [] (.slot .zero) xs
    disp := { seq := seq, cur := .zero, st0 := .processing, st1 := .capturing, rdyq := [], outq := [] } }

/-- The frame of 41_lpc_analyzer R160. -/
def exampleFrame : List Int := [1000, 2000, 3000, 2000, 1000, 0, -1000, -2000]

/-- The state an outcome answers, reset where it answers none. -/
def after (o : Host.Outcome State Fault Refusal) : State :=
  match o with
  | .next t => t
  | .fault _ => State.reset
  | .refused _ => State.reset

/-- Does an outcome answer a next state? -/
def isNext (o : Host.Outcome State Fault Refusal) : Bool :=
  match o with
  | .next _ => true
  | .fault _ => false
  | .refused _ => false

/-- R160 -/
theorem test_acorr :
    (acorr small (withFrame 1#4 exampleFrame)).lpc.acr = [24000000#64, 18000000#64, 9000000#64] := by decide +kernel

/-- R160: a frame of all -32768. -/
theorem test_acorr_extreme :
    (acorr small (withFrame 1#4 (List.replicate 8 (-32768)))).lpc.acr.map BitVec.toInt =
      [8 * 2 ^ 30, 7 * 2 ^ 30, 6 * 2 ^ 30] := by decide +kernel

/-- The state after `ACORR` of the example frame. -/
def afterAcorr : State :=
  { withFrame 2#4 exampleFrame with
    lpc := { (resetOf small).lpc with acr := [24000000#64, 18000000#64, 9000000#64] } }

/-- R163, R165, R167 -/
theorem test_levdur :
    (levdur small afterAcorr).lpc.acf = [0x3B371B00#32, 0x3B095440#32, 0x3A895440#32] ∧
    (levdur small afterAcorr).lpc.a = [0x3F800000#32, 0xBF892492#32, 0x3EDB6DB7#32] ∧
    (levdur small afterAcorr).lpc.k = [0#32, 0xBF400000#32, 0x3EDB6DB7#32] ∧
    (levdur small afterAcorr).lpc.e = 0x3A82CA24#32 ∧ (levdur small afterAcorr).lpc.g = 0x3D016325#32 ∧
    (levdur small afterAcorr).lpc.aq.map BitVec.toInt = [1048576, -1123474, 449390] := by decide +kernel

/-- R164, R166: at the threshold the frame is degenerate. -/
theorem test_levdur_degenerate :
    (levdur small { afterAcorr with lpc := { afterAcorr.lpc with acr := [8#64, 7#64, 6#64] } }).fr.degen = true ∧
    (levdur small { afterAcorr with lpc := { afterAcorr.lpc with acr := [8#64, 7#64, 6#64] } }).lpc.a =
      [0x3F800000#32, 0#32, 0#32] := by decide +kernel

/-- R168 -/
theorem test_resid :
    readRes (resid small { withFrame 3#4 exampleFrame with
      lpc := { (resetOf small).lpc with aq := [1048576#32, BitVec.ofInt 32 (-1123474), 449390#32] } }).mem 8 =
      [1000, 929, 1286, -357, 143, -214, -571, -929] := by decide +kernel

/-- R180: the factors of `(z² + 0.5z + 0.25)(z² - z + 0.5)`. -/
theorem test_proots :
    factorise { Config.core with p := 4 } false
      [0x3F800000#32, 0xBF000000#32, 0x3E800000#32, 0#32, 0x3E000000#32] =
      { found := [{ kind := .complexPair, u := 0x3F000000#32, v := 0x3E800000#32 },
                  { kind := .complexPair, u := 0xBF800000#32, v := 0x3F000000#32 }], left := none } := by
  decide +kernel

/-- R180: a degenerate frame is left whole. -/
theorem test_proots_degenerate :
    (proots small { withFrame 4#4 [] with
      lpc := { (resetOf small).lpc with a := [0x3F800000#32, 0#32, 0#32] }
      fr := { FrFlags.clear with degen := true } }).poles.remDeg = 2#5 := by decide +kernel

/-- The values of `NUM` that the examples assume. -/
def exampleNum : NumFns where
  sin := fun x => if x = 0x3E92C675#32 then 0x3E90C5EC#32 else 0#32
  cos := fun x => if x = 0x40470D23#32 then 0xBF7FDFA9#32 else if x = 0x3E92C675#32 then 0x3F758D85#32 else 0#32
  acos := fun x => if x = 0xBF000000#32 then 0x40060A92#32 else 0#32
  tanh := fun x => if x = 0x3F800000#32 then 0x3F42F7D6#32 else 0#32

/-- The default configuration with those functions. -/
def exampleConfig : Config := { Config.core with num := exampleNum }

/-- R187: the angle is clamped. -/
theorem test_pshift_complex :
    shiftFactor exampleConfig 0x3FC00000#32 0x3F800000#32
      { kind := .complexPair, u := 0x3F000000#32, v := 0x3E800000#32 } =
      { plA := 0x3F000000#32, plB := 0x40060A92#32, psA := 0x3F000000#32, psB := 0x40470D23#32
        shU := 0x3F7FDFA9#32, shV := 0x3E800000#32, rclamp := false, aclamp := true } := by decide +kernel

/-- R188, R189: magnitudes are clamped, signs kept. -/
theorem test_pshift_real :
    shiftFactor exampleConfig 0x3F800000#32 0x40200000#32
      { kind := .twoReal, u := 0xBE800000#32, v := 0xBE000000#32 } =
      { plA := 0x3F000000#32, plB := 0xBE800000#32, psA := 0x3F7FBE77#32, psB := 0xBF200000#32
        shU := 0xBEBF7CEE#32, shV := 0xBF1FD70A#32, rclamp := true, aclamp := false } ∧
    shiftFactor exampleConfig 0x3F800000#32 0x40200000#32
      { kind := .oneReal, u := 0x3F000000#32, v := 0#32 } =
      { plA := 0xBF000000#32, plB := 0#32, psA := 0xBF7FBE77#32, psB := 0#32
        shU := 0x3F7FBE77#32, shV := 0#32, rclamp := true, aclamp := false } := by decide +kernel

/-- Two recorded factors with the shifted coefficients of 42_pole_shifter R191's example. -/
def shiftedPoles : State :=
  { withFrame 6#4 [] with
    poles := { (resetOf small).poles with
      kind := [.complexPair, .complexPair], nqf := 2#5
      shU := [0x3F000001#32, 0xBF7FFFFF#32], shV := [0x3E800000#32, 0x3EFFFFFF#32] } }

/-- R191 -/
theorem test_precon :
    (precon { small with p := 4 } shiftedPoles).recon.newA =
      [0x3F800000#32, 0xBEFFFFFC#32, 0x3E7FFFFE#32, 0x32800000#32, 0x3DFFFFFF#32] ∧
    (precon { small with p := 4 } shiftedPoles).recon.newAQ.map BitVec.toInt =
      [1048576, -524288, 262144, 0, 131072] := by decide +kernel

/-- R191: a coefficient that is not finite sends the analysis coefficients on. -/
theorem test_precon_fallback :
    (precon small { shiftedPoles with
      poles := { shiftedPoles.poles with nqf := 1#5, shU := [0x7F800000#32] } }).fr.nonfin = true := by decide +kernel

/-- 43_resynthesizer R204: resynthesis undoes the residual of `test_resid`. -/
theorem test_resyn :
    (resyn small { withFrame 7#4 [] with
      mem := writeRes [] [1000, 929, 1286, -357, 143, -214, -571, -929]
      recon := { newA := [], newAQ := [1048576#32, BitVec.ofInt 32 (-1123474), 449390#32] } }).frame 8 =
      exampleFrame := by decide +kernel

/-- R200: with no feedback the old state drains. -/
theorem test_resyn_drains :
    (resyn small { withFrame 7#4 [] with
      mem := writeRes [] [5]
      filt := { (resetOf small).filt with rs := [BitVec.ofInt 64 (3 * 2 ^ 20), BitVec.ofInt 64 (2 ^ 20)] } }).frame 3 =
      [8, 1, 0] := by decide +kernel

/-- R213 -/
theorem test_fbcoef :
    bandPass exampleConfig 730 80 0x3F800000#32 =
      { b0 := 0x3C79F9C9#32, b1 := 0#32, b2 := 0xBC79F9C9#32, a1 := 0xBFF1CE6B#32, a2 := 0x3F783031#32
        clamped := false } := by decide +kernel

/-- R213: a centre above `FC_MAX` is clamped. -/
theorem test_fbcoef_clamp : centreFreq Config.core 2440 0x40800000#32 = (0x45F78000#32, true) := by decide +kernel

/-- The first band of 44_filter_bank R214, R218. -/
def firstBand : BiquadCoef where
  b0 := 4095602#32
  b1 := 0#32
  b2 := BitVec.ofInt 32 (-4095602)
  a1 := BitVec.ofInt 32 (-507104608)
  a2 := 260244240#32

/-- R218: the first section of the worked example. -/
theorem test_fbank_section :
    biquadLoop 28 (biquadInts firstBand) 0 0 [16384, 0, 0, 0, 0, 0, 0, 0] =
      ([250, 472, 399, 296, 172, 38, -95, -216], -84811392528, 56212755840) := by decide +kernel

/-- R216: the stage after `FBANK` depends on the mode. -/
theorem test_fbank_next :
    (fbank small (withFrame 9#4 [])).disp.seq = 13#4 ∧
    (fbank small { withFrame 9#4 [] with
      snap := { (resetOf small).snap with mode := .formantFilterRadio } }).disp.seq = 10#4 := by decide +kernel

/-- R232 -/
theorem test_rhpf :
    (rhpf small (withFrame 10#4 exampleFrame)).frame 8 = [920, 1687, 2315, 977, -168, -1135, -1939, -2595] ∧
    (rhpf small (withFrame 10#4 exampleFrame)).filt.hp.s1.toInt = -95807906907 ∧
    (rhpf small (withFrame 10#4 exampleFrame)).filt.hp.s2.toInt = 95728958215 := by decide +kernel

/-- R234 -/
theorem test_rsat : (rsat { small with num := exampleNum } (withFrame 11#4 [16384, 0])).frame 2 = [24956, 0] := by decide +kernel

/-- R237 -/
theorem test_rlim :
    (rlim small (withFrame 12#4 [31156, -31589, 31589, -31589, 28092, -26944, 20027, -15634])).frame 8 =
      [29491, -29491, 29491, -29491, 28092, -26944, 20027, -15634] := by decide +kernel

/-- R270 -/
theorem test_release :
    (release (withFrame 13#4 [])).disp =
      { seq := 0#4, cur := .zero, st0 := .readyForOutput, st1 := .capturing, rdyq := [], outq := [.zero] } := by
  decide +kernel

/-- R251 -/
theorem test_captureDone :
    (captureDone .one State.reset).disp.rdyq = [.one] ∧ (captureDone .one State.reset).cnt.ready = 1#32 := by
  decide +kernel

/-- R252: on a slot that is not being filled. -/
theorem test_captureDone_refused :
    (captureDone .zero (withFrame 0#4 [])).sticky.cmderr = true ∧
    (captureDone .zero (withFrame 0#4 [])).disp = (withFrame 0#4 []).disp := by decide +kernel

/-- R256 -/
theorem test_outputReq :
    readSamples (outputReq small { withFrame 0#4 exampleFrame with
      disp := { (resetOf small).disp with st0 := .readyForOutput, outq := [.zero] } }).mem .outbuf 8 =
      exampleFrame := by decide +kernel

/-- R256: no frame ready. -/
theorem test_outputReq_underrun :
    (outputReq small State.reset).sticky.underrun = true ∧ (outputReq small State.reset).cnt.under = 1#32 := by
  decide +kernel

/-- R258, R259 -/
theorem test_claim :
    (claim Config.core { captureDone .one State.reset with
      par := { freq := 0x41200000#32, amp := 0x3FC00000#32, vowel := 7#32, mode := 2#32 } }).snap =
      { freq := 0x40800000#32, amp := 0x3FC00000#32, vowel := .u, mode := .radio } ∧
    (claim Config.core { captureDone .one State.reset with
      par := { freq := 0x41200000#32, amp := 0x3FC00000#32, vowel := 7#32, mode := 2#32 } }).disp.seq = 10#4 := by
  decide +kernel

/-- R259: every example of the rule. -/
theorem test_clamps :
    clampShift Config.core 0x00000000#32 = (0x3E800000#32, true) ∧
    clampShift Config.core 0xBF800000#32 = (0x3E800000#32, true) ∧
    clampShift Config.core 0x41200000#32 = (0x40800000#32, true) ∧
    clampShift Config.core 0x7FC00001#32 = (0x3F800000#32, true) ∧
    clampShift Config.core 0x3FC00000#32 = (0x3FC00000#32, false) ∧
    clampVowel 0xFFFFFFFF#32 = (.a, true) ∧ clampVowel 7#32 = (.u, true) ∧
    clampMode 5#32 = (.formantFilterRadio, true) ∧ clampMode 0x80000000#32 = (.formantFilterRadio, true) := by
  decide +kernel

/-! ### The port (10_state R31, R50, R51; 20_memory R72, R73) -/

/-- The word the host reads at an address. -/
def word (a : PortAddr) (s : State) : Word := (portRead Config.core a s).env.portOut

theorem test_read_id : word 0x0000#13 State.reset = 0x4441A001#32 := by decide +kernel
theorem test_read_cfg : word 0x0001#13 State.reset = 0x020C0100#32 := by decide +kernel
theorem test_read_high_pass : word 0x0203#13 State.reset = 0xE2A907F2#32 := by decide +kernel
theorem test_read_reserved : word 0x0020#13 State.reset = 0#32 ∧ word 0x1FFF#13 State.reset = 0#32 := by decide +kernel
theorem test_write_sample_reads_back :
    word 0x1005#13 (portStore Config.core 0x1005#13 0x1234FFFE#32 State.reset) = 0xFFFFFFFE#32 := by decide +kernel
theorem test_write_irq_enable :
    word 0x0004#13 (portStore Config.core 0x0004#13 0xFFFFFFFF#32 State.reset) = 0x00000701#32 := by decide +kernel
theorem test_refused_read :
    (portRead Config.core 0x1000#13 (captureDone .zero State.reset)).sticky.xerr = true := by decide +kernel

/-! ### A step fetches and runs each opcode-table word, first after reset -/

/-- `SEQ` after the first step from reset on a stage code. -/
def seqAfter (code : Nat) : Nat := (after (step (State.reset.withFetchWord 8 code))).disp.seq.toNat

theorem test_step_lpc_stages : [1, 2, 3, 4, 5, 6].map seqAfter = [2, 3, 4, 5, 6, 7] := by decide +kernel
theorem test_step_resyn : seqAfter 7 = 13 := by decide +kernel
theorem test_step_filter_bank : [8, 9].map seqAfter = [9, 13] := by decide +kernel
theorem test_step_radio : [10, 11, 12].map seqAfter = [11, 12, 13] := by decide +kernel
theorem test_step_claim_waits : seqAfter 0 = 0 := by decide +kernel
theorem test_step_release : (after (step (State.reset.withFetchWord 8 13))).disp.outq = [.zero] := by decide +kernel
theorem test_step_commands :
    after (step (State.reset.withFetchWord 32 0)) = State.reset ∧
    (after (step (State.reset.withFetchWord 32 0x101))).disp.rdyq = [.one] ∧
    (after (step (State.reset.withFetchWord 32 2))).sticky.underrun = true ∧
    (after (step (State.reset.withFetchWord 32 3))).sticky.cmderr = true := by decide +kernel
/-- 00_scope R10: the core of another configuration, from its reset state on. -/
theorem test_step_configured :
    ((coreIn small).step (withFrame 10#4 exampleFrame) = .next (rhpf small (withFrame 10#4 exampleFrame))) ∧
    (coreIn small).reset = resetOf small := ⟨rfl, rfl⟩

theorem test_step_unreachable_code : isNext (step (State.reset.withFetchWord 8 14)) = false := by decide +kernel

/-! ### States that meet the hypotheses of the statements, clause by clause, at the ends of their ranges -/

/-- A frame of slot 0 in progress at stage `seq`, as two steps after reset would leave it. -/
def busy (seq : BitVec 4) : State :=
  { State.reset with
    disp := { seq := seq, cur := .zero, st0 := .processing, st1 := .capturing, rdyq := [], outq := [] }
    cnt := { State.reset.cnt with ready := 1#32 } }

/-- Slot 0 in a state, the queues as they must then be. -/
def slot0 (x : SlotState) : State :=
  { State.reset with
    disp := { State.reset.disp with
      st0 := x
      rdyq := if x = .readyForProcessing then [.zero] else []
      outq := if x = .readyForOutput then [.zero] else [] } }

/-- `s` with events to come. -/
def coming (es : List Event) (s : State) : State := { s with env := { s.env with sched := es } }

/-- 10_state R26, R40, R50: the reserved addresses of CE's ranges, next to the last implemented ones, read 0 while CE is
busy (assumption log 18); the counters show their value (70_reset R340). -/
theorem test_busy_reserved_reads :
    (∀ a ∈ [0x005A#13, 0x008D#13, 0x0160#13, 0x0209#13, 0x023F#13, 0x0298#13, 0x02BC#13, 0x0309#13, 0x0360#13, 0x0900#13],
      word a (busy 7#4) = 0#32) ∧
    word 0x0010#13 (busy 7#4) = 1#32 := by decide +kernel

theorem witness_DecodeInvertsEncode : Instr.wellFormed Config.core (.captureDone .one) = true := by decide

theorem witness_StepRunsDecodedCommand :
    (coming [.write 0x0002#13 0x101#32] State.reset).env.sched = .write 0x0002#13 0x101#32 :: [] ∧
    decodeCommand 0x101#32 = .ok (.captureDone .one) ∧ decodeCommand 0x80000000#32 = .error .illegalCommand := by
  decide

theorem witness_StepRunsDecodedStage :
    decodeStage (busy 13#4).disp.seq = .ok .release ∧ (busy 13#4).env.sched = [] ∧
    decodeStage (coming [.ce] State.reset).disp.seq = .ok .claim ∧ (coming [.ce] State.reset).env.sched = .ce :: [] := by
  decide

theorem witness_StepRunsPortAccess :
    (coming [.read 0x1FFF#13] State.reset).env.sched = .read 0x1FFF#13 :: [] ∧
    (coming [.write 0x0003#13 0#32] State.reset).env.sched = .write 0x0003#13 0#32 :: [] ∧
    (0x0003#13 : PortAddr) ≠ 0x0002#13 := by decide

theorem witness_ResetEventRestartsCore :
    (coming [.rst, .ce] (busy 7#4)).env.sched = .rst :: [.ce] := by decide

theorem coherent_busy (seq : BitVec 4) (h0 : seq ≠ 0#4) (h1 : seq.toNat ≤ 13) : Coherent (busy seq) where
  processing := fun sl => by cases sl <;> simp [busy, State.slotState, h0]
  ready := fun sl => by cases sl <;> simp [busy, State.slotState]
  output := fun sl => by cases sl <;> simp [busy, State.slotState]
  readyOnce := by simp [busy]
  outputOnce := by simp [busy]
  stage := h1

theorem witness_StepKeepsDispatcherCoherent :
    Coherent (busy 13#4) ∧ step (busy 13#4) = .next (release (busy 13#4)) :=
  ⟨coherent_busy _ (by decide) (by decide), rfl⟩

theorem witness_StepKeepsCountersAgreeing :
    Coherent (busy 13#4) ∧ CountersAgree (busy 13#4) ∧ step (busy 13#4) = .next (release (busy 13#4)) :=
  ⟨coherent_busy _ (by decide) (by decide), ⟨by decide, by decide⟩, rfl⟩

theorem witness_StepKeepsMemoryCanonical :
    Memory.wf (busy 12#4).mem ∧ step (busy 12#4) = .next (rlim Config.core (busy 12#4)) :=
  ⟨by decide, rfl⟩

theorem witness_StepKeepsFilterStateBounded :
    FilterBounds (busy 10#4) ∧ step (busy 10#4) = .next (rhpf Config.core (busy 10#4)) := by
  refine ⟨⟨fun j => ?_, fun st => by cases st <;> decide, fun st => by cases st <;> decide⟩, rfl⟩
  have h : (busy 10#4).filt.rs.getD j 0#64 = 0#64 := by
    show (List.replicate 12 0#64).getD j 0#64 = 0#64
    by_cases hj : j < 12
    · interval_cases j <;> rfl
    · rw [List.getD_eq_default _ _ (by simpa using hj)]
  rw [h]
  simp

theorem shape_reset : Shape State.reset :=
  ⟨rfl, rfl, rfl, rfl, rfl, rfl, rfl, rfl, rfl, rfl, rfl, rfl, rfl, rfl, rfl, rfl, rfl, rfl⟩

/-- Three recorded factors, one of each kind, and the largest shift factors of a snapshot. -/
def recorded : State :=
  { busy 5#4 with
    poles := { State.reset.poles with
      kind := [.complexPair, .twoReal, .oneReal, .empty, .empty, .empty], nqf := 3#5
      u := [0x3F000000#32, 0xBE800000#32, 0x3F000000#32, 0#32, 0#32, 0#32]
      v := [0x3E800000#32, 0xBE000000#32, 0#32, 0#32, 0#32, 0#32] }
    snap := { State.reset.snap with freq := 0x40800000#32, amp := 0x3E800000#32 } }

theorem legal_recorded : RegistersLegal recorded where
  shape := ⟨rfl, rfl, rfl, rfl, rfl, rfl, rfl, rfl, rfl, rfl, rfl, rfl, rfl, rfl, rfl, rfl, rfl, rfl⟩
  irqEn := by decide
  freqLow := by decide
  freqHigh := by decide
  ampLow := by decide
  ampHigh := by decide
  highPass := rfl
  nqf := by decide
  kinds := fun j => by
    show [FactorKind.complexPair, .twoReal, .oneReal, .empty, .empty, .empty].getD j .empty = .empty ↔ 3 ≤ j
    by_cases h : j < 6
    · interval_cases j <;> decide
    · rw [List.getD_eq_default _ _ (by simp; omega)]
      simp
      omega

theorem witness_StepKeepsRegistersLegal :
    RegistersLegal recorded ∧ step recorded = .next (pshift Config.core recorded) :=
  ⟨legal_recorded, rfl⟩

theorem witness_NoStepRaisesException : Coherent (busy 1#4) ∧ Coherent (busy 13#4) :=
  ⟨coherent_busy _ (by decide) (by decide), coherent_busy _ (by decide) (by decide)⟩

theorem witness_SlotsMoveOnlyAlongCycle :
    Coherent (busy 13#4) ∧ (∀ rest, (busy 13#4).env.sched ≠ .rst :: rest) ∧
    step (busy 13#4) = .next (release (busy 13#4)) ∧ (release (busy 13#4)).slotState .zero = .readyForOutput :=
  ⟨coherent_busy _ (by decide) (by decide), fun _ => by simp [busy, State.reset, resetOf], rfl, by decide⟩

theorem witness_CaptureDoneQueuesSlot :
    State.reset.slotState .one = .capturing ∧ (busy 1#4).slotState .zero ≠ .capturing := by decide

theorem witness_OutputReqDeliversOrUnderruns :
    (slot0 .readyForOutput).disp.outq = .zero :: [] ∧ State.reset.disp.outq = [] := by decide

theorem witness_ClaimTakesOldestFrame :
    State.reset.disp.seq = 0#4 ∧ State.reset.disp.rdyq = [] ∧
    (slot0 .readyForProcessing).disp.seq = 0#4 ∧ (slot0 .readyForProcessing).disp.rdyq = .zero :: [] := by decide

/-- The ends of the range, its neighbours outside, and a NaN (46_dispatcher R259). -/
theorem witness_ClampsGiveNearestValidValue :
    clampShift Config.core 0x3E800000#32 = (0x3E800000#32, false) ∧
    clampShift Config.core 0x40800000#32 = (0x40800000#32, false) ∧
    isNaN 0xFFFFFFFF#32 = true ∧ flt 0x3E7FFFFF#32 0x3E800000#32 = true ∧
    flt 0x40800000#32 0x40800001#32 = true := by decide +kernel

theorem witness_StagesFollowNextStageTable :
    isStage .release = true ∧ exec .release (busy 13#4) = .next (release (busy 13#4)) ∧
    isStage .claim = true ∧ (slot0 .readyForProcessing).disp.seq = 0#4 ∧ (slot0 .readyForProcessing).disp.rdyq ≠ [] ∧
    exec .claim (slot0 .readyForProcessing) = .next (claim Config.core (slot0 .readyForProcessing)) ∧
    isStage .outputReq = false ∧ exec .outputReq State.reset = .next (outputReq Config.core State.reset) ∧
    step (coming [.write 0x0002#13 0x80000000#32] (busy 7#4)) = .next (busy 7#4).signalCmderr :=
  ⟨rfl, rfl, rfl, rfl, by decide, rfl, rfl, rfl, rfl⟩

theorem witness_ClaimedFrameRunsToRelease :
    (slot0 .readyForProcessing).env.sched = [] ∧ (slot0 .readyForProcessing).disp.seq = 0#4 ∧
    (slot0 .readyForProcessing).disp.rdyq = .zero :: [] := by decide

theorem witness_ParametersDoNotReachClaimedFrame :
    isStage .rlim = true ∧ Instr.rlim ≠ .claim ∧ exec .rlim (busy 12#4) = .next (rlim Config.core (busy 12#4)) :=
  ⟨rfl, by decide, rfl⟩

theorem witness_LagZeroDominatesLagSums : exec .acorr (busy 1#4) = .next (acorr Config.core (busy 1#4)) := rfl

/-- `ACR[0]` just at and just above the threshold (41_lpc_analyzer R164). -/
def energy (e : Wide) : State :=
  { busy 2#4 with lpc := { State.reset.lpc with acr := e :: List.replicate 12 0#64 } }

theorem witness_LevdurFlattensDegenerateFrame :
    ((energy 256#64).lpc.acr.getD 0 0#64).toInt ≤ 256 ∧
    (levdur Config.core (energy 256#64)).fr.degen = true := by decide +kernel

theorem witness_LevdurFollowsRecursion : (levdur Config.core (energy 257#64)).fr.degen = false := by decide +kernel

theorem witness_DeflateFollowsRecurrence :
    [0x3F800000#32, 0xBF000000#32, 0x3E800000#32, 0#32, (0x3E000000#32 : F32)].length = 4 + 1 ∧ 1 ≤ 4 ∧
    [0x3F800000#32, (0x3F000000#32 : F32)].length = 1 + 1 := by decide

/-- 42_pole_shifter R180's example: the search succeeds. -/
theorem witness_FactorSearchFollowsIteration :
    findFactor Config.core [0x3F800000#32, 0xBF000000#32, 0x3E800000#32, 0#32, 0x3E000000#32] 4
      Config.core.rootGuess =
      some { u := 0x3F000000#32, v := 0x3E800000#32, q := [0x3F800000#32, 0xBF800000#32, 0x3F000000#32] } := by
  decide +kernel

/-- With no finite iteration every guess fails. -/
theorem witness_FactorSearchFollowsIteration_none :
    findFactor Config.core [0x3F800000#32, 0x7F800000#32, 0x7F800000#32, 0x7F800000#32] 3 Config.core.rootGuess = none := by
  decide +kernel

/-- A predictor to factor. -/
def predictorOf (a : List F32) : State := { busy 4#4 with lpc := { State.reset.lpc with a := a } }

/-- The product of `z² + 4^-i` for `i = 0 .. 5`, whose roots are apart: six factors. -/
theorem witness_ProotsExtractsFactors_all :
    (proots Config.core (predictorOf
      [0x3F800000#32, 0#32, 0x3FAAA000#32, 0#32, 0x3EB5D280#32, 0#32, 0x3CB7FCA0#32, 0#32,
       0x39B5D280#32, 0#32, 0x35AAA000#32, 0#32, 0x30800000#32])).poles.nqf = 6#5 := by decide +kernel

/-- Coefficients with no finite iteration: the first search fails. A degenerate frame is not searched. -/
theorem witness_ProotsExtractsFactors_none :
    (proots Config.core (predictorOf (0x3F800000#32 :: List.replicate 12 0x7F800000#32))).poles.nqf ≠ 6#5 ∧
    (predictorOf []).fr.degen = false ∧
    State.fr { predictorOf [] with fr := { FrFlags.clear with degen := true } } =
      { FrFlags.clear with degen := true } := by decide +kernel

theorem witness_PshiftKeepsPolesStable :
    RegistersLegal recorded ∧ recorded.poles.nqf.toNat = 3 ∧ recorded.poles.kind.getD 0 .empty = .complexPair ∧
    recorded.poles.kind.getD 1 .empty = .twoReal ∧ recorded.poles.kind.getD 2 .empty = .oneReal :=
  ⟨legal_recorded, rfl, rfl, rfl, rfl⟩

/-- Both values of the magnitude clamp, which does not depend on `NUM`. -/
theorem witness_PshiftShiftsEachFactor :
    (pshift exampleConfig recorded).fr.rclamp = false ∧
    (pshift exampleConfig
      { recorded with snap := { recorded.snap with amp := 0x40800000#32 } }).fr.rclamp = true := by decide +kernel

theorem witness_PreconMultipliesFactors :
    (precon Config.core recorded).fr.nonfin = false ∧
    (precon Config.core { recorded with
      poles := { recorded.poles with shU := [0x7F800000#32] } }).fr.nonfin = true := by decide +kernel

theorem witness_ResynIsDirectFormFromZeroState : ∀ k < 12, (busy 7#4).filt.rs.getD k 0#64 = 0#64 := by decide

/-- The predictor 1 - z⁻¹/2, handed on from the analyzer as it is, with a frame and no history. -/
def handedOn : State :=
  { withFrame 3#4 exampleFrame with
    lpc := { State.reset.lpc with aq := 0x00100000#32 :: 0xFFF80000#32 :: List.replicate 11 0#32 }
    recon := { State.reset.recon with newAQ := 0x00100000#32 :: 0xFFF80000#32 :: List.replicate 11 0#32 } }

theorem witness_ResynUndoesResidExactly :
    (∀ k < 12, handedOn.filt.rs.getD k 0#64 = 0#64) ∧ (handedOn.lpc.aq.getD 0 0#32).toInt = 2 ^ 20 ∧
    handedOn.recon.newAQ = handedOn.lpc.aq := by decide

theorem witness_FbcoefHitsOrDesignsBank :
    (State.reset.filt.fbValid = false) ∧
    (recomputeBank Config.core (busy 8#4)).filt.fbValid = true ∧
    (recomputeBank Config.core (busy 8#4)).filt.fbKeyVowel = (busy 8#4).snap.vowel ∧
    (recomputeBank Config.core (busy 8#4)).filt.fbKeyFreq = (busy 8#4).snap.freq :=
  ⟨rfl, rfl, rfl, rfl⟩

theorem witness_SlotAccess :
    (0x1000#13 : PortAddr).toNat = spaceBase (.slot .zero) + 0 ∧ (0x14FF#13 : PortAddr).toNat = spaceBase (.slot .one) + 255 ∧
    (slot0 .readyForProcessing).slotState .zero = .readyForProcessing ∧ (busy 1#4).slotState .zero = .processing ∧
    (slot0 .readyForOutput).slotState .zero = .readyForOutput ∧ State.reset.slotState .one = .capturing := by decide

/-- Both cases of an owned read, and addresses at the ends of the map's ranges and next to them. -/
theorem witness_PortReadsShowMapOrUnknownWord :
    State.reset.disp.seq = 0#4 ∧ (busy 1#4).disp.seq ≠ 0#4 ∧
    (∀ a ∈ [0x001A, 0x0059, 0x008C, 0x014C, 0x0238, 0x0297, 0x0358, 0x08FF, 0x18FF], hostMapped a) ∧
    (∀ a ∈ [0x001B, 0x003F, 0x005A, 0x008D, 0x014D, 0x0239, 0x0298, 0x0359, 0x0360, 0x0900, 0x0FFF, 0x1100, 0x1500, 0x17FF,
        0x1900, 0x1FFF],
      ¬ hostMapped a ∧ ∀ sl k, k < 256 → a ≠ spaceBase (.slot sl) + k) := by
  refine ⟨by decide, by decide, by simp [hostMapped], fun a ha => ?_⟩
  simp only [List.mem_cons, List.not_mem_nil, or_false] at ha
  rcases ha with rfl | rfl | rfl | rfl | rfl | rfl | rfl | rfl | rfl | rfl | rfl | rfl | rfl | rfl | rfl | rfl <;>
  exact ⟨by simp [hostMapped], fun sl k hk => by cases sl <;> simp only [spaceBase] <;> omega⟩

/-- The neighbours of every writable range. -/
theorem witness_PortWritesReachOnlyTheirRegister :
    ∀ a ∈ [0x0005#13, 0x0007#13, 0x000C#13, 0x0FFF#13, 0x1100#13, 0x13FF#13, 0x1500#13, (0x1FFF#13 : PortAddr)],
      a.toNat ≠ 2 ∧ a.toNat ≠ 3 ∧ a.toNat ≠ 4 ∧ (a.toNat < 8 ∨ 0xB < a.toNat) ∧
      ∀ sl n, n < 256 → a.toNat ≠ spaceBase (.slot sl) + n := by
  intro a ha
  simp only [List.mem_cons, List.not_mem_nil, or_false] at ha
  rcases ha with rfl | rfl | rfl | rfl | rfl | rfl | rfl | rfl <;>
  exact ⟨by decide, by decide, by decide, by decide, fun sl n hn => by cases sl <;> simp [spaceBase] <;> omega⟩

theorem witness_SlotstDeterminesDispatcher :
    Coherent (busy 1#4) ∧ Coherent (busy 13#4) ∧ (busy 1#4).slotstWord = (busy 13#4).slotstWord :=
  ⟨coherent_busy _ (by decide) (by decide), coherent_busy _ (by decide) (by decide), rfl⟩

theorem witness_StagesWriteOnlyTheirOwn :
    isStage .rlim = true ∧ exec .rlim (busy 12#4) = .next (rlim Config.core (busy 12#4)) := ⟨rfl, rfl⟩

/-- The example frame moves the delay line of the high-pass. -/
theorem witness_OnlyOwnerMovesDelayLines :
    (∀ rest, (busy 10#4).env.sched ≠ .rst :: rest) ∧
    (rhpf small (withFrame 10#4 exampleFrame)).filt.hp.s1 ≠ (withFrame 10#4 exampleFrame).filt.hp.s1 :=
  ⟨fun _ => by simp [busy, State.reset, resetOf], by decide +kernel⟩

theorem witness_IntegersConvertToNearest :
    |(9223372036854775807 : Int)| < 2 ^ 63 ∧ i2f 9223372036854775807 = 0x5F000000#32 ∧
    |(16777216 : Int)| ≤ 2 ^ 24 ∧ i2f 16777216 = 0x4B800000#32 ∧ i2f (-16777216) = 0xCB800000#32 :=
  ⟨by norm_num, by decide +kernel, by norm_num, by decide +kernel, by decide +kernel⟩

/-- Each clause of the saturation at the end of its range, and the classes of the conversion. -/
theorem witness_SaturationAndFixedPointConversion :
    (-32769 : Int) < -2 ^ (16 - 1) ∧ (2 ^ (16 - 1) - 1 : Int) < 32768 ∧
    (-2 ^ (16 - 1) : Int) ≤ -32768 ∧ (32767 : Int) ≤ 2 ^ (16 - 1) - 1 ∧
    isNaN 0x7F800001#32 = true ∧ isFinite 0x7F7FFFFF#32 = true ∧ isFinite 0x80000001#32 = true := by decide

/-- A pattern of every class the clauses tell apart: NaN, both infinities, both zeros, finite of both signs. -/
theorem witness_FloatOperationsFollowIeee :
    isNaN 0xFFFFFFFF#32 = true ∧ isInf 0x7F800000#32 = true ∧ isInf 0xFF800000#32 = true ∧
    isZero 0x00000000#32 = true ∧ isZero 0x80000000#32 = true ∧ fSign 0x80000000#32 = true ∧
    isFinite 0x7F7FFFFF#32 = true ∧ isFinite 0x80000001#32 = true ∧ isZero 0x80000001#32 = false ∧
    fSign 0x00000001#32 = false := by decide +kernel

/-- 40_numerics R131: half a last place on top of 1.0 and of the value after it, and on top of the largest finite value. -/
theorem test_ties_and_overflow :
    fadd 0x3F800000#32 0x33800000#32 = 0x3F800000#32 ∧ fadd 0x3F800001#32 0x33800000#32 = 0x3F800002#32 ∧
    fadd 0x7F7FFFFF#32 0x73000000#32 = 0x7F800000#32 ∧ fadd 0x7F7FFFFF#32 0x72FFFFFF#32 = 0x7F7FFFFF#32 := by
  decide +kernel

end Sys2Proof.Tests
end

namespace Sys2Proof.Machine

/-! ## What one step can do, read off the schedule -/

/-- The first event taken off, as a record. -/
theorem dropEvents_one_of_cons {s : State} {e : Event} {rest : List Event} (h : s.env.sched = e :: rest) :
    s.dropEvents 1 = { s with env := { s.env with sched := rest } } := by
  simp only [State.dropEvents, h, List.drop_succ_cons, List.drop_zero]

/-- CE runs the stage that `SEQ` decodes to. -/
theorem ceStep_of_decode {s : State} {i : Instr} (h : decodeStage s.disp.seq = .ok i) : ceStep exec s = exec i s := by
  simp only [ceStep, h]

/-- With nothing to come, CE moves. -/
theorem step_of_sched_nil {s : State} (h : s.env.sched = []) : step s = ceStep exec s := by
  simp only [step, stepBy, h]

/-- A `CE` event to come is CE's move, the event gone. -/
theorem step_of_sched_ce {s : State} {rest : List Event} (h : s.env.sched = .ce :: rest) :
    step s = ceStep exec (s.dropEvents 1) := by
  simp only [step, stepBy, h, runEvent]

/-- A word written to `CMD` decodes to a command, never to a stage (30_encoding R102). -/
theorem decodeCommand_cases {w : Word} {i : Instr} (h : decodeCommand w = .ok i) :
    i = .nop ∨ (∃ sl, i = .captureDone sl) ∨ i = .outputReq := by
  unfold decodeCommand at h
  split_ifs at h <;> cases h
  · exact .inl rfl
  · exact .inr (.inl ⟨_, rfl⟩)
  · exact .inr (.inl ⟨_, rfl⟩)
  · exact .inr (.inr rfl)

/-- The state an instruction answers. -/
theorem eq_perform_of_exec {i : Instr} {s t : State} (h : exec i s = .next t) : t = perform Config.core i s := by
  rw [exec_eq_perform] at h
  exact (Host.Outcome.next.inj h).symm

/-- Settles O6: the two ways in which CE comes to move. -/
theorem stepRunsDecodedStage : Obligations.StepRunsDecodedStage := by
  intro s i hi
  refine ⟨fun hs => ?_, fun rest hs => ?_⟩
  · rw [step_of_sched_nil hs, ceStep_of_decode hi]
  · rw [step_of_sched_ce hs, ceStep_of_decode (s := s.dropEvents 1) hi, dropEvents_one_of_cons hs]

/-! ## `SLOTST` (10_state R48): its fields, and the queues they describe -/

/-- The parts of a concatenation are determined by it. -/
theorem bitVec_append_inj {m n : Nat} {x x' : BitVec m} {y y' : BitVec n} (h : x ++ y = x' ++ y') :
    x = x' ∧ y = y' := by
  refine ⟨?_, ?_⟩
  · rw [← BitVec.extractLsb'_append_eq_left (a := x) (b := y), h, BitVec.extractLsb'_append_eq_left]
  · rw [← BitVec.extractLsb'_append_eq_right (a := x) (b := y), h, BitVec.extractLsb'_append_eq_right]

theorem slotStateCode_injective : Function.Injective slotStateCode := by
  intro x y h
  cases x <;> cases y <;> simp [slotStateCode] at h ⊢

/-- With two slots, a list without repetition is one of five. -/
theorem slots_of_nodup {q : List Slot} (h : q.Nodup) :
    q = [] ∨ q = [.zero] ∨ q = [.one] ∨ q = [.zero, .one] ∨ q = [.one, .zero] := by
  match q with
  | [] => simp
  | [a] => cases a <;> simp
  | [a, b] => cases a <;> cases b <;> simp at h ⊢
  | a :: b :: c :: q => cases a <;> cases b <;> cases c <;> simp at h

/-- The queue that a head bit and a length of `SLOTST` describe. -/
def queueOfFields (head : BitVec 1) (len : BitVec 2) : List Slot :=
  let first : Slot := if head = 1#1 then .one else .zero
  let second : Slot := if head = 1#1 then .zero else .one
  [first, second].take len.toNat

/-- The two fields of `SLOTST` give back every queue that lists each slot at most once. -/
theorem queueOfFields_of_nodup {q : List Slot} (h : q.Nodup) :
    queueOfFields (headBit q) (BitVec.ofNat 2 q.length) = q := by
  rcases slots_of_nodup h with rfl | rfl | rfl | rfl | rfl <;> rfl

theorem queue_eq_of_fields {q r : List Slot} (hq : q.Nodup) (hr : r.Nodup) (hh : headBit q = headBit r)
    (hl : BitVec.ofNat 2 q.length = BitVec.ofNat 2 r.length) : q = r := by
  rw [← queueOfFields_of_nodup hq, hh, hl, queueOfFields_of_nodup hr]

/-- `SLOTST` determines each of its fields. -/
theorem slotstWord_fields {s t : State} (h : s.slotstWord = t.slotstWord) :
    (s.disp.st0 = t.disp.st0 ∧ s.disp.st1 = t.disp.st1) ∧
    (headBit s.disp.rdyq = headBit t.disp.rdyq ∧
      BitVec.ofNat 2 s.disp.rdyq.length = BitVec.ofNat 2 t.disp.rdyq.length) ∧
    (headBit s.disp.outq = headBit t.disp.outq ∧
      BitVec.ofNat 2 s.disp.outq.length = BitVec.ofNat 2 t.disp.outq.length) := by
  unfold State.slotstWord at h
  obtain ⟨h, hst0⟩ := bitVec_append_inj h
  obtain ⟨h, hst1⟩ := bitVec_append_inj h
  obtain ⟨h, hrdyLen⟩ := bitVec_append_inj h
  obtain ⟨h, hrdyHead⟩ := bitVec_append_inj h
  obtain ⟨h, -⟩ := bitVec_append_inj h
  obtain ⟨h, houtLen⟩ := bitVec_append_inj h
  obtain ⟨-, houtHead⟩ := bitVec_append_inj h
  exact ⟨⟨slotStateCode_injective hst0, slotStateCode_injective hst1⟩, ⟨hrdyHead, hrdyLen⟩, houtHead, houtLen⟩

/-- Settles O53: the fields of `SLOTST` give back both slot states and, as no queue lists a slot twice, both queues. -/
theorem slotstDeterminesDispatcher : Obligations.SlotstDeterminesDispatcher := by
  intro s t hs ht h
  obtain ⟨⟨hst0, hst1⟩, ⟨hrdyHead, hrdyLen⟩, houtHead, houtLen⟩ := slotstWord_fields h
  exact ⟨hst0, hst1, queue_eq_of_fields hs.readyOnce ht.readyOnce hrdyHead hrdyLen,
    queue_eq_of_fields hs.outputOnce ht.outputOnce houtHead houtLen⟩

/-! ## Steps that leave the registers CE computes with alone -/

/-- The registers CE computes with, the filter store apart, and the interrupt mask are the same in both states. -/
structure SameBeyondFilter (s t : State) : Prop where
  lpc : t.lpc = s.lpc
  poles : t.poles = s.poles
  recon : t.recon = s.recon
  snap : t.snap = s.snap
  irqEn : t.irqEn = s.irqEn

/-- The filter store is the same too. -/
structure SameRegisters (s t : State) : Prop extends SameBeyondFilter s t where
  filt : t.filt = s.filt

theorem sameRegisters_dropEvents (s : State) (n : Nat) : SameRegisters s (s.dropEvents n) :=
  ⟨⟨rfl, rfl, rfl, rfl, rfl⟩, rfl⟩

theorem sameRegisters_signalCmderr (s : State) : SameRegisters s s.signalCmderr :=
  ⟨⟨rfl, rfl, rfl, rfl, rfl⟩, rfl⟩

theorem sameRegisters_captureDone (sl : Slot) (s : State) : SameRegisters s (captureDone sl s) := by
  rcases captureDone_cases sl s with ⟨-, h⟩ | ⟨-, h⟩ <;> rw [h] <;> refine ⟨⟨?_, ?_, ?_, ?_, ?_⟩, ?_⟩ <;> simp

theorem sameRegisters_outputReq (s : State) : SameRegisters s (outputReq Config.core s) := by
  unfold outputReq
  split <;> refine ⟨⟨?_, ?_, ?_, ?_, ?_⟩, ?_⟩ <;> simp

theorem sameRegisters_release (s : State) : SameRegisters s (release s) := by
  refine ⟨⟨?_, ?_, ?_, ?_, ?_⟩, ?_⟩ <;> simp [release]

theorem sameRegisters_resid (s : State) : SameRegisters s (resid Config.core s) := by
  rw [resid_eq]
  exact ⟨⟨rfl, rfl, rfl, rfl, rfl⟩, rfl⟩

theorem sameRegisters_rsat (s : State) : SameRegisters s (rsat Config.core s) := by
  refine ⟨⟨?_, ?_, ?_, ?_, ?_⟩, ?_⟩ <;> simp [rsat]

theorem sameRegisters_rlim (s : State) : SameRegisters s (rlim Config.core s) := by
  refine ⟨⟨?_, ?_, ?_, ?_, ?_⟩, ?_⟩ <;> simp [rlim]

theorem sameRegisters_portRead (a : PortAddr) (s : State) : SameRegisters s (portRead Config.core a s) := by
  rcases portRead_cases a s with h | h | ⟨w, h⟩ <;> rw [h] <;> refine ⟨⟨?_, ?_, ?_, ?_, ?_⟩, ?_⟩ <;> simp

/-- A write beside `CMD` stores into `IRQ_EN`, or leaves these registers alone. -/
theorem portStore_irqEn_or_same (a : PortAddr) (w : Word) (s : State) :
    portStore Config.core a w s = { s with irqEn := w &&& irqMask } ∨
    SameRegisters s (portStore Config.core a w s) := by
  rcases portStore_cases a w s with h | h | ⟨p, h⟩ | ⟨sl, k, -, h⟩ | h | h
  case inr.inl => exact .inl h
  all_goals
    rw [h]
    exact .inr ⟨⟨rfl, rfl, rfl, rfl, rfl⟩, rfl⟩

/-! ## The filter store (10_state R39 to R42) -/

theorem length_feedbackCoefs (aq : List Word) : (feedbackCoefs Config.core aq).length = 12 := by
  simp [feedbackCoefs, fixedCoefs]

theorem length_resynState (rs : List Wide) : (resynState Config.core rs).length = 12 := by
  simp [resynState]

/-- `RESYN` leaves as many state words as there are. -/
theorem length_resynResult_state (s : State) : (resynResult s).2.length = 12 := by
  have hrs := length_resynState s.filt.rs
  obtain ⟨-, -, -, -, hlen, -⟩ := resynLoop_spec Config.core.cf (feedbackCoefs Config.core s.recon.newAQ)
    (readRes s.mem Config.core.n) (resynState Config.core s.filt.rs)
    ((length_feedbackCoefs _).trans hrs.symm) (by omega)
  exact hlen.trans hrs

/-- What an instruction may do to the filter store `f`: nothing, or, if it is one of the four owners, change its own
part (10_state R39). -/
inductive FilterMove (f : FilterStore) : Instr → FilterStore → Prop
  | keep (i : Instr) : FilterMove f i f
  | resyn (rs : List Wide) (h : rs.length = 12) : FilterMove f .resyn { f with rs := rs }
  | fbcoef (c1 c2 c3 : BiquadCoef) (valid : Bool) (vowel : Vowel) (freq : F32) :
      FilterMove f .fbcoef
        { f with
          bp1 := { f.bp1 with coef := c1 }
          bp2 := { f.bp2 with coef := c2 }
          bp3 := { f.bp3 with coef := c3 }
          fbValid := valid, fbKeyVowel := vowel, fbKeyFreq := freq }
  | fbank (p1 q1 p2 q2 p3 q3 : Wide) :
      FilterMove f .fbank
        { f with
          bp1 := { f.bp1 with s1 := p1, s2 := q1 }
          bp2 := { f.bp2 with s1 := p2, s2 := q2 }
          bp3 := { f.bp3 with s1 := p3, s2 := q3 } }
  | rhpf (p q : Wide) : FilterMove f .rhpf { f with hp := { f.hp with s1 := p, s2 := q } }

theorem filterMove_of_eq {f g : FilterStore} (i : Instr) (h : g = f) : FilterMove f i g := h ▸ .keep i

theorem filterMove_resyn (s : State) : FilterMove s.filt .resyn (resyn Config.core s).filt := by
  rw [resyn_eq]
  exact .resyn _ (by simp [length_resynResult_state])

theorem filterMove_fbcoef (s : State) : FilterMove s.filt .fbcoef (fbcoef Config.core s).filt := by
  unfold fbcoef
  split
  · exact .keep _
  · exact .fbcoef _ _ _ _ _ _

theorem filterMove_fbank (s : State) : FilterMove s.filt .fbank (fbank Config.core s).filt :=
  .fbank _ _ _ _ _ _

theorem filterMove_rhpf (s : State) : FilterMove s.filt .rhpf (rhpf Config.core s).filt :=
  .rhpf _ _

theorem claim_filt (s : State) : (claim Config.core s).filt = s.filt := by
  rcases claim_cases s with ⟨sl, rest, -, -, h⟩ | h <;> rw [h]
  simp [claimSlot]

/-- Once what an instruction can do to the filter store. -/
theorem perform_filterMove (i : Instr) (s : State) : FilterMove s.filt i (perform Config.core i s).filt := by
  cases i with
  | nop | acorr | levdur | proots | pshift | precon => exact .keep _
  | captureDone sl => exact filterMove_of_eq _ (sameRegisters_captureDone sl s).filt
  | outputReq => exact filterMove_of_eq _ (sameRegisters_outputReq s).filt
  | claim => exact filterMove_of_eq _ (claim_filt s)
  | resid => exact filterMove_of_eq _ (sameRegisters_resid s).filt
  | resyn => exact filterMove_resyn s
  | fbcoef => exact filterMove_fbcoef s
  | fbank => exact filterMove_fbank s
  | rhpf => exact filterMove_rhpf s
  | rsat => exact filterMove_of_eq _ (sameRegisters_rsat s).filt
  | rlim => exact filterMove_of_eq _ (sameRegisters_rlim s).filt
  | release => exact filterMove_of_eq _ (sameRegisters_release s).filt

section
variable {f g : FilterStore} {i : Instr}

/-- Only `RHPF` moves the delay words of the high-pass. -/
theorem FilterMove.highPass_eq (m : FilterMove f i g) (h : i ≠ .rhpf) : g.hp = f.hp := by
  cases m with
  | keep | resyn | fbcoef | fbank => rfl
  | rhpf => exact absurd rfl h

/-- No instruction changes the coefficients of the high-pass. -/
theorem FilterMove.highPass_coef (m : FilterMove f i g) : g.hp.coef = f.hp.coef := by
  cases m <;> rfl

/-- Only `FBANK` moves the delay words of a band-pass. -/
theorem FilterMove.band_words {s t : State} {st : BiquadStage} (m : FilterMove s.filt i t.filt) (h : i ≠ .fbank)
    (hst : st ≠ .highPass) : (t.biquad st).s1 = (s.biquad st).s1 ∧ (t.biquad st).s2 = (s.biquad st).s2 := by
  generalize hg : t.filt = g at m
  cases m with
  | keep | resyn | fbcoef | rhpf => cases st <;> simp [State.biquad, hg] at hst ⊢
  | fbank => exact absurd rfl h

/-- Only `RESYN` moves `RS`. -/
theorem FilterMove.rs_eq (m : FilterMove f i g) (h : i ≠ .resyn) : g.rs = f.rs := by
  cases m with
  | resyn => exact absurd rfl h
  | keep | fbcoef | fbank | rhpf => rfl

theorem FilterMove.length_rs (m : FilterMove f i g) (h : f.rs.length = 12) : g.rs.length = 12 := by
  cases m with
  | resyn rs hrs => exact hrs
  | keep | fbcoef | fbank | rhpf => exact h

end

/-- A command leaves the filter store alone. -/
theorem perform_command_filt {w : Word} {i : Instr} (h : decodeCommand w = .ok i) (s : State) :
    (perform Config.core i s).filt = s.filt := by
  rcases decodeCommand_cases h with rfl | ⟨sl, rfl⟩ | rfl
  · rfl
  · exact (sameRegisters_captureDone sl s).filt
  · exact (sameRegisters_outputReq s).filt

theorem portStore_filt (a : PortAddr) (w : Word) (s : State) : (portStore Config.core a w s).filt = s.filt := by
  rcases portStore_irqEn_or_same a w s with h | h
  · rw [h]
  · exact h.filt

/-- Once what a step but reset can do to the filter store: nothing, or CE performs the stage in `SEQ`. -/
theorem step_filt_cases {s t : State} (hrst : ∀ rest, s.env.sched ≠ .rst :: rest) (h : step s = .next t) :
    t.filt = s.filt ∨
    ((s.env.sched = [] ∨ ∃ rest, s.env.sched = .ce :: rest) ∧
      ∃ i, s.disp.seq = stageCode i ∧ FilterMove s.filt i t.filt) := by
  rcases step_cases s t h with ⟨hs, i, hi, ht⟩ | ⟨rest, hs, i, hi, ht⟩ | ⟨a, rest, -, rfl⟩ | ⟨a, w, rest, -, -, rfl⟩ |
    ⟨a, w, rest, -, -, ⟨i, hi, ht⟩ | ⟨-, rfl⟩⟩ | ⟨rest, hs, -⟩
  · rw [eq_perform_of_exec ht]
    exact .inr ⟨.inl hs, i, (decodeStage_isStage _ i hi).2.symm, perform_filterMove i s⟩
  · rw [eq_perform_of_exec ht]
    exact .inr ⟨.inr ⟨rest, hs⟩, i, (decodeStage_isStage _ i hi).2.symm, perform_filterMove i (s.dropEvents 1)⟩
  · exact .inl (sameRegisters_portRead a _).filt
  · exact .inl (portStore_filt a w _)
  · exact .inl (by rw [eq_perform_of_exec ht, perform_command_filt hi, dropEvents_filt])
  · exact .inl rfl
  · exact absurd hs (hrst rest)

theorem biquad_congr {s t : State} (h : t.filt = s.filt) (st : BiquadStage) : t.biquad st = s.biquad st := by
  cases st <;> simp only [State.biquad, h]

/-- Settles O55: of the steps that may move the store, only CE's stages remain, and a stage that is not the owner of a
delay line leaves it alone. -/
theorem onlyOwnerMovesDelayLines : Obligations.OnlyOwnerMovesDelayLines := by
  intro s t hrst h
  rcases step_filt_cases hrst h with he | ⟨hce, i, hseq, m⟩
  · refine ⟨fun hne => ?_, fun ⟨st, _, hne⟩ => ?_, fun hne => absurd (by rw [he]) hne, fun hne => absurd he hne⟩
    · simp [he] at hne
    · simp [biquad_congr he] at hne
  · have owner (j : Instr) (hj : ¬ i ≠ j) : s.disp.seq = stageCode j := by
      rw [hseq, not_not.mp hj]
    refine ⟨fun hne => owner .rhpf fun hi => ?_, fun ⟨st, hst, hne⟩ => owner .fbank fun hi => ?_,
      fun hne => owner .resyn fun hi => hne (m.rs_eq hi), fun _ => hce⟩
    · simp [m.highPass_eq hi] at hne
    · simp [m.band_words hi hst] at hne

/-! ## Levinson-Durbin: how long the arrays come out -/

@[simp] theorem length_normalise (n : Nat) (acr : List Int) : (normalise n acr).length = acr.length := by
  simp [normalise]

@[simp] theorem length_toFixed (c : Config) (a : List F32) : (toFixed c a).length = a.length := by
  simp [toFixed]

@[simp] theorem length_levUpdate (a : List F32) (i : Nat) (k : F32) : (levUpdate a i k).length = i + 1 := by
  simp [levUpdate]

/-- Each order of the recursion lengthens both arrays by one. -/
theorem length_levLoop (r : List F32) (m : Nat) : ∀ (i : Nat) (a ks : List F32) (e : F32) (a' ks' : List F32)
    (e' : F32), levLoop r m i a ks e = some (a', ks', e') → a.length = i → ks.length = i →
      a'.length = i + m ∧ ks'.length = i + m := by
  induction m with
  | zero =>
    intro i a ks e a' ks' e' h ha hk
    cases h
    exact ⟨ha, hk⟩
  | succ m ih =>
    intro i a ks e a' ks' e' h ha hk
    simp only [levLoop] at h
    split_ifs at h
    have hlen := ih _ _ _ _ _ _ _ h (length_levUpdate _ _ _) (by simp [hk])
    omega

theorem length_predictor (c : Config) (acr : List Int) (acf : List F32) :
    (predictor c acr acf).a.length = c.p + 1 ∧ (predictor c acr acf).k.length = c.p + 1 := by
  unfold predictor
  split
  · simp [flatPredictor]
  · split
    · simp [flatPredictor]
    · next a k e h =>
      have hlen := length_levLoop _ _ _ _ _ _ _ _ _ h rfl rfl
      show a.length = _ ∧ k.length = _
      omega

/-! ## The factor search: how many factors, and of what kinds -/

/-- Bairstow's method divides out two degrees. -/
theorem length_bairstow_le (tol : F32) (c : List F32) (n : Nat) (f : Found) : ∀ (m : Nat) (u v : F32),
    bairstow tol c n m u v = some f → f.q.length ≤ n - 1 := by
  intro m
  induction m with
  | zero =>
    intro u v h
    cases h
  | succ m ih =>
    intro u v h
    simp only [bairstow] at h
    split_ifs at h
    · cases h
      exact List.length_take_le _ _
    · exact ih _ _ h

theorem length_findFactor_le (cfg : Config) (c : List F32) (n : Nat) (f : Found) (gs : List (F32 × F32))
    (h : findFactor cfg c n gs = some f) : f.q.length ≤ n - 1 := by
  induction gs with
  | nil => cases h
  | cons g gs ih =>
    unfold findFactor at h
    split at h
    · next hb =>
      cases h
      exact length_bairstow_le _ _ _ _ _ _ _ hb
    · exact ih h

theorem quadFactor_kind_ne_empty (u v : F32) : (quadFactor u v).kind ≠ .empty := by
  unfold quadFactor
  dsimp only
  split <;> decide

/-- A polynomial of `c.length` coefficients has at most half as many factors, and each has a kind. -/
theorem factorLoop_found (cfg : Config) (m : Nat) : ∀ c : List F32,
    (factorLoop cfg m c).found.length ≤ c.length / 2 ∧ ∀ f ∈ (factorLoop cfg m c).found, f.kind ≠ .empty := by
  induction m with
  | zero => intro c; simp [factorLoop]
  | succ m ih =>
    intro c
    simp only [factorLoop]
    split_ifs with h0 h1 h2
    · simp
    · simp; omega
    · simp [quadFactor_kind_ne_empty]; omega
    · split
      · simp
      · next f hf =>
        have hq := length_findFactor_le _ _ _ _ _ hf
        obtain ⟨hlen, hkind⟩ := ih f.q
        refine ⟨?_, ?_⟩
        · simp only [List.length_cons]
          omega
        · simpa [quadFactor_kind_ne_empty] using hkind

theorem factorise_found (degen : Bool) (a : List F32) :
    (factorise Config.core degen a).found.length ≤ 6 ∧ ∀ f ∈ (factorise Config.core degen a).found, f.kind ≠ .empty := by
  unfold factorise
  split
  · simp
  · simpa using factorLoop_found Config.core (Config.core.p + 1) (padTo (Config.core.p + 1) fZero a)

/-- A list of factors written to `QF_KIND` has a kind exactly at the recorded ones. -/
theorem getD_kinds_eq_empty_iff {fs : List Factor} (hlen : fs.length ≤ 6) (hk : ∀ f ∈ fs, f.kind ≠ .empty) (j : Nat) :
    (padTo 6 .empty (fs.map Factor.kind)).getD j .empty = .empty ↔ fs.length ≤ j := by
  rw [getD_padTo]
  by_cases hj : j < fs.length
  · have hne : fs[j].kind ≠ .empty := hk _ (List.getElem_mem hj)
    simp [List.getD, hj, hne, show j < 6 by omega]
  · simp [List.getD, hj, not_lt.mp hj]

/-! ## The snapshot -/

/-- A clamped shift factor is in range (46_dispatcher R259). -/
theorem clampShift_bounds (w : Word) :
    fle Config.core.shiftMin (clampShift Config.core w).1 = true ∧
    fle (clampShift Config.core w).1 Config.core.shiftMax = true := by
  unfold clampShift
  split_ifs with hn hlow hhigh
  · decide
  · decide
  · decide
  · simp only [Bool.not_eq_true', Bool.not_eq_false] at hlow hhigh
    exact ⟨hlow, hhigh⟩

/-! ## Legal registers, instruction by instruction -/

theorem legal_acorr {s : State} (h : RegistersLegal s) : RegistersLegal (acorr Config.core s) :=
  { h with shape := { h.shape with acr := by simp [acorr, autocorr] } }

theorem legal_levdur {s : State} (h : RegistersLegal s) : RegistersLegal (levdur Config.core s) :=
  { h with
    shape := { h.shape with
      acf := by simp [levdur]
      a := (length_predictor _ _ _).1
      k := (length_predictor _ _ _).2
      aq := (length_toFixed _ _).trans (length_predictor _ _ _).1 } }

theorem legal_proots {s : State} (h : RegistersLegal s) : RegistersLegal (proots Config.core s) := by
  obtain ⟨hlen, hkind⟩ := factorise_found s.fr.degen s.lpc.a
  have hnqf : (proots Config.core s).poles.nqf.toNat = (factorise Config.core s.fr.degen s.lpc.a).found.length := by
    simp only [proots, goStage_poles, BitVec.toNat_ofNat]
    omega
  exact { h with
    shape := { h.shape with
      kind := length_padTo _ _ _
      u := length_padTo _ _ _
      v := length_padTo _ _ _
      rem := length_padTo _ _ _ }
    nqf := by omega
    kinds := fun j => by
      rw [hnqf]
      exact getD_kinds_eq_empty_iff hlen hkind j }

theorem legal_pshift {s : State} (h : RegistersLegal s) : RegistersLegal (pshift Config.core s) := by
  have hlen (g : Shifted → F32) :
      ((shiftAll Config.core s.snap.freq s.snap.amp s.poles).map g).length = 6 := by simp [shiftAll]
  exact { h with
    shape := { h.shape with plA := hlen _, plB := hlen _, psA := hlen _, psB := hlen _, shU := hlen _, shV := hlen _ } }

theorem legal_precon {s : State} (h : RegistersLegal s) : RegistersLegal (precon Config.core s) := by
  have hlen : (precon Config.core s).recon.newA.length = 13 := by
    simp only [precon, goStage_recon]
    split <;> exact length_padTo _ _ _
  exact { h with shape := { h.shape with newA := hlen, newAQ := (length_toFixed _ _).trans hlen } }

/-- Legality when only the filter store differs, and there the high-pass keeps its coefficients and `RS`
its length. -/
theorem RegistersLegal.of_filter {s t : State} (h : RegistersLegal s) (e : SameBeyondFilter s t)
    (hcoef : t.filt.hp.coef = s.filt.hp.coef) (hrs : t.filt.rs.length = 12) : RegistersLegal t := by
  obtain ⟨hlpc, hpoles, hrecon, hsnap, hirq⟩ := e
  cases s
  cases t
  cases hlpc
  cases hpoles
  cases hrecon
  cases hsnap
  cases hirq
  exact { h with shape := { h.shape with rs := hrs }, highPass := hcoef.trans h.highPass }

theorem SameRegisters.legal {s t : State} (e : SameRegisters s t) (h : RegistersLegal s) : RegistersLegal t :=
  h.of_filter e.toSameBeyondFilter (by rw [e.filt]) (by rw [e.filt]; exact h.shape.rs)

/-- An instruction that changes nothing but the filter store keeps the registers legal. -/
theorem legal_perform_of_filter {i : Instr} {s : State} (e : SameBeyondFilter s (perform Config.core i s))
    (h : RegistersLegal s) : RegistersLegal (perform Config.core i s) :=
  h.of_filter e (perform_filterMove i s).highPass_coef ((perform_filterMove i s).length_rs h.shape.rs)

theorem sameBeyondFilter_resyn (s : State) : SameBeyondFilter s (resyn Config.core s) := by
  rw [resyn_eq]
  exact ⟨rfl, rfl, rfl, rfl, rfl⟩

theorem sameBeyondFilter_fbcoef (s : State) : SameBeyondFilter s (fbcoef Config.core s) := by
  unfold fbcoef
  split <;> exact ⟨rfl, rfl, rfl, rfl, rfl⟩

theorem sameBeyondFilter_fbank (s : State) : SameBeyondFilter s (fbank Config.core s) := by
  constructor <;> simp [fbank, State.biquadRun]

theorem sameBeyondFilter_rhpf (s : State) : SameBeyondFilter s (rhpf Config.core s) := by
  constructor <;> simp [rhpf, State.biquadRun]

theorem legal_claim {s : State} (h : RegistersLegal s) : RegistersLegal (claim Config.core s) := by
  rcases claim_cases s with ⟨sl, rest, -, -, hc⟩ | hc <;> rw [hc]
  · obtain ⟨hfreqLow, hfreqHigh⟩ := clampShift_bounds s.par.freq
    obtain ⟨hampLow, hampHigh⟩ := clampShift_bounds s.par.amp
    cases sl <;>
      exact { h with
        shape := { h.shape with }
        freqLow := hfreqLow, freqHigh := hfreqHigh, ampLow := hampLow, ampHigh := hampHigh }
  · exact h

/-- Every instruction keeps the registers legal. -/
theorem legal_perform (i : Instr) {s : State} (h : RegistersLegal s) : RegistersLegal (perform Config.core i s) := by
  cases i with
  | nop => exact h
  | captureDone sl => exact (sameRegisters_captureDone sl s).legal h
  | outputReq => exact (sameRegisters_outputReq s).legal h
  | claim => exact legal_claim h
  | acorr => exact legal_acorr h
  | levdur => exact legal_levdur h
  | resid => exact (sameRegisters_resid s).legal h
  | proots => exact legal_proots h
  | pshift => exact legal_pshift h
  | precon => exact legal_precon h
  | resyn => exact legal_perform_of_filter (sameBeyondFilter_resyn s) h
  | fbcoef => exact legal_perform_of_filter (sameBeyondFilter_fbcoef s) h
  | fbank => exact legal_perform_of_filter (sameBeyondFilter_fbank s) h
  | rhpf => exact legal_perform_of_filter (sameBeyondFilter_rhpf s) h
  | rsat => exact (sameRegisters_rsat s).legal h
  | rlim => exact (sameRegisters_rlim s).legal h
  | release => exact (sameRegisters_release s).legal h

/-! ## Legal registers through the host port and reset -/

/-- What `IRQ_EN` stores has no unimplemented bit (20_memory R73 (3)). -/
theorem and_irqMask_legal (w : Word) : (w &&& irqMask) &&& ~~~irqMask = 0#32 := by
  rw [BitVec.and_assoc, show irqMask &&& ~~~irqMask = 0#32 by decide, BitVec.and_zero]

theorem legal_portStore (a : PortAddr) (w : Word) {s : State} (h : RegistersLegal s) :
    RegistersLegal (portStore Config.core a w s) := by
  rcases portStore_irqEn_or_same a w s with e | e
  · rw [e]
    exact { h with shape := { h.shape with }, irqEn := and_irqMask_legal w }
  · exact e.legal h

theorem legal_reset : RegistersLegal State.reset where
  shape := by constructor <;> rfl
  irqEn := by decide
  freqLow := by decide
  freqHigh := by decide
  ampLow := by decide
  ampHigh := by decide
  highPass := rfl
  nqf := by decide
  kinds := fun j => by
    show (List.replicate 6 FactorKind.empty)[j]?.getD .empty = .empty ↔ 0 ≤ j
    simp only [List.getElem?_getD_replicate_default_eq, Nat.zero_le]

theorem sameRegisters_applyReset (s : State) : SameRegisters State.reset (applyReset Config.core s) :=
  ⟨⟨rfl, rfl, rfl, rfl, rfl⟩, rfl⟩

/-- Settles O15: every instruction, every port access and reset keep the registers legal. -/
theorem stepKeepsRegistersLegal : Obligations.StepKeepsRegistersLegal := by
  intro s t hs h
  have hd : RegistersLegal (s.dropEvents 1) := (sameRegisters_dropEvents s 1).legal hs
  rcases step_cases s t h with ⟨-, i, -, ht⟩ | ⟨rest, -, i, -, ht⟩ | ⟨a, rest, -, rfl⟩ | ⟨a, w, rest, -, -, rfl⟩ |
    ⟨a, w, rest, -, -, ⟨i, -, ht⟩ | ⟨-, rfl⟩⟩ | ⟨rest, -, rfl⟩
  · rw [eq_perform_of_exec ht]
    exact legal_perform i hs
  · rw [eq_perform_of_exec ht]
    exact legal_perform i hd
  · exact (sameRegisters_portRead a _).legal hd
  · exact legal_portStore a w hd
  · rw [eq_perform_of_exec ht]
    exact legal_perform i hd
  · exact (sameRegisters_signalCmderr _).legal hd
  · exact (sameRegisters_applyReset _).legal legal_reset

end Sys2Proof.Machine

namespace Sys2Proof.Machine

/-! ## A port access as a step -/

/-- The first event to come is the step, the event gone. -/
theorem step_of_sched_cons {s : State} {e : Event} {rest : List Event} (h : s.env.sched = e :: rest) :
    step s = runEvent Config.core exec e { s with env := { s.env with sched := rest } } := by
  rw [← dropEvents_one_of_cons h]
  simp only [step, stepBy, h]

/-- Settles O7: the event is run as it stands; of the writes, only one to `CMD` runs an instruction. -/
theorem stepRunsPortAccess : Obligations.StepRunsPortAccess := by
  intro s a rest
  refine ⟨fun hs => ?_, fun w hs ha => ?_⟩
  · rw [step_of_sched_cons hs]
    rfl
  · have hcmd : a.toNat ≠ 2 := fun h => ha (BitVec.eq_of_toNat_eq h)
    rw [step_of_sched_cons hs]
    exact if_neg hcmd

/-! ## Commands are no stages -/

@[simp] theorem isStage_nop : isStage .nop = false := rfl
@[simp] theorem isStage_outputReq : isStage .outputReq = false := rfl
@[simp] theorem isStage_captureDone (sl : Slot) : isStage (.captureDone sl) = false := by cases sl <;> rfl

/-! ## What an instruction can do to the memory -/

/-- What a stage may do to the memory `m`: store whole frames into `SLOT[cur]`, or the residual into `RES`
(20_memory R84). -/
inductive StageStores (cur : Slot) (m : Memory) : Memory → Prop
  | keep : StageStores cur m m
  | frame {m' : Memory} (ys : List Int) (hlen : ys.length = 256) (h : StageStores cur m m') :
      StageStores cur m (writeSamples m' (.slot cur) ys)
  | residual (ys : List Int) (hlen : ys.length = 256) : StageStores cur m (writeRes m ys)

theorem stageStores_of_eq {cur : Slot} {m m' : Memory} (h : m' = m) : StageStores cur m m' := h ▸ .keep

/-- Every store of a stage keeps the canonical form. -/
theorem StageStores.wf {cur : Slot} {m m' : Memory} (h : StageStores cur m m') (hm : Memory.wf m) :
    Memory.wf m' := by
  induction h with
  | keep => exact hm
  | frame ys _ _ ih => exact wf_writeSamples _ _ _ ih
  | residual ys _ => exact wf_writeRes _ _ hm

/-- A byte outside `SLOT[cur]` and `RES` is out of reach of a stage's stores. -/
theorem StageStores.readByte_outside {cur : Slot} {m m' : Memory} (h : StageStores cur m m') {x : Nat}
    (hslot : ¬ inSpace (.slot cur) x) (hres : ¬ inSpace .res x) : readByte m' x = readByte m x := by
  induction h with
  | keep => rfl
  | frame ys hlen _ ih =>
    rw [← ih]
    refine readByte_writeSamples_outside _ _ _ _ fun k hk => ?_
    by_contra hc
    exact hslot ⟨k, by simpa [hlen] using hk, by simp only [elemBytes]; omega⟩
  | residual ys hlen =>
    refine readByte_writeRes_outside _ _ _ ?_
    by_contra hc
    rw [hlen, elemAddr_eq .res 256] at hc
    refine hres ⟨(x - elemAddr .res 0) / 4, by simp only [core_n]; omega, ?_⟩
    rw [elemAddr_eq .res ((x - elemAddr .res 0) / 4)]
    simp only [elemBytes]
    omega

theorem StageStores.biquadRun {m : Memory} {s : State} (st : BiquadStage) (h : StageStores s.disp.cur m s.mem) :
    StageStores s.disp.cur m (s.biquadRun Config.core st).mem := by
  rw [biquadRun_mem, setFrame_mem]
  exact h.frame _ (by simp [biquadResult])

theorem stageStores_fbank (s : State) : StageStores s.disp.cur s.mem (fbank Config.core s).mem := by
  have h1 : StageStores s.disp.cur s.mem (s.biquadRun Config.core .band1).mem := StageStores.keep.biquadRun _
  rw [← biquadRun_disp s .band1] at h1
  have h2 := h1.biquadRun .band2
  rw [← biquadRun_disp _ .band2] at h2
  simpa [fbank] using h2.biquadRun .band3

theorem claim_mem (s : State) : (claim Config.core s).mem = s.mem := by
  rcases claim_cases s with ⟨sl, rest, -, -, h⟩ | h <;> rw [h]
  simp [claimSlot]

theorem fbcoef_mem (s : State) : (fbcoef Config.core s).mem = s.mem := by
  unfold fbcoef
  split <;> rfl

theorem release_mem (s : State) : (release s).mem = s.mem := by simp [release]

theorem captureDone_mem (sl : Slot) (s : State) : (captureDone sl s).mem = s.mem := by
  rcases captureDone_cases sl s with ⟨-, h⟩ | ⟨-, h⟩ <;> rw [h] <;> simp

/-- Once what a stage can do to the memory. -/
theorem perform_stageStores {i : Instr} (hi : isStage i = true) (s : State) :
    StageStores s.disp.cur s.mem (perform Config.core i s).mem := by
  cases i with
  | nop | captureDone _ | outputReq => simp at hi
  | acorr | levdur | proots | pshift | precon => exact .keep
  | claim => exact stageStores_of_eq (claim_mem s)
  | fbcoef => exact stageStores_of_eq (fbcoef_mem s)
  | release => exact stageStores_of_eq (release_mem s)
  | resid =>
    simp only [perform, resid_eq]
    exact .residual _ (length_residResult s)
  | resyn =>
    simp only [perform, resyn_eq]
    exact .frame _ (length_resynResult s) .keep
  | fbank => exact stageStores_fbank s
  | rhpf =>
    simp only [perform, rhpf, goStage_mem]
    exact StageStores.keep.biquadRun .highPass
  | rsat =>
    simp only [perform, rsat, goStage_mem, setFrame_mem]
    exact .frame _ (by simp) .keep
  | rlim =>
    simp only [perform, rlim, goStage_mem, setFrame_mem]
    exact .frame _ (by simp) .keep

/-! ## The canonical form of the memory -/

theorem wf_outputReq {s : State} (h : Memory.wf s.mem) : Memory.wf (outputReq Config.core s).mem := by
  unfold outputReq
  split
  · simp only [setSlotState_mem]
    exact wf_writeSamples _ _ _ h
  · exact h

/-- Every instruction keeps the canonical form: a stage by its stores, a command by what it copies. -/
theorem wf_perform (i : Instr) {s : State} (h : Memory.wf s.mem) : Memory.wf (perform Config.core i s).mem := by
  by_cases hi : isStage i = true
  · exact (perform_stageStores hi s).wf h
  · cases i with
    | nop => exact h
    | captureDone sl => exact (captureDone_mem sl s).symm ▸ h
    | outputReq => exact wf_outputReq h
    | _ => exact absurd rfl hi

theorem portRead_mem (a : PortAddr) (s : State) : (portRead Config.core a s).mem = s.mem := by
  rcases portRead_cases a s with h | h | ⟨w, h⟩ <;> rw [h] <;> simp

theorem wf_portStore (a : PortAddr) (w : Word) {s : State} (h : Memory.wf s.mem) :
    Memory.wf (portStore Config.core a w s).mem := by
  rcases portStore_cases a w s with e | e | ⟨p, e⟩ | ⟨sl, k, -, e⟩ | e | e <;> rw [e]
  case inr.inr.inr.inl => exact wf_write16 _ _ _ h
  all_goals exact h

/-- Settles O13: every instruction, every port access and reset keep the canonical form. -/
theorem stepKeepsMemoryCanonical : Obligations.StepKeepsMemoryCanonical := by
  intro s t hs h
  rcases step_cases s t h with ⟨-, i, -, ht⟩ | ⟨rest, -, i, -, ht⟩ | ⟨a, rest, -, rfl⟩ | ⟨a, w, rest, -, -, rfl⟩ |
    ⟨a, w, rest, -, -, ⟨i, -, ht⟩ | ⟨-, rfl⟩⟩ | ⟨rest, -, rfl⟩
  · exact eq_perform_of_exec ht ▸ wf_perform i hs
  · exact eq_perform_of_exec ht ▸ wf_perform i (s := s.dropEvents 1) hs
  · exact (portRead_mem a _).symm ▸ hs
  · exact wf_portStore a w (s := s.dropEvents 1) hs
  · exact eq_perform_of_exec ht ▸ wf_perform i (s := s.dropEvents 1) hs
  · exact hs
  · exact wf_reset

/-! ## What belongs to the host (20_memory R84) -/

/-- The sticky flags, the live parameters, `IRQ_EN` and the model's own fields are the same in both states. -/
structure SameHost (s t : State) : Prop where
  sticky : t.sticky = s.sticky
  par : t.par = s.par
  irqEn : t.irqEn = s.irqEn
  env : t.env = s.env

theorem sameHost_claim (s : State) : SameHost s (claim Config.core s) := by
  rcases claim_cases s with ⟨sl, rest, -, -, h⟩ | h <;> rw [h]
  · constructor <;> simp [claimSlot]
  · exact ⟨rfl, rfl, rfl, rfl⟩

theorem sameHost_fbcoef (s : State) : SameHost s (fbcoef Config.core s) := by
  unfold fbcoef
  split <;> exact ⟨rfl, rfl, rfl, rfl⟩

theorem sameHost_release (s : State) : SameHost s (release s) := by
  constructor <;> simp [release]

theorem sameHost_biquadRun (s : State) (st : BiquadStage) : SameHost s (s.biquadRun Config.core st) := by
  constructor <;> simp [State.biquadRun]

theorem SameHost.trans {s t u : State} (h : SameHost s t) (h' : SameHost t u) : SameHost s u :=
  ⟨h'.sticky.trans h.sticky, h'.par.trans h.par, h'.irqEn.trans h.irqEn, h'.env.trans h.env⟩

theorem SameHost.goStage {s t : State} (h : SameHost s t) (i : Instr) : SameHost s (t.goStage i) :=
  ⟨h.sticky, h.par, h.irqEn, h.env⟩

/-- No stage touches what belongs to the host. -/
theorem sameHost_perform {i : Instr} (hi : isStage i = true) (s : State) :
    SameHost s (perform Config.core i s) := by
  cases i with
  | nop | captureDone _ | outputReq => simp at hi
  | acorr | levdur | proots | pshift | precon => exact ⟨rfl, rfl, rfl, rfl⟩
  | resid => constructor <;> simp [perform, resid_eq]
  | resyn => constructor <;> simp [perform, resyn_eq]
  | rsat => constructor <;> simp [perform, rsat]
  | rlim => constructor <;> simp [perform, rlim]
  | claim => exact sameHost_claim s
  | fbcoef => exact sameHost_fbcoef s
  | release => exact sameHost_release s
  | fbank =>
    exact (((sameHost_biquadRun s .band1).trans (sameHost_biquadRun _ .band2)).trans
      (sameHost_biquadRun _ .band3)).goStage _
  | rhpf => exact (sameHost_biquadRun s .highPass).goStage _

/-- Settles O54: a stage's stores reach no other byte, and the host's registers stay. -/
theorem stagesWriteOnlyTheirOwn : Obligations.StagesWriteOnlyTheirOwn := by
  intro s t i hi h
  obtain rfl := eq_perform_of_exec h
  obtain ⟨hsticky, hpar, hirq, henv⟩ := sameHost_perform hi s
  exact ⟨fun x hslot hres => (perform_stageStores hi s).readByte_outside hslot hres, hsticky, hpar, hirq, henv⟩

/-! ## Stages under other live parameters (20_memory R86 (e)) -/

theorem setSlotState_withParams (s : State) (sl : Slot) (v : SlotState) (p : Params) :
    (s.withParams p).setSlotState sl v = (s.setSlotState sl v).withParams p := by
  cases sl <;> rfl

theorem setBiquad_withParams (s : State) (st : BiquadStage) (b : Biquad) (p : Params) :
    (s.withParams p).setBiquad st b = (s.setBiquad st b).withParams p := by
  cases st <;> rfl

theorem goStage_withParams (s : State) (i : Instr) (p : Params) :
    (s.withParams p).goStage i = (s.goStage i).withParams p := rfl

theorem setFrame_withParams (s : State) (ys : List Int) (p : Params) :
    (s.withParams p).setFrame ys = (s.setFrame ys).withParams p := rfl

theorem frame_withParams (s : State) (p : Params) (n : Nat) : (s.withParams p).frame n = s.frame n := rfl

theorem biquadRun_withParams (s : State) (st : BiquadStage) (p : Params) :
    (s.withParams p).biquadRun Config.core st = (s.biquadRun Config.core st).withParams p := by
  have hb : (s.withParams p).biquad st = s.biquad st := by cases st <;> rfl
  simp only [State.biquadRun, hb, frame_withParams, setFrame_withParams, setBiquad_withParams]

theorem fbcoef_withParams (s : State) (p : Params) :
    fbcoef Config.core (s.withParams p) = (fbcoef Config.core s).withParams p := by
  have hhit : cacheHit (s.withParams p) = cacheHit s := rfl
  unfold fbcoef
  rw [hhit]
  split <;> rfl

theorem fbank_withParams (s : State) (p : Params) :
    fbank Config.core (s.withParams p) = (fbank Config.core s).withParams p := by
  simp only [fbank, biquadRun_withParams, goStage_withParams]
  rfl

theorem release_withParams (s : State) (p : Params) :
    release (s.withParams p) = (release s).withParams p := by
  simp only [release, setSlotState_withParams]
  rfl

theorem resid_withParams (s : State) (p : Params) :
    resid Config.core (s.withParams p) = (resid Config.core s).withParams p := by
  have hres : residResult (s.withParams p) = residResult s := by
    rw [residResult, residResult, frame_withParams]
    rfl
  rw [resid_eq, resid_eq, hres]
  generalize residResult s = ys
  rfl

theorem resyn_withParams (s : State) (p : Params) :
    resyn Config.core (s.withParams p) = (resyn Config.core s).withParams p := by
  have hres : resynResult (s.withParams p) = resynResult s := rfl
  rw [resyn_eq, resyn_eq, hres]
  generalize resynResult s = r
  rfl

/-- A stage but `CLAIM` reads no live parameter and keeps them. -/
theorem perform_withParams {i : Instr} (hi : isStage i = true) (hclaim : i ≠ .claim) (s : State) (p : Params) :
    perform Config.core i (s.withParams p) = (perform Config.core i s).withParams p := by
  cases i with
  | nop | captureDone _ | outputReq => simp at hi
  | claim => exact absurd rfl hclaim
  | acorr | levdur | proots | pshift | precon => rfl
  | resid => exact resid_withParams s p
  | resyn => exact resyn_withParams s p
  | rsat => simp only [perform, rsat, frame_withParams, setFrame_withParams, goStage_withParams]
  | rlim => simp only [perform, rlim, frame_withParams, setFrame_withParams, goStage_withParams]
  | fbcoef => exact fbcoef_withParams s p
  | fbank => exact fbank_withParams s p
  | rhpf => simp only [perform, rhpf, biquadRun_withParams, goStage_withParams]
  | release => exact release_withParams s p

/-- Settles O26: stage by stage, other live parameters are carried along and change nothing. -/
theorem parametersDoNotReachClaimedFrame : Obligations.ParametersDoNotReachClaimedFrame := by
  intro s t i p hi hclaim h
  rw [exec_eq_perform, perform_withParams hi hclaim, ← eq_perform_of_exec h]

/-! ## The slots at the host port (20_memory R82, R83) -/

/-- Sample `n` of a slot stands at its word address. -/
theorem slotElem_of_lt (sl : Slot) {n : Nat} (hn : n < 256) :
    slotElem Config.core (spaceBase (.slot sl) + n) = some (sl, n) := by
  have hN : Config.core.n = 256 := rfl
  cases sl <;> simp only [spaceBase, slotElem, hN]
  · rw [if_pos (by omega), Nat.add_sub_cancel_left]
  · rw [if_neg (by omega), if_pos (by omega), Nat.add_sub_cancel_left]

section
variable {s : State} {sl : Slot} {n : Nat} {a : PortAddr}

/-- What a read of a slot's sample does, by the state of the slot. -/
theorem portRead_slot (hn : n < 256) (ha : a.toNat = spaceBase (.slot sl) + n) :
    portRead Config.core a s =
      if hostMayRead (s.slotState sl) then s.answer (sampleWord (read16 s.mem (elemAddr (.slot sl) n)))
      else s.signalXerr.answer 0#32 := by
  simp only [portRead, ha, slotElem_of_lt sl hn]

/-- A write to any other address than the host's registers goes to the slot sample there, if there is one. -/
theorem portStore_of_slotElem {o : Option (Slot × Nat)} (h3 : a.toNat ≠ 3) (h4 : a.toNat ≠ 4)
    (hpar : a.toNat < 8 ∨ 0xB < a.toNat) (he : slotElem Config.core a.toNat = o) (w : Word) :
    portStore Config.core a w s =
      o.elim s fun e =>
        if hostMayWrite (s.slotState e.1) then
          { s with mem := write16 s.mem (elemAddr (.slot e.1) e.2) (w.extractLsb' 0 16) }
        else s.signalXerr := by
  unfold portStore
  split
  iterate 6 omega
  · rw [he]
    cases o <;> rfl

/-- What a write of a slot's sample does, by the state of the slot. -/
theorem portStore_slot (hn : n < 256) (ha : a.toNat = spaceBase (.slot sl) + n) (w : Word) :
    portStore Config.core a w s =
      if hostMayWrite (s.slotState sl) then
        { s with mem := write16 s.mem (elemAddr (.slot sl) n) (w.extractLsb' 0 16) }
      else s.signalXerr := by
  have hbase : 0x1000 ≤ spaceBase (.slot sl) := by cases sl <;> decide
  exact portStore_of_slotElem (by omega) (by omega) (by omega) (ha ▸ slotElem_of_lt sl hn) w

end

theorem hostMayRead_iff (x : SlotState) : hostMayRead x = true ↔ x = .capturing ∨ x = .readyForOutput := by
  cases x <;> simp [hostMayRead]

theorem hostMayWrite_iff (x : SlotState) : hostMayWrite x = true ↔ x = .capturing := by
  cases x <;> simp [hostMayWrite]

/-- Settles O48: outside the allowed cells of 20_memory R82 both accesses take their refusing branch. -/
theorem refusedSlotAccessSetsXerr : Obligations.RefusedSlotAccessSetsXerr := by
  intro s sl n a hn ha
  refine ⟨fun hst => ?_, fun hst w => ?_⟩
  · have hno : ¬ hostMayRead (s.slotState sl) = true := by
      rw [hostMayRead_iff]
      rcases hst with h | h <;> simp [h]
    rw [portRead_slot hn ha, if_neg hno]
    rfl
  · rw [portStore_slot hn ha, if_neg (mt (hostMayWrite_iff _).mp hst)]
    rfl

/-- Settles O49: in the allowed cells the read answers the sample, and the write is the store of one 16-bit element. -/
theorem allowedSlotAccessMovesSample : Obligations.AllowedSlotAccessMovesSample := by
  intro s sl n a hn ha
  refine ⟨fun hst => ?_, fun hst w => ?_⟩
  · rw [portRead_slot hn ha, if_pos ((hostMayRead_iff _).mpr hst)]
    rfl
  · rw [portStore_slot hn ha, if_pos ((hostMayWrite_iff _).mpr hst)]
    refine ⟨?_, fun x hx => readByte_write16_outside _ _ _ _ hx, rfl⟩
    exact congrArg BitVec.toInt (read16_write16_self _ _ _)

/-- Settles O51: the six registers by their arms; at any other address no slot sample takes the word. -/
theorem portWritesReachOnlyTheirRegister : Obligations.PortWritesReachOnlyTheirRegister := by
  intro s w
  refine ⟨rfl, rfl, rfl, rfl, rfl, rfl, fun a _ h3 h4 hpar hslot => ?_⟩
  exact portStore_of_slotElem h3 h4 hpar ((slotElem_none_iff _).mpr hslot) w

/-! ## What each address shows (10_state R50, R51) -/

/-! ### Status words, bit by bit -/

theorem statusWord_getLsbD (s : State) (i : Nat) : s.statusWord.getLsbD i = true ↔
    (i = 0 ∧ s.disp.outq ≠ []) ∨ (i = 1 ∧ s.disp.rdyq ≠ []) ∨ (i = 2 ∧ s.disp.seq ≠ 0#4) ∨
    (i = 8 ∧ s.sticky.underrun = true) ∨ (i = 9 ∧ s.sticky.xerr = true) ∨ (i = 10 ∧ s.sticky.cmderr = true) := by
  simp [State.statusWord, BitVec.getLsbD_or, flagBit_getLsbD, State.outRdy, State.framePend, State.busy,
    or_assoc, and_comm]

theorem frFlags_word_getLsbD (f : FrFlags) (i : Nat) : f.word.getLsbD i = true ↔
    (i = 0 ∧ f.degen = true) ∨ (i = 1 ∧ f.noconv = true) ∨ (i = 2 ∧ f.rclamp = true) ∨
    (i = 3 ∧ f.aclamp = true) ∨ (i = 4 ∧ f.parclamp = true) ∨ (i = 5 ∧ f.nonfin = true) ∨
    (i = 6 ∧ f.fcclamp = true) := by
  simp [FrFlags.word, BitVec.getLsbD_or, flagBit_getLsbD, or_assoc, and_comm]

theorem slotStateCode_toNat_getElem (x : SlotState) :
    [SlotState.capturing, .readyForProcessing, .processing, .readyForOutput][(slotStateCode x).toNat]? = some x := by
  cases x <;> rfl

theorem headBit_getLsbD (q : List Slot) : (headBit q).getLsbD 0 = true ↔ q.head? = some .one := by
  rcases q with _ | ⟨sl, q⟩
  · simp [headBit]
  · cases sl <;> simp [headBit]

/-- A part that lies above the low word of a concatenation is a part of the high word. -/
theorem extract_append_high {m n : Nat} {x : BitVec m} {y : BitVec n} {start len : Nat} {f : BitVec len}
    (hle : n ≤ start) (h : x.extractLsb' (start - n) len = f) : (x ++ y).extractLsb' start len = f :=
  (BitVec.extractLsb'_append_eq_of_le hle).trans h

/-- The parts of `SLOTST` (10_state R48). -/
theorem slotstWord_extract (s : State) :
    s.slotstWord.extractLsb' 0 2 = slotStateCode s.disp.st0 ∧
    s.slotstWord.extractLsb' 2 2 = slotStateCode s.disp.st1 ∧
    s.slotstWord.extractLsb' 4 2 = BitVec.ofNat 2 s.disp.rdyq.length ∧
    s.slotstWord.extractLsb' 6 1 = headBit s.disp.rdyq ∧
    s.slotstWord.extractLsb' 7 1 = 0#1 ∧
    s.slotstWord.extractLsb' 8 2 = BitVec.ofNat 2 s.disp.outq.length ∧
    s.slotstWord.extractLsb' 10 1 = headBit s.disp.outq ∧
    s.slotstWord.extractLsb' 11 21 = 0#21 := by
  unfold State.slotstWord
  refine ⟨?_, ?_, ?_, ?_, ?_, ?_, ?_, ?_⟩
  case refine_8 =>
    iterate 7 refine extract_append_high (by decide) ?_
    rfl
  all_goals
    repeat refine extract_append_high (by decide) ?_
    exact BitVec.extractLsb'_append_eq_right

/-- The parts of the word that shows `SEQ` and `CUR` (10_state R29). -/
theorem seqWord_extract (s : State) :
    s.seqWord.extractLsb' 0 4 = s.disp.seq ∧ s.seqWord.extractLsb' 4 1 = slotBit s.disp.cur ∧
    s.seqWord.extractLsb' 5 27 = 0#27 := by
  unfold State.seqWord
  refine ⟨BitVec.extractLsb'_append_eq_right, extract_append_high (by decide) BitVec.extractLsb'_append_eq_right, ?_⟩
  exact extract_append_high (by decide) (extract_append_high (by decide) rfl)

/-- A bit of a word is the only bit of the part that starts there. -/
theorem getLsbD_of_extract {w : Word} {i : Nat} {b : BitVec 1} (h : w.extractLsb' i 1 = b) :
    w.getLsbD i = b.getLsbD 0 := by
  rw [← h, BitVec.getLsbD_extractLsb']
  rfl

theorem slotBit_getLsbD (sl : Slot) : (slotBit sl).getLsbD 0 = true ↔ sl = .one := by
  cases sl <;> decide

/-! ### Codes (10_state R26, R34; 30_encoding R107) -/

theorem vowelCode_getElem (v : Vowel) :
    [Vowel.a, .e, .i, .o, .u][(BitVec.ofNat 32 (vowelCode v)).toNat]? = some v := by
  cases v <;> rfl

theorem modeCode_getElem (m : EffectMode) :
    [EffectMode.formantShift, .formantFilter, .radio, .formantShiftRadio,
      .formantFilterRadio][(BitVec.ofNat 32 (modeCode m)).toNat]? = some m := by
  cases m <;> rfl

theorem kindCode_getElem (k : FactorKind) :
    [FactorKind.empty, .complexPair, .twoReal, .oneReal][(BitVec.ofNat 32 (kindCode k)).toNat]? = some k := by
  cases k <;> rfl

theorem flagBit_zero (b : Bool) : flagBit b 0 = if b = true then 1#32 else 0#32 := by
  cases b <;> rfl

/-! ### Where the map has something -/

/-- CE owns the array registers. -/
theorem ceOwned_arrays {a : Nat} (h0 : 0x0040 ≤ a) (h1 : a ≤ 0x03FF) : ceOwned a = true := by
  simp [ceOwned, h0, h1]

/-- CE owns `RES`. -/
theorem ceOwned_res {a : Nat} (h0 : 0x0800 ≤ a) (h1 : a ≤ 0x0BFF) : ceOwned a = true := by
  simp [ceOwned, h0, h1]

/-- CE owns nothing above `RES`. -/
theorem ceOwned_above {a : Nat} (h : 0x0C00 ≤ a) : ceOwned a = false := by
  simp [ceOwned]
  omega

section
variable (s : State)

/-- What a read shows at an array register. -/
theorem ownedReadShows_array {n : Nat} {w : Word} (h0 : 0x0040 ≤ n) (h1 : n ≤ 0x03FF)
    (hm : mappedWord Config.core s n = some w) : s.ownedReadShows n w :=
  ownedReadShows_of_mapped s n w (by omega) hm (ceOwned_arrays h0 h1)

/-- What a read shows in an array of 13 words. -/
theorem ownedReadShows_elem {base k : Nat} {l : List Word} (hk : k ≤ 12) (h0 : 0x0040 ≤ base) (h1 : base ≤ 0x0140)
    (hm : mappedWord Config.core s (base + k) = elemWord 13 k l) : s.ownedReadShows (base + k) (l.getD k 0#32) :=
  ownedReadShows_array s (by omega) (by omega) (hm.trans (if_pos (by omega)))

theorem mappedWord_acr {k : Nat} (hk : k < 0x40) :
    mappedWord Config.core s (0x0040 + k) = wideElemWord 13 k s.lpc.acr := by
  simp (disch := omega) only [mappedWord, if_neg, if_pos, Nat.add_sub_cancel_left, core_p]

/-- The seven arrays of 13 words. -/
theorem mappedWord_elems {k : Nat} (hk : k < 0x20) :
    mappedWord Config.core s (0x0080 + k) = elemWord 13 k s.lpc.acf ∧
    mappedWord Config.core s (0x00A0 + k) = elemWord 13 k s.lpc.a ∧
    mappedWord Config.core s (0x00C0 + k) = elemWord 13 k s.lpc.k ∧
    mappedWord Config.core s (0x00E0 + k) = elemWord 13 k s.lpc.aq ∧
    mappedWord Config.core s (0x0100 + k) = elemWord 13 k s.poles.rem ∧
    mappedWord Config.core s (0x0120 + k) = elemWord 13 k s.recon.newA ∧
    mappedWord Config.core s (0x0140 + k) = elemWord 13 k s.recon.newAQ := by
  refine ⟨?_, ?_, ?_, ?_, ?_, ?_, ?_⟩ <;>
    simp (disch := omega) only [mappedWord, if_neg, if_pos, Nat.add_sub_cancel_left, core_p]

theorem mappedWord_biquad {j k : Nat} (hj : j < 4) (hk : k < 16) :
    mappedWord Config.core s (0x0200 + (16 * j + k)) = biquadWord (biquadOfIndex s j) k := by
  have hdiv : (16 * j + k) / 16 = j := by omega
  have hmod : (16 * j + k) % 16 = k := by omega
  simp (disch := omega) only [mappedWord, if_neg, if_pos, Nat.add_sub_cancel_left, hdiv, hmod]

theorem mappedWord_rs {k : Nat} (hk : k < 60) :
    mappedWord Config.core s (0x0280 + k) = wideElemWord 12 k s.filt.rs := by
  simp (disch := omega) only [mappedWord, if_neg, if_pos, Nat.add_sub_cancel_left, core_p]

theorem mappedWord_pole {j k : Nat} (hj : j < 6) (hk : k < 16) :
    mappedWord Config.core s (0x0300 + (16 * j + k)) = poleWord s.poles j k := by
  have hdiv : (16 * j + k) / 16 = j := by omega
  have hmod : (16 * j + k) % 16 = k := by omega
  simp (disch := omega) only [mappedWord, if_neg, if_pos, Nat.add_sub_cancel_left, hdiv, hmod, core_jmax]

theorem mappedWord_res {n : Nat} (hn : n < 256) :
    mappedWord Config.core s (0x0800 + n) = some (read32 s.mem (elemAddr .res n)) := by
  simp (disch := omega) only [mappedWord, if_neg, if_pos, Nat.add_sub_cancel_left, core_n]

theorem mappedWord_outbuf {n : Nat} (hn : n < 256) :
    mappedWord Config.core s (0x1800 + n) = some (sampleWord (read16 s.mem (elemAddr .outbuf n))) := by
  simp (disch := omega) only [mappedWord, if_neg, if_pos, Nat.add_sub_cancel_left, core_n]

/-! ### Where the map has nothing -/

theorem lowRegister_eq_none {a : Nat} (h : 0x001A < a) : lowRegister Config.core s a = none := by
  unfold lowRegister
  split
  iterate 27 omega
  rfl

end

theorem elemWord_eq_none {len k : Nat} {l : List Word} (h : len ≤ k) : elemWord len k l = none :=
  if_neg (by omega)

theorem wideElemWord_eq_none {len k : Nat} {l : List Wide} (h : 2 * len ≤ k) : wideElemWord len k l = none :=
  if_neg (by omega)

theorem biquadWord_eq_none {b : Biquad} {k : Nat} (h : 8 < k) : biquadWord b k = none := by
  unfold biquadWord
  split
  iterate 9 omega
  rfl

theorem poleWord_eq_none {p : Poles} {j k : Nat} (h : 8 < k) : poleWord p j k = none := by
  unfold poleWord
  split
  iterate 9 omega
  rfl

/-- Nothing is found in either half of the map. -/
theorem ite_eq_none {c : Prop} [Decidable c] {x y : Option Word} (hx : c → x = none) (hy : ¬ c → y = none) :
    (if c then x else y) = none := by
  split
  · next h => exact hx h
  · next h => exact hy h

/-- Range by range, beyond the implemented addresses nothing is mapped. -/
theorem mappedWord_eq_none (s : State) {a : Nat} (h : ¬ hostMapped a) : mappedWord Config.core s a = none := by
  unfold hostMapped at h
  have hn := core_n
  have hp := core_p
  have hj := core_jmax
  unfold mappedWord
  refine ite_eq_none (fun _ => lowRegister_eq_none s (by omega)) fun _ => ?_
  refine ite_eq_none (fun _ => wideElemWord_eq_none (by omega)) fun _ => ?_
  iterate 7 refine ite_eq_none (fun _ => elemWord_eq_none (by omega)) fun _ => ?_
  refine ite_eq_none (fun _ => rfl) fun _ => ?_
  refine ite_eq_none (fun _ => biquadWord_eq_none (by omega)) fun _ => ?_
  refine ite_eq_none (fun _ => rfl) fun _ => ?_
  refine ite_eq_none (fun _ => wideElemWord_eq_none (by omega)) fun _ => ?_
  refine ite_eq_none (fun _ => rfl) fun _ => ?_
  refine ite_eq_none (fun _ => ite_eq_none (fun _ => poleWord_eq_none (by omega)) fun _ => rfl) fun _ => ?_
  refine ite_eq_none (fun _ => rfl) fun _ => ?_
  refine ite_eq_none (fun _ => if_neg (by omega)) fun _ => ?_
  refine ite_eq_none (fun _ => rfl) fun _ => ?_
  exact ite_eq_none (fun _ => if_neg (by omega)) fun _ => rfl

/-! ### What a read shows, register group by register group -/

section
variable (s : State)

/-- A register below the arrays that CE does not own. -/
theorem readShows_low {n : Nat} {w : Word} (hm : lowRegister Config.core s n = some w) (hn : n < 0x0040 := by decide)
    (hc : ceOwned n = false := by decide) : s.readShows n w :=
  readShows_of_mapped s n w (by omega)
    ((slotElem_none_iff n).mpr fun sl k _ => by cases sl <;> simp only [spaceBase] <;> omega)
    ((if_pos hn).trans hm) hc

/-- A register below the arrays that CE owns. -/
theorem ownedReadShows_low {n : Nat} {w : Word} (hm : lowRegister Config.core s n = some w)
    (hn : n < 0x0040 := by decide) (hc : ceOwned n = true := by decide) : s.ownedReadShows n w :=
  ownedReadShows_of_mapped s n w (by omega) ((if_pos hn).trans hm) hc

/-- Both words of an `i64` register in an array. -/
theorem ownedReadShows_wide {base len k : Nat} {l : List Wide} (hk : k < len) (h0 : 0x0040 ≤ base)
    (h1 : base + 2 * len ≤ 0x0400)
    (hm : ∀ i < 2 * len, mappedWord Config.core s (base + i) = wideElemWord len i l) :
    s.ownedReadShows (base + 2 * k) ((l.getD k 0#64).extractLsb' 0 32) ∧
    s.ownedReadShows (base + 1 + 2 * k) ((l.getD k 0#64).extractLsb' 32 32) := by
  have hlow : 2 * k / 2 = k := by omega
  have hhigh : (2 * k + 1) / 2 = k := by omega
  refine ⟨ownedReadShows_array s (by omega) (by omega) ?_, ownedReadShows_array s (by omega) (by omega) ?_⟩
  · rw [hm _ (by omega), wideElemWord, hlow, if_pos hk, wideWord, if_pos (by omega)]
  · rw [show base + 1 + 2 * k = base + (2 * k + 1) by omega, hm _ (by omega), wideElemWord, hhigh, if_pos hk,
      wideWord, if_neg (by omega)]

/-- The biquad stages in the order of their addresses. -/
theorem biquadOfIndex_eq {j : Nat} {st : BiquadStage}
    (h : (j = 0 ∧ st = .highPass) ∨ (j = 1 ∧ st = .band1) ∨ (j = 2 ∧ st = .band2) ∨ (j = 3 ∧ st = .band3)) :
    biquadOfIndex s j = s.biquad st := by
  rcases h with ⟨rfl, rfl⟩ | ⟨rfl, rfl⟩ | ⟨rfl, rfl⟩ | ⟨rfl, rfl⟩ <;> rfl

/-- Word `k` of biquad stage `j`. -/
theorem ownedReadShows_biquad {j : Nat} (hj : j < 4) (k : Nat) {w : Word}
    (hw : biquadWord (biquadOfIndex s j) k = some w) (hk : k < 16 := by decide) :
    s.ownedReadShows (0x0200 + k + 16 * j) w := by
  refine ownedReadShows_array s (by omega) (by omega) ?_
  rw [show 0x0200 + k + 16 * j = 0x0200 + (16 * j + k) by omega, mappedWord_biquad s hj hk, hw]

/-- Word `k` of factor `j`. -/
theorem ownedReadShows_pole {j : Nat} (hj : j < 6) (k : Nat) {w : Word} (hw : poleWord s.poles j k = some w)
    (hk : k < 16 := by decide) : s.ownedReadShows (0x0300 + k + 16 * j) w := by
  refine ownedReadShows_array s (by omega) (by omega) ?_
  rw [show 0x0300 + k + 16 * j = 0x0300 + (16 * j + k) by omega, mappedWord_pole s hj hk, hw]

theorem ownedReadShows_res {n : Nat} (hn : n < 256) :
    s.ownedReadShows (0x0800 + n) (BitVec.ofInt 32 (s.resElem n)) := by
  rw [State.resElem, BitVec.ofInt_toInt]
  exact ownedReadShows_of_mapped s _ _ (by omega) (mappedWord_res s hn) (ceOwned_res (by omega) (by omega))

theorem readShows_outbuf {n : Nat} (hn : n < 256) :
    s.readShows (0x1800 + n) (BitVec.ofInt 32 (s.outSample n)) :=
  readShows_of_mapped s _ _ (by omega)
    ((slotElem_none_iff _).mpr fun sl k _ => by cases sl <;> simp only [spaceBase] <;> omega)
    (mappedWord_outbuf s hn) (ceOwned_above (by omega))

/-- The dispatcher's words part by part, as 10_state R48 and R29 lay them out. -/
theorem readShows_slotst : ∃ w, s.readShows 0x0005 w ∧
    (let state := fun c : BitVec 2 =>
      [SlotState.capturing, .readyForProcessing, .processing, .readyForOutput][c.toNat]?
     state (w.extractLsb' 0 2) = some s.disp.st0 ∧ state (w.extractLsb' 2 2) = some s.disp.st1) ∧
    w.extractLsb' 4 2 = BitVec.ofNat 2 s.disp.rdyq.length ∧
    (w.getLsbD 6 = true ↔ s.disp.rdyq.head? = some .one) ∧ w.getLsbD 7 = false ∧
    w.extractLsb' 8 2 = BitVec.ofNat 2 s.disp.outq.length ∧
    (w.getLsbD 10 = true ↔ s.disp.outq.head? = some .one) ∧ w.extractLsb' 11 21 = 0#21 := by
  obtain ⟨hst0, hst1, hrdyLen, hrdyHead, hgap, houtLen, houtHead, hhigh⟩ := slotstWord_extract s
  refine ⟨_, readShows_low s rfl, ⟨?_, ?_⟩, hrdyLen, ?_, ?_, houtLen, ?_, hhigh⟩
  · exact hst0 ▸ slotStateCode_toNat_getElem _
  · exact hst1 ▸ slotStateCode_toNat_getElem _
  · rw [getLsbD_of_extract hrdyHead, headBit_getLsbD]
  · rw [getLsbD_of_extract hgap]
    rfl
  · rw [getLsbD_of_extract houtHead, headBit_getLsbD]

theorem readShows_seq : ∃ w, s.readShows 0x0006 w ∧
    w.extractLsb' 0 4 = s.disp.seq ∧ (w.getLsbD 4 = true ↔ s.disp.cur = .one) ∧ w.extractLsb' 5 27 = 0#27 := by
  obtain ⟨hseq, hcur, hhigh⟩ := seqWord_extract s
  exact ⟨_, readShows_low s rfl, hseq, by rw [getLsbD_of_extract hcur, slotBit_getLsbD], hhigh⟩

end

/-- Settles O50: group by group, what the map has at an address is what a read of it shows. -/
theorem portReadsShowMapOrUnknownWord : Obligations.PortReadsShowMapOrUnknownWord := by
  intro s
  refine ⟨readShows_low s rfl, readShows_low s rfl, readShows_low s rfl,
    ⟨_, readShows_low s rfl, statusWord_getLsbD s⟩, readShows_low s rfl, readShows_slotst s, readShows_seq s,
    ⟨_, ownedReadShows_low s rfl, frFlags_word_getLsbD s.fr⟩,
    readShows_low s rfl, readShows_low s rfl, readShows_low s rfl, readShows_low s rfl,
    ⟨ownedReadShows_low s rfl, ownedReadShows_low s rfl, ⟨_, ownedReadShows_low s rfl, vowelCode_getElem _⟩,
      ⟨_, ownedReadShows_low s rfl, modeCode_getElem _⟩, flagBit_zero _ ▸ ownedReadShows_low s rfl,
      ⟨_, ownedReadShows_low s rfl, vowelCode_getElem _⟩, ownedReadShows_low s rfl⟩,
    readShows_low s rfl, readShows_low s rfl, readShows_low s rfl, readShows_low s rfl,
    ownedReadShows_low s rfl, ownedReadShows_low s rfl, ?nqf, ?remDeg, ?lpc, ?biquads, ?rs, ?poles,
    fun n hn => ⟨ownedReadShows_res s hn, readShows_outbuf s hn⟩, ?reserved⟩
  case nqf =>
    rw [BitVec.ofNat_toNat]
    exact ownedReadShows_low s rfl
  case remDeg =>
    rw [BitVec.ofNat_toNat]
    exact ownedReadShows_low s rfl
  case lpc =>
    intro k hk
    obtain ⟨hacf, ha, hrefl, haq, hrem, hnewA, hnewAQ⟩ := mappedWord_elems s (k := k) (by omega)
    obtain ⟨hlow, hhigh⟩ := ownedReadShows_wide s (base := 0x0040) (len := 13) (k := k) (by omega) (by decide)
      (by decide) fun i hi => mappedWord_acr s (by omega)
    have elem {base : Nat} {l : List Word} := ownedReadShows_elem s (base := base) (l := l) hk
    exact ⟨hlow, hhigh, elem (by decide) (by decide) hacf, elem (by decide) (by decide) ha,
      elem (by decide) (by decide) hrefl, elem (by decide) (by decide) haq, elem (by decide) (by decide) hrem,
      elem (by decide) (by decide) hnewA, elem (by decide) (by decide) hnewAQ⟩
  case biquads =>
    intro j st hst
    have shows (k : Nat) {w : Word} (hw : biquadWord (s.biquad st) k = some w) (hk : k < 16) :=
      ownedReadShows_biquad s (j := j) (by omega) k (biquadOfIndex_eq s hst ▸ hw) hk
    exact ⟨shows 0 rfl (by decide), shows 1 rfl (by decide), shows 2 rfl (by decide), shows 3 rfl (by decide),
      shows 4 rfl (by decide), shows 5 rfl (by decide), shows 6 rfl (by decide), shows 7 rfl (by decide),
      shows 8 rfl (by decide)⟩
  case rs =>
    intro k h1 hk
    exact ownedReadShows_wide s (base := 0x0280) (len := 12) (by omega) (by decide) (by decide)
      fun i hi => mappedWord_rs s (by omega)
  case poles =>
    intro j hj
    exact ⟨⟨_, ownedReadShows_pole s hj 0 rfl, kindCode_getElem _⟩, ownedReadShows_pole s hj 1 rfl,
      ownedReadShows_pole s hj 2 rfl, ownedReadShows_pole s hj 3 rfl, ownedReadShows_pole s hj 4 rfl,
      ownedReadShows_pole s hj 5 rfl, ownedReadShows_pole s hj 6 rfl, ownedReadShows_pole s hj 7 rfl,
      ownedReadShows_pole s hj 8 rfl⟩
  case reserved =>
    intro n hn hmap hslot
    exact readShows_of_reserved s n hn ((slotElem_none_iff n).mpr hslot) (mappedWord_eq_none s hmap)

end Sys2Proof.Machine

namespace Sys2Proof.Machine

/-! ## Decoding and encoding (30_encoding) -/

/-- The decoder inverts the encoder, row by row of 30_encoding R102 and R104. -/
@[simp] theorem decode_encode (i : Instr) : decode (encode i) = .ok i := by
  cases i with
  | captureDone sl => cases sl <;> rfl
  | _ => rfl

section
variable {w : Word} {code : BitVec 4} {i : Instr}

theorem decodeCommand_of_encode (h : encode i = .command w) : decodeCommand w = .ok i := by
  have hdec := decode_encode i
  rwa [h] at hdec

theorem decodeStage_of_encode (h : encode i = .stage code) : decodeStage code = .ok i := by
  have hdec := decode_encode i
  rwa [h] at hdec

/-! ### Command words (30_encoding R101 to R103) -/

/-- A command word is its reserved field, its slot bit and its opcode (30_encoding R101). -/
theorem commandWord_of_fields (w : Word) :
    w.extractLsb' 9 23 ++ w.extractLsb' 8 1 ++ w.extractLsb' 0 8 = w := by
  have hhigh : w.extractLsb' 9 23 ++ w.extractLsb' 8 1 = w.extractLsb' 8 24 :=
    BitVec.extractLsb'_append_extractLsb'_eq_extractLsb' rfl
  have hall : w.extractLsb' 8 24 ++ w.extractLsb' 0 8 = w.extractLsb' 0 32 :=
    BitVec.extractLsb'_append_extractLsb'_eq_extractLsb' rfl
  rw [hhigh, hall, BitVec.extractLsb'_eq_self]

/-- The mask of the `CAPTURE_DONE` row leaves only the slot bit open. -/
theorem eq_of_captureDone_mask (h : w &&& 0xFFFFFEFF#32 = 0x00000001#32) :
    w = if w.getLsbD 8 then 0x00000101#32 else 0x00000001#32 := by
  have hslot : w &&& 0x00000100#32 = if w.getLsbD 8 then 0x00000100#32 else 0#32 := BitVec.and_twoPow w 8
  calc w = w &&& (0xFFFFFEFF#32 ||| 0x00000100#32) := BitVec.and_allOnes.symm
    _ = 0x00000001#32 ||| (if w.getLsbD 8 then 0x00000100#32 else 0#32) := by
      rw [BitVec.and_or_distrib_left, h, hslot]
    _ = if w.getLsbD 8 then 0x00000101#32 else 0x00000001#32 := by
      split <;> rfl

/-- A word decodes to a command exactly when it is that command's encoding. -/
theorem decodeCommand_eq_ok_iff : decodeCommand w = .ok i ↔ encode i = .command w := by
  refine ⟨fun h => ?_, decodeCommand_of_encode⟩
  have hfull : w &&& 0xFFFFFFFF#32 = w := BitVec.and_allOnes
  unfold decodeCommand at h
  rw [hfull] at h
  split_ifs at h with hnop hcapture hslot hout <;> cases h
  · rw [hnop, encode]
  · rw [eq_of_captureDone_mask hcapture, if_pos hslot, encode]
  · rw [eq_of_captureDone_mask hcapture, if_neg hslot, encode]
  · rw [hout, encode]

/-- A word that is no command is refused as illegal (30_encoding R103). -/
theorem decodeCommand_eq_error_iff :
    decodeCommand w = .error .illegalCommand ↔ ¬ ∃ i, encode i = .command w := by
  simp only [← decodeCommand_eq_ok_iff]
  unfold decodeCommand
  split_ifs <;> simp

/-- Validity, field by field as 30_encoding R102 says it. -/
theorem commandValid_iff_fields : commandValid w = true ↔
    w.extractLsb' 9 23 = 0#23 ∧
    (w.extractLsb' 0 8 = 0x00#8 ∨ w.extractLsb' 0 8 = 0x01#8 ∨ w.extractLsb' 0 8 = 0x02#8) ∧
    (w.extractLsb' 0 8 ≠ 0x01#8 → w.extractLsb' 8 1 = 0#1) := by
  have hslot : commandSlotAllowed w = true ↔ (w.extractLsb' 0 8 ≠ 0x01#8 → w.extractLsb' 8 1 = 0#1) := by
    rw [commandSlotAllowed, Bool.or_eq_true, beq_iff_eq, beq_iff_eq, or_iff_not_imp_right]
  simp only [commandValid, commandReservedZero, commandOpKnown, Bool.and_eq_true, Bool.or_eq_true, beq_iff_eq, hslot,
    or_assoc, and_assoc]

/-- The fields of a valid word leave four words: opcode 1 with either slot bit, opcodes 0 and 2 with slot bit 0. -/
theorem commandValid_iff_words : commandValid w = true ↔
    w = 0x00000000#32 ∨ w = 0x00000001#32 ∨ w = 0x00000101#32 ∨ w = 0x00000002#32 := by
  constructor
  · rw [commandValid_iff_fields]
    rintro ⟨hrsv, hop, hslot⟩
    rw [← commandWord_of_fields w, hrsv]
    rcases hop with hop | hop | hop
    · rw [hop, hslot (by simp [hop])]
      decide
    · rw [hop]
      rcases BitVec.eq_zero_or_eq_one (w.extractLsb' 8 1) with h | h <;> rw [h] <;> decide
    · rw [hop, hslot (by simp [hop])]
      decide
  · rintro (rfl | rfl | rfl | rfl) <;> decide

/-- The valid words are the encodings of the commands. -/
theorem commandValid_iff_encoded : commandValid w = true ↔ ∃ i, encode i = .command w := by
  constructor
  · rw [commandValid_iff_words]
    rintro (rfl | rfl | rfl | rfl)
    exacts [⟨.nop, rfl⟩, ⟨.captureDone .zero, rfl⟩, ⟨.captureDone .one, rfl⟩, ⟨.outputReq, rfl⟩]
  · rintro ⟨i, h⟩
    have hvalid : Laws.ValidEncoding.Statement i := by
      rcases decodeCommand_cases (decodeCommand_of_encode h) with rfl | ⟨sl, rfl⟩ | rfl
      exacts [Laws.ValidEncoding.nop, Laws.ValidEncoding.captureDone sl, Laws.ValidEncoding.outputReq]
    obtain ⟨-, hcommand, -⟩ := hvalid
    exact (hcommand w h).1

/-- A word is refused as illegal exactly when it is not valid (30_encoding R103). -/
theorem commandValid_eq_false_iff : commandValid w = false ↔ decodeCommand w = .error .illegalCommand := by
  rw [decodeCommand_eq_error_iff, ← commandValid_iff_encoded, Bool.not_eq_true]

/-! ### Stage codes (30_encoding R104, R105) -/

/-- A stage's encoding is its code. -/
theorem encode_of_isStage (h : isStage i = true) : encode i = .stage (stageCode i) := by
  unfold isStage at h
  unfold stageCode
  split at h
  · next code hcode => rw [hcode]
  · cases h

/-- A code decodes to a stage exactly when it is that stage's encoding. -/
theorem decodeStage_eq_ok_iff : decodeStage code = .ok i ↔ encode i = .stage code := by
  refine ⟨fun h => ?_, decodeStage_of_encode⟩
  obtain ⟨hstage, hcode⟩ := decodeStage_isStage code i h
  rw [encode_of_isStage hstage, hcode]

/-! ### Bytes (20_memory R74) -/

/-- The bytes of an encoding, least significant first, hold all of it. -/
@[simp] theorem encodedOfBytes_bytesOfEncoded (e : Encoded) : encodedOfBytes (bytesOfEncoded e) = .ok e := by
  cases e with
  | command w =>
    have h16 : w.extractLsb' 24 8 ++ w.extractLsb' 16 8 = w.extractLsb' 16 16 :=
      BitVec.extractLsb'_append_extractLsb'_eq_extractLsb' rfl
    have h8 : w.extractLsb' 16 16 ++ w.extractLsb' 8 8 = w.extractLsb' 8 24 :=
      BitVec.extractLsb'_append_extractLsb'_eq_extractLsb' rfl
    have h0 : w.extractLsb' 8 24 ++ w.extractLsb' 0 8 = w.extractLsb' 0 32 :=
      BitVec.extractLsb'_append_extractLsb'_eq_extractLsb' rfl
    rw [bytesOfEncoded, encodedOfBytes, h16, h8, h0, BitVec.extractLsb'_eq_self]
  | stage code =>
    have hlow : (code.zeroExtend 8).extractLsb' 0 4 = code := by
      rw [BitVec.zeroExtend, BitVec.extractLsb'_setWidth_of_le (by decide), BitVec.extractLsb'_eq_self]
    rw [bytesOfEncoded, encodedOfBytes, hlow]

@[simp] theorem decodeBytes_bytesOfEncoded (e : Encoded) : decodeBytes (bytesOfEncoded e) = decode e := by
  simp only [decodeBytes, encodedOfBytes_bytesOfEncoded]

/-! ### Rows of the opcode table -/

theorem decodeTableWord_command (v : Nat) : decodeTableWord 32 v = (decodeCommand (BitVec.ofNat 32 v)).toOption := by
  have hbytes : decodeBytes (tableBytes 32 v) = decodeCommand (BitVec.ofNat 32 v) :=
    decodeBytes_bytesOfEncoded (.command (BitVec.ofNat 32 v))
  rw [decodeTableWord, hbytes]
  cases decodeCommand (BitVec.ofNat 32 v) <;> rfl

theorem decodeTableWord_stage (v : Nat) : decodeTableWord 8 v = (decodeStage (BitVec.ofNat 4 v)).toOption := by
  have hlow : (BitVec.ofNat 8 v).extractLsb' 0 4 = BitVec.ofNat 4 v := by
    apply BitVec.eq_of_toNat_eq
    simp only [BitVec.extractLsb'_toNat, BitVec.toNat_ofNat]
    omega
  have hbytes : decodeBytes (tableBytes 8 v) = decodeStage (BitVec.ofNat 4 v) := congrArg decodeStage hlow
  rw [decodeTableWord, hbytes]
  cases decodeStage (BitVec.ofNat 4 v) <;> rfl

/-- The row of a command in the opcode table holds it. -/
theorem decodeTableWord_of_encode_command {v : Nat} (h : encode i = .command (BitVec.ofNat 32 v)) :
    decodeTableWord 32 v = some i := by
  rw [decodeTableWord_command, decodeCommand_of_encode h]
  rfl

/-- The row of a stage in the opcode table holds it. -/
theorem decodeTableWord_of_encode_stage {v : Nat} (h : encode i = .stage (BitVec.ofNat 4 v)) :
    decodeTableWord 8 v = some i := by
  rw [decodeTableWord_stage, decodeStage_of_encode h]
  rfl

end

/-- Codes 14 and 15 are refused, and only these (30_encoding R105). -/
theorem stageCodeValid_eq_false_iff : ∀ code : BitVec 4,
    stageCodeValid code = false ↔ decodeStage code = .error .unreachableStageCode := by
  decide

/-- Settles O3: the four words are encodings; validity by fields leaves just these, and decoding inverts encoding. -/
theorem commandWordDecodesIffValid : Obligations.CommandWordDecodesIffValid := by
  refine ⟨decodeCommand_of_encode rfl, decodeCommand_of_encode rfl, decodeCommand_of_encode rfl,
    decodeCommand_of_encode rfl, fun w => ?_⟩
  exact ⟨commandValid_iff_fields, commandValid_iff_words, commandValid_eq_false_iff, fun _ => decodeCommand_eq_ok_iff⟩

/-- Settles O1: ten words are the encodings of their instructions; an opcode 1 with bit 9 set is not valid, nor is
code 14. -/
theorem specWordsDecode : Obligations.SpecWordsDecode := by
  have hillegal : decodeCommand (BitVec.ofNat 32 0x00000201) = .error .illegalCommand :=
    commandValid_eq_false_iff.mp (by decide)
  have hunreachable : decodeStage (BitVec.ofNat 4 0b1110) = .error .unreachableStageCode :=
    (stageCodeValid_eq_false_iff _).mp (by decide)
  refine ⟨decodeTableWord_of_encode_command rfl, decodeTableWord_of_encode_command rfl,
    decodeTableWord_of_encode_command rfl, decodeTableWord_of_encode_command rfl, ?_,
    decodeTableWord_of_encode_stage rfl, decodeTableWord_of_encode_stage rfl, decodeTableWord_of_encode_stage rfl,
    decodeTableWord_of_encode_stage rfl, decodeTableWord_of_encode_stage rfl, decodeTableWord_of_encode_stage rfl, ?_⟩
  · rw [decodeTableWord_command, hillegal]
    rfl
  · rw [decodeTableWord_stage, hunreachable]
    rfl

/-- Settles O2: the bytes give the encoding back, and the encoding the instruction, row by row. -/
theorem decodeInvertsEncode : Obligations.DecodeInvertsEncode := by
  intro i _
  exact ⟨decode_encode i, by rw [decodeBytes_bytesOfEncoded, decode_encode]⟩

/-- Settles O4: the table code by code, and decoding inverts encoding. -/
theorem stageCodeDecodesIffValid : Obligations.StageCodeDecodesIffValid := by
  refine ⟨?_, fun code => ⟨stageCodeValid_eq_false_iff code, fun _ => decodeStage_eq_ok_iff⟩⟩
  decide

end Sys2Proof.Machine

namespace Sys2Proof.Machine

-- One theorem at a time: the text as a whole stays within the memory that a check may take.
set_option Elab.async false

/-! ## The bounds of the filter state (40_numerics R127) -/

/-- A product of a 32-bit coefficient and a 16-bit sample. -/
theorem abs_coef_mul_sample_le (c : Word) {x : Int} (h : -32768 ≤ x ∧ x ≤ 32767) : |c.toInt * x| ≤ 2 ^ 46 := by
  have hc : |c.toInt| ≤ 2 ^ 31 := abs_le.mpr ⟨(toInt32_bounds c).1, (toInt32_bounds c).2.trans (by norm_num)⟩
  have hx : |x| ≤ 2 ^ 15 := abs_le.mpr ⟨h.1, h.2.trans (by norm_num)⟩
  calc |c.toInt * x| = |c.toInt| * |x| := abs_mul _ _
    _ ≤ 2 ^ 31 * 2 ^ 15 := mul_le_mul hc hx (abs_nonneg _) (by positivity)
    _ = 2 ^ 46 := by norm_num

/-- A state word within 51 bits comes back from its container. -/
theorem toInt_ofInt64_of_abs_le {v : Int} (h : |v| ≤ 2 ^ 51) : (BitVec.ofInt 64 v).toInt = v := by
  obtain ⟨h0, h1⟩ := abs_le.mp h
  exact toInt_ofInt64 v (by omega) (by omega)

/-- The bounds speak of the state words alone. -/
theorem FilterBounds.congr {s t : State} (h : FilterBounds s) (hrs : t.filt.rs = s.filt.rs)
    (hbq : ∀ st, (t.biquad st).s1 = (s.biquad st).s1 ∧ (t.biquad st).s2 = (s.biquad st).s2) : FilterBounds t where
  rs := hrs ▸ h.rs
  s1 st := by simpa only [(hbq st).1] using h.s1 st
  s2 st := by simpa only [(hbq st).2] using h.s2 st

theorem FilterBounds.of_filt_eq {s t : State} (h : FilterBounds s) (e : t.filt = s.filt) : FilterBounds t :=
  h.congr (by rw [e]) fun st => by simp only [biquad_congr e, and_self]

/-- After a `BiquadRun` the state words are sums of two and of four products, whatever they were before. -/
theorem biquadRun_words_bounded (s : State) (st : BiquadStage) :
    |((s.biquadRun Config.core st).biquad st).s1.toInt| ≤ 2 ^ 48 ∧
    |((s.biquadRun Config.core st).biquad st).s2.toInt| ≤ 2 ^ 47 := by
  obtain ⟨⟨p, q, -, -, hstep, hend⟩, -⟩ := biquadRun_spec s st
  have two_products (b a : Word) (n : Nat) :
      |b.toInt * s.cur n - a.toInt * (s.biquadRun Config.core st).cur n| ≤ 2 ^ 47 := by
    have h0 := abs_coef_mul_sample_le b (cur_bounds s n)
    have h1 := abs_coef_mul_sample_le a (cur_bounds (s.biquadRun Config.core st) n)
    rw [abs_le] at h0 h1 ⊢
    omega
  obtain ⟨-, hp, hq⟩ := hstep 255 (by norm_num)
  have hq' : q 255 = _ := (hstep 254 (by norm_num)).2.2
  have hqb : |q 256| ≤ 2 ^ 47 := hq ▸ two_products _ _ 255
  have hpb : |p 256| ≤ 2 ^ 48 := by
    have h0 := two_products (s.biquad st).coef.b1 (s.biquad st).coef.a1 255
    have h1 := two_products (s.biquad st).coef.b2 (s.biquad st).coef.a2 254
    rw [← hq'] at h1
    rw [hp]
    rw [abs_le] at h0 h1 ⊢
    omega
  rw [hend]
  simp only
  rw [toInt_ofInt64_of_abs_le (hpb.trans (by norm_num)), toInt_ofInt64_of_abs_le (hqb.trans (by norm_num))]
  exact ⟨hpb, hqb⟩

theorem biquadRun_rs (s : State) (st : BiquadStage) : (s.biquadRun Config.core st).filt.rs = s.filt.rs := by
  cases st <;> rfl

theorem FilterBounds.biquadRun {s : State} (h : FilterBounds s) (st : BiquadStage) :
    FilterBounds (s.biquadRun Config.core st) where
  rs j := by
    rw [biquadRun_rs]
    exact h.rs j
  s1 st' := by
    by_cases e : st' = st
    · rw [e]
      exact (biquadRun_words_bounded s st).1
    · rw [biquadRun_biquad_other s st st' e]
      exact h.s1 st'
  s2 st' := by
    by_cases e : st' = st
    · rw [e]
      exact (biquadRun_words_bounded s st).2
    · rw [biquadRun_biquad_other s st st' e]
      exact h.s2 st'

/-- Each output of the synthesis loop shifts the state words down and adds one product, so that word `k` stays a sum of
at most `12 - k` products. -/
theorem resynResult_state_bounded {s : State} (h : FilterBounds s) (k : Nat) :
    |(resynResult s).2.getD k 0| ≤ ((12 - k : Nat) : Int) * 2 ^ 46 := by
  have hlen := length_resynState s.filt.rs
  obtain ⟨r, hr0, hstep, hbig, -, hend⟩ := resynLoop_spec Config.core.cf (feedbackCoefs Config.core s.recon.newAQ)
    (readRes s.mem Config.core.n) (resynState Config.core s.filt.rs)
    ((length_feedbackCoefs _).trans hlen.symm) (by omega)
  rw [hlen] at hstep hbig
  have bounded (n : Nat) : n ≤ (readRes s.mem Config.core.n).length →
      ∀ k, |r n k| ≤ ((12 - k : Nat) : Int) * 2 ^ 46 := by
    induction n with
    | zero =>
      intro _ k
      rw [hr0, getD_resynState]
      split_ifs with hk
      · exact h.rs k
      · simp
    | succ n ih =>
      intro hn k
      by_cases hk : k < 12
      · have hcoef : (feedbackCoefs Config.core s.recon.newAQ).getD k 0 = (s.recon.newAQ.getD (k + 1) 0#32).toInt := by
          rw [← getD_fixedCoefs _ _ (by omega), feedbackCoefs]
          simp [List.getD]
        have hprod := abs_coef_mul_sample_le (s.recon.newAQ.getD (k + 1) 0#32)
          (resynLoop_bounds Config.core.cf (feedbackCoefs Config.core s.recon.newAQ) _
            (resynState Config.core s.filt.rs) n hn)
        have hnext := ih (by omega) (k + 1)
        rw [(hstep n hn).2 k hk, hcoef]
        rw [abs_le] at hprod hnext ⊢
        omega
      · rw [hbig _ _ (by omega)]
        simp
  rw [resynResult, hend]
  exact bounded _ le_rfl k

theorem resyn_biquad (s : State) (st : BiquadStage) : (resyn Config.core s).biquad st = s.biquad st := by
  rw [resyn_eq]
  generalize resynResult s = r
  cases st <;> rfl

theorem FilterBounds.resyn {s : State} (h : FilterBounds s) : FilterBounds (resyn Config.core s) := by
  refine ⟨fun j => ?_, fun st => by rw [resyn_biquad]; exact h.s1 st, fun st => by rw [resyn_biquad]; exact h.s2 st⟩
  have hb := resynResult_state_bounded h j
  rw [resyn_eq]
  generalize resynResult s = r at hb ⊢
  have hmap : (r.2.map (BitVec.ofInt 64)).getD j 0#64 = BitVec.ofInt 64 (r.2.getD j 0) := by
    simp only [List.getD, List.getElem?_map]
    cases r.2[j]? <;> rfl
  rw [show ((r.2.map (BitVec.ofInt 64)).getD j 0#64).toInt = r.2.getD j 0 by
    rw [hmap, toInt_ofInt64_of_abs_le (hb.trans (by omega))]]
  exact hb

/-- An instruction that is none of the three that run a filter keeps every state word. -/
theorem FilterBounds.of_filterMove {s t : State} {i : Instr} (h : FilterBounds s) (m : FilterMove s.filt i t.filt)
    (hresyn : i ≠ .resyn) (hfbank : i ≠ .fbank) (hrhpf : i ≠ .rhpf) : FilterBounds t := by
  refine h.congr (m.rs_eq hresyn) fun st => ?_
  by_cases hst : st = .highPass
  · subst hst
    simp only [State.biquad, m.highPass_eq hrhpf, and_self]
  · exact m.band_words hfbank hst

theorem FilterBounds.perform {s : State} (h : FilterBounds s) (i : Instr) : FilterBounds (perform Config.core i s) := by
  by_cases hresyn : i = .resyn
  · subst hresyn
    exact h.resyn
  by_cases hfbank : i = .fbank
  · subst hfbank
    exact (((h.biquadRun .band1).biquadRun .band2).biquadRun .band3).of_filt_eq rfl
  by_cases hrhpf : i = .rhpf
  · subst hrhpf
    exact (h.biquadRun .highPass).of_filt_eq rfl
  exact h.of_filterMove (perform_filterMove i s) hresyn hfbank hrhpf

/-- All state words are 0 after reset. -/
theorem filterBounds_reset : FilterBounds State.reset where
  rs j := by
    have h : State.reset.filt.rs.getD j 0#64 = 0#64 := by
      show (List.replicate 12 0#64).getD j 0#64 = 0#64
      rw [List.getD_eq_getElem?_getD, List.getElem?_replicate]
      split_ifs <;> rfl
    rw [h]
    simp
  s1 st := by cases st <;> decide
  s2 st := by cases st <;> decide

/-- Settles O14: a step leaves the filter store alone, or starts it again from reset, or performs an instruction, and no
instruction takes a state word beyond its bound. -/
theorem stepKeepsFilterStateBounded : Obligations.StepKeepsFilterStateBounded := by
  intro s t h hstep
  have hd : FilterBounds (s.dropEvents 1) := h.of_filt_eq rfl
  rcases step_cases s t hstep with ⟨-, i, -, ht⟩ | ⟨-, -, i, -, ht⟩ | ⟨a, -, -, rfl⟩ | ⟨a, w, -, -, -, rfl⟩ |
    ⟨-, -, -, -, -, ⟨i, -, ht⟩ | ⟨-, rfl⟩⟩ | ⟨-, -, rfl⟩
  · exact eq_perform_of_exec ht ▸ h.perform i
  · exact eq_perform_of_exec ht ▸ hd.perform i
  · exact hd.of_filt_eq (sameRegisters_portRead a _).filt
  · exact hd.of_filt_eq (portStore_filt a w _)
  · exact eq_perform_of_exec ht ▸ hd.perform i
  · exact hd.of_filt_eq rfl
  · exact filterBounds_reset.of_filt_eq rfl

/-! ## Rounding right shifts (40_numerics R121, R124) -/

/-- Within one half of the exact quotient, and even where exactly one half off: the floor is taken when the remainder is
below one half, the integer above it when the remainder is beyond, and the even one of the two between. -/
theorem rneShr_nearest (v : Int) (s : Nat) :
    |2 * (rneShr v s * 2 ^ s - v)| ≤ 2 ^ s ∧ (|2 * (rneShr v s * 2 ^ s - v)| = 2 ^ s → rneShr v s % 2 = 0) := by
  have hd : (0 : Int) < 2 ^ s := by positivity
  have hv := Int.ediv_mul_add_emod v (2 ^ s)
  have hr0 := Int.emod_nonneg v hd.ne'
  have hr1 := Int.emod_lt_of_pos v hd
  have hup : (v / 2 ^ s + 1) * 2 ^ s - v = 2 ^ s - v % 2 ^ s := by linarith
  have hdown : v / 2 ^ s * 2 ^ s - v = -(v % 2 ^ s) := by linarith
  simp only [rneShr]
  split_ifs with h
  · rw [hup, abs_of_nonneg (by omega)]
    omega
  · rw [hdown, abs_of_nonpos (by omega)]
    omega

/-- No other integer is as near and, on a tie, even. -/
theorem rneShr_eq_of_nearest {n v : Int} {s : Nat} (hn : |2 * (n * 2 ^ s - v)| ≤ 2 ^ s)
    (htie : |2 * (n * 2 ^ s - v)| = 2 ^ s → n % 2 = 0) : rneShr v s = n := by
  have hd : (0 : Int) < 2 ^ s := by positivity
  obtain ⟨hm, htie'⟩ := rneShr_nearest v s
  have key (i j : Int) (hi : |2 * (i * 2 ^ s - v)| ≤ 2 ^ s) (hti : |2 * (i * 2 ^ s - v)| = 2 ^ s → i % 2 = 0)
      (hj : |2 * (j * 2 ^ s - v)| ≤ 2 ^ s) (htj : |2 * (j * 2 ^ s - v)| = 2 ^ s → j % 2 = 0) : ¬ i < j := by
    intro hlt
    have hgap : (2 : Int) ^ s ≤ j * 2 ^ s - i * 2 ^ s := by nlinarith
    obtain ⟨hi0, -⟩ := abs_le.mp hi
    obtain ⟨-, hj1⟩ := abs_le.mp hj
    have hieven := hti (by rw [abs_of_nonpos] <;> omega)
    have hjeven := htj (by rw [abs_of_nonneg] <;> omega)
    have : 2 * (2 : Int) ^ s ≤ j * 2 ^ s - i * 2 ^ s := by nlinarith [show i + 2 ≤ j by omega]
    omega
  exact le_antisymm (not_lt.mp (key _ _ hn htie hm htie')) (not_lt.mp (key _ _ hm htie' hn htie))

theorem rneShr_neg (v : Int) (s : Nat) : rneShr (-v) s = -rneShr v s := by
  obtain ⟨hnear, htie⟩ := rneShr_nearest v s
  have e : |2 * (-rneShr v s * 2 ^ s - -v)| = |2 * (rneShr v s * 2 ^ s - v)| := by
    rw [← abs_neg]
    congr 1
    ring
  exact rneShr_eq_of_nearest (e ▸ hnear) fun h => by
    have := htie (e ▸ h)
    omega

/-- Settles O56: nearest and even on a tie by the remainder, and odd because the nearest integer is unique. -/
theorem rneShrRoundsToNearestEven : Obligations.RneShrRoundsToNearestEven := fun v s =>
  ⟨(rneShr_nearest v s).1, fun h _ => (rneShr_nearest v s).2 h, rneShr_neg v s⟩

theorem rhuShr_add_mul (x v : Int) (s : Nat) : rhuShr (x * 2 ^ s + v) s = x + rhuShr v s := by
  rw [rhuShr, rhuShr, add_assoc, add_comm, Int.add_mul_ediv_right _ _ (by positivity), add_comm]

theorem rhdShr_add_mul (x v : Int) (s : Nat) : rhdShr (x * 2 ^ s + v) s = x + rhdShr v s := by
  rw [rhdShr, rhdShr, show x * 2 ^ s + v + 2 ^ (s - 1) - 1 = v + 2 ^ (s - 1) - 1 + x * 2 ^ s by ring,
    Int.add_mul_ediv_right _ _ (by positivity), add_comm]

/-- The shift with ties down is the mirror image of the one with ties up. -/
theorem rhdShr_eq_neg_rhuShr (v : Int) {s : Nat} (hs : 1 ≤ s) : rhdShr v s = -rhuShr (-v) s := by
  obtain ⟨k, rfl⟩ := Nat.exists_eq_add_of_le' hs
  have hh : (0 : Int) < 2 ^ k := by positivity
  have hd : (0 : Int) < 2 ^ (k + 1) := by positivity
  have hdh : (2 : Int) ^ (k + 1) = 2 * 2 ^ k := pow_succ' 2 k
  rw [rhdShr, rhuShr, Nat.add_sub_cancel]
  have hlow := Int.ediv_mul_le (-v + 2 ^ k) hd.ne'
  have hhigh := Int.lt_ediv_add_one_mul_self (-v + 2 ^ k) hd
  apply le_antisymm
  · rw [← Int.lt_add_one_iff, Int.ediv_lt_iff_lt_mul hd]
    linarith
  · rw [Int.le_ediv_iff_mul_le hd]
    linarith

theorem floor_intCast_div_two_pow (v : Int) (s : Nat) : ⌊(v : ℚ) / 2 ^ s⌋ = v / 2 ^ s := by
  simpa using Rat.floor_intCast_div_natCast v (2 ^ s)

/-- Settles O57: a multiple of `2 ^ s` goes through either shift, and the two roundings of what is left are each other's
negatives. -/
theorem complementaryShiftsCancel : Obligations.ComplementaryShiftsCancel := by
  intro x v s hs
  refine ⟨?_, ?_, rhdShr_eq_neg_rhuShr v hs, ?_⟩
  · rw [rhuShr, ← floor_intCast_div_two_pow]
    push_cast
    rfl
  · rw [rhdShr, ← floor_intCast_div_two_pow]
    push_cast
    rfl
  · rw [rhuShr_add_mul, sub_eq_add_neg, rhdShr_add_mul, rhdShr_eq_neg_rhuShr (-v) hs, neg_neg]
    exact add_neg_cancel_right x _

/-! ## Saturation and conversion to fixed point (40_numerics R122, R135) -/

theorem sat_of_lt {width : Nat} {v : Int} (h : v < -2 ^ (width - 1)) : sat width v = -2 ^ (width - 1) := if_pos h

theorem sat_of_gt {width : Nat} {v : Int} (h : 2 ^ (width - 1) - 1 < v) : sat width v = 2 ^ (width - 1) - 1 := by
  have hp : (0 : Int) < 2 ^ (width - 1) := by positivity
  rw [sat, if_neg (by omega), if_pos h]

/-- The mantissa of a pattern under its sign. -/
def signedMant (a : F32) : Int := if fSign a then -(fMant a : Int) else fMant a

theorem fValue_eq_signedMant (a : F32) : fValue a = (signedMant a : ℚ) * 2 ^ fExpo a := by
  rw [fValue, signedMant]
  split_ifs <;> push_cast <;> ring

/-- The rounding shift as a statement about the exact quotient. -/
theorem rneShr_nearest_quotient (v : Int) (s : Nat) :
    |(rneShr v s : ℚ) - v / 2 ^ s| ≤ 1 / 2 ∧ (|(rneShr v s : ℚ) - v / 2 ^ s| = 1 / 2 → rneShr v s % 2 = 0) := by
  obtain ⟨hnear, htie⟩ := rneShr_nearest v s
  have hd : (0 : ℚ) < 2 ^ s := by positivity
  have e : |(rneShr v s : ℚ) - v / 2 ^ s| = (|2 * (rneShr v s * 2 ^ s - v)| : Int) / (2 * 2 ^ s) := by
    rw [show (rneShr v s : ℚ) - v / 2 ^ s = 2 * (rneShr v s * 2 ^ s - v) / (2 * 2 ^ s) by field_simp, abs_div,
      abs_of_pos (show (0 : ℚ) < 2 * 2 ^ s by positivity)]
    push_cast
    rfl
  rw [e]
  refine ⟨?_, fun h => htie ?_⟩
  · rw [div_le_div_iff₀ (by positivity) (by norm_num)]
    have : ((|2 * (rneShr v s * 2 ^ s - v)| : Int) : ℚ) ≤ 2 ^ s := by exact_mod_cast hnear
    linarith
  · rw [div_eq_div_iff (by positivity) (by norm_num)] at h
    have : ((|2 * (rneShr v s * 2 ^ s - v)| : Int) : ℚ) = 2 ^ s := by linarith
    exact_mod_cast this

/-- The scaled value of a finite pattern is an integer, or is rounded once. -/
theorem fScaled_nearest (a : F32) (f : Nat) :
    |(fScaled a f : ℚ) - fValue a * 2 ^ f| ≤ 1 / 2 ∧
    (|(fScaled a f : ℚ) - fValue a * 2 ^ f| = 1 / 2 → fScaled a f % 2 = 0) := by
  have hv : fValue a * 2 ^ f = (signedMant a : ℚ) * 2 ^ (fExpo a + f) := by
    rw [fValue_eq_signedMant, mul_assoc, zpow_add₀ two_ne_zero, zpow_natCast]
  have hs : fScaled a f = if 0 ≤ fExpo a + f then signedMant a * 2 ^ (fExpo a + f).toNat
      else rneShr (signedMant a) (-(fExpo a + f)).toNat := rfl
  rw [hv, hs]
  split_ifs with he
  · lift fExpo a + f to Nat using he with n
    simp
  · lift -(fExpo a + f) to Nat using by omega with n hn
    rw [show fExpo a + f = -(n : Int) by omega, zpow_neg, zpow_natCast, ← div_eq_mul_inv, Int.toNat_natCast]
    exact rneShr_nearest_quotient _ _

theorem f2fix_of_isNaN {v : F32} (h : isNaN v = true) (f width : Nat) : f2fix v f width = 0 := if_pos h

theorem f2fix_of_isFinite {v : F32} (h : isFinite v = true) (f width : Nat) :
    f2fix v f width = sat width (fScaled v f) := by
  simp only [isFinite, bne_iff_ne, ne_eq] at h
  rw [f2fix, if_neg (by simp [isNaN, h]), if_neg (by simp [isInf, h])]

/-- Settles O59: the ends and the middle of saturation, and the scaled value rounded once. -/
theorem saturationAndFixedPointConversion : Obligations.SaturationAndFixedPointConversion := by
  refine ⟨fun width v => ⟨sat_of_lt, sat_of_gt, sat_of_mem width v⟩, fun v f width => ?_⟩
  refine ⟨fun h => f2fix_of_isNaN h f width, ?_, ?_, fun h => ?_⟩
  · rintro rfl
    rfl
  · rintro rfl
    rfl
  · exact ⟨fScaled v f, f2fix_of_isFinite h f width, fScaled_nearest v f⟩

/-! ## Patterns as numbers (40_numerics R130) -/

/-! ### The sign bit and the rest -/

theorem toNat_fMag (a : F32) : (fMag a).toNat = a.toNat % 2 ^ 31 := by
  rw [fMag, BitVec.toNat_and, show (0x7FFFFFFF#32 : F32).toNat = 2 ^ 31 - 1 from rfl, Nat.and_two_pow_sub_one_eq_mod]

theorem toNat_fMag_lt (a : F32) : (fMag a).toNat < 2 ^ 31 := by
  rw [toNat_fMag]
  exact Nat.mod_lt _ (by norm_num)

theorem fSign_iff (a : F32) : fSign a = true ↔ 2 ^ 31 ≤ a.toNat := by
  rw [fSign, BitVec.msb_eq_decide, decide_eq_true_iff]

theorem toNat_withSign (neg : Bool) {m : F32} (h : m.toNat < 2 ^ 31) :
    (withSign neg m).toNat = (if neg = true then 2 ^ 31 else 0) + m.toNat := by
  cases neg
  · simp [withSign]
  · rw [withSign, if_pos rfl, if_pos rfl, BitVec.toNat_or, Nat.or_comm,
      show (0x80000000#32 : F32).toNat = 2 ^ 31 * 1 from rfl, ← Nat.two_pow_add_eq_or_of_lt h, Nat.mul_one]

/-- A pattern is its sign bit and the rest. -/
theorem withSign_fSign_fMag (a : F32) : withSign (fSign a) (fMag a) = a := by
  apply BitVec.eq_of_toNat_eq
  have ha := a.isLt
  rw [toNat_withSign _ (toNat_fMag_lt a), toNat_fMag]
  split_ifs with h <;> rw [fSign_iff] at h <;> omega

theorem fSign_withSign (neg : Bool) {m : F32} (h : m.toNat < 2 ^ 31) : fSign (withSign neg m) = neg := by
  rw [Bool.eq_iff_iff, fSign_iff, toNat_withSign neg h]
  cases neg with
  | false => simpa using h
  | true => simp

theorem fMag_withSign (neg : Bool) {m : F32} (h : m.toNat < 2 ^ 31) : fMag (withSign neg m) = m := by
  apply BitVec.eq_of_toNat_eq
  rw [toNat_fMag, toNat_withSign neg h]
  split_ifs <;> omega

theorem eq_of_fSign_of_fMag {a b : F32} (hs : fSign a = fSign b) (hm : fMag a = fMag b) : a = b := by
  rw [← withSign_fSign_fMag a, ← withSign_fSign_fMag b, hs, hm]

/-! ### Classes of patterns -/

theorem fExpField_eq (a : F32) : fExpField a = (fMag a).toNat / 2 ^ 23 := by
  rw [fExpField, toNat_fMag]
  omega

theorem fFrac_eq (a : F32) : fFrac a = (fMag a).toNat % 2 ^ 23 := by
  rw [fFrac, toNat_fMag]
  omega

theorem fMag_flipSign (a : F32) : fMag (a ^^^ 0x80000000#32) = fMag a := by
  have he := fExpField_flipSign a
  have hf := fFrac_flipSign a
  rw [fExpField_eq, fExpField_eq] at he
  rw [fFrac_eq, fFrac_eq] at hf
  apply BitVec.eq_of_toNat_eq
  omega

theorem flipSign_withSign (neg : Bool) {m : F32} (h : m.toNat < 2 ^ 31) :
    withSign neg m ^^^ 0x80000000#32 = withSign (!neg) m := by
  apply eq_of_fSign_of_fMag
  · rw [fSign_flipSign, fSign_withSign _ h, fSign_withSign _ h]
  · rw [fMag_flipSign, fMag_withSign _ h, fMag_withSign _ h]

theorem isFinite_iff (a : F32) : isFinite a = true ↔ (fMag a).toNat < 0x7F800000 := by
  have h := toNat_fMag_lt a
  rw [isFinite, bne_iff_ne, fExpField_eq]
  omega

theorem isNaN_iff (a : F32) : isNaN a = true ↔ 0x7F800000 < (fMag a).toNat := by
  have h := toNat_fMag_lt a
  simp only [isNaN, Bool.and_eq_true, beq_iff_eq, bne_iff_ne, fExpField_eq, fFrac_eq]
  omega

theorem isInf_iff (a : F32) : isInf a = true ↔ (fMag a).toNat = 0x7F800000 := by
  have h := toNat_fMag_lt a
  simp only [isInf, Bool.and_eq_true, beq_iff_eq, fExpField_eq, fFrac_eq]
  omega

theorem isZero_iff (a : F32) : isZero a = true ↔ (fMag a).toNat = 0 := by
  have h := toNat_fMag_lt a
  simp only [isZero, Bool.and_eq_true, beq_iff_eq, fExpField_eq, fFrac_eq]
  omega

/-! ### The value of a magnitude -/

/-- The number a magnitude pattern stands for; that of infinity comes out as `2 ^ 128`, the value after the largest. -/
def magValue (n : Nat) : ℚ :=
  if n / 2 ^ 23 = 0 then n * 2 ^ (-149 : Int) else ((n % 2 ^ 23 + 2 ^ 23 : Nat) : ℚ) * 2 ^ ((n / 2 ^ 23 : Nat) - 150 : Int)

theorem fValue_eq_magValue (a : F32) : fValue a = (if fSign a = true then -1 else 1) * magValue (fMag a).toNat := by
  have hfrac : (fMag a).toNat / 2 ^ 23 = 0 → fFrac a = (fMag a).toNat := by
    rw [fFrac_eq]
    omega
  rw [fValue, mul_assoc, magValue, fMant, fExpo, fExpField_eq]
  split_ifs with hs he he
  · rw [hfrac he]
  · rw [fFrac_eq]
  · rw [hfrac he]
  · rw [fFrac_eq]

/-- The patterns of one exponent, and the first of the next, are equally spaced; `k` counts the exponents from the
subnormal one. -/
theorem magValue_add {k sig : Nat} (h : k = 0 ∨ 2 ^ 23 ≤ sig) (hsig : sig ≤ 2 ^ 24) :
    magValue (k * 2 ^ 23 + sig) = sig * 2 ^ (k - 149 : Int) := by
  have next (j : Nat) : ((2 ^ 23 : Nat) : ℚ) * 2 ^ (((j + 2 : Nat) : Int) - 150) = ((2 ^ 24 : Nat) : ℚ) * 2 ^ (j - 149 : Int) := by
    rw [show ((j + 2 : Nat) : Int) - 150 = (j - 149) + 1 by push_cast; ring, zpow_add_one₀ two_ne_zero]
    push_cast
    ring
  rcases hsig.eq_or_lt with rfl | hlt
  · rw [magValue, show (k * 2 ^ 23 + 2 ^ 24) / 2 ^ 23 = k + 2 by omega, if_neg (by omega),
      show (k * 2 ^ 23 + 2 ^ 24) % 2 ^ 23 = 0 by omega, Nat.zero_add, next]
  · by_cases hs : sig < 2 ^ 23
    · obtain rfl : k = 0 := by omega
      rw [magValue, if_pos (by omega)]
      simp
    · rw [magValue, show (k * 2 ^ 23 + sig) / 2 ^ 23 = k + 1 by omega, if_neg (by omega),
        show (k * 2 ^ 23 + sig) % 2 ^ 23 + 2 ^ 23 = sig by omega]
      congr 2
      push_cast
      ring

/-- Every magnitude is of that form. -/
theorem exists_exponent_significand (n : Nat) :
    ∃ k sig, (k = 0 ∨ 2 ^ 23 ≤ sig) ∧ sig < 2 ^ 24 ∧ n = k * 2 ^ 23 + sig :=
  ⟨n / 2 ^ 23 - 1, n - (n / 2 ^ 23 - 1) * 2 ^ 23, by omega, by omega, by omega⟩

theorem magValue_strictMono : StrictMono magValue := by
  refine strictMono_nat_of_lt_succ fun n => ?_
  obtain ⟨k, sig, h, hsig, rfl⟩ := exists_exponent_significand n
  rw [magValue_add h hsig.le, add_assoc, magValue_add (by omega) hsig]
  have : (0 : ℚ) < 2 ^ (k - 149 : Int) := by positivity
  exact mul_lt_mul_of_pos_right (by exact_mod_cast Nat.lt_succ_self sig) this

@[simp] theorem magValue_zero : magValue 0 = 0 := by simp [magValue]

theorem magValue_nonneg (n : Nat) : 0 ≤ magValue n := by
  rw [← magValue_zero]
  exact magValue_strictMono.monotone (Nat.zero_le n)

theorem magValue_inf : magValue 0x7F800000 = 2 ^ 128 := by
  norm_num [magValue]

/-! ### Values and the sign bit -/

theorem fValue_flipSign (a : F32) : fValue (a ^^^ 0x80000000#32) = -fValue a := by
  rw [fValue_eq_magValue, fValue_eq_magValue, fSign_flipSign, fMag_flipSign]
  cases fSign a <;> simp

theorem isFinite_flipSign (a : F32) : isFinite (a ^^^ 0x80000000#32) = isFinite a := by
  rw [Bool.eq_iff_iff, isFinite_iff, isFinite_iff, fMag_flipSign]

theorem abs_fValue (a : F32) : |fValue a| = magValue (fMag a).toNat := by
  rw [fValue_eq_magValue, abs_mul, abs_of_nonneg (magValue_nonneg _)]
  split_ifs <;> simp

theorem fValue_eq_zero_iff (a : F32) : fValue a = 0 ↔ isZero a = true := by
  rw [← abs_eq_zero, abs_fValue, isZero_iff, ← magValue_zero, magValue_strictMono.injective.eq_iff]

/-! ## Correct rounding (40_numerics R131) -/

/-! ### `RoundsTo` -/

theorem magValue_le_of_isFinite {a : F32} (h : isFinite a = true) : magValue (fMag a).toNat ≤ 2 ^ 128 - 2 ^ 104 := by
  have hmax : magValue 0x7F7FFFFF = 2 ^ 128 - 2 ^ 104 := by norm_num [magValue]
  rw [← hmax]
  exact magValue_strictMono.monotone (by have := (isFinite_iff a).mp h; omega)

theorem abs_fValue_real_lt {a : F32} (h : isFinite a = true) : |(fValue a : ℝ)| < 2 ^ 128 - 2 ^ 103 := by
  have hle : |fValue a| < 2 ^ 128 - 2 ^ 103 :=
    (abs_fValue a ▸ magValue_le_of_isFinite h).trans_lt (by norm_num)
  exact_mod_cast hle

/-- A value that is a binary32 rounds to itself, whatever the sign of a zero. -/
theorem roundsTo_of_eq {x : ℝ} {r : F32} (h : isFinite r = true) (e : (fValue r : ℝ) = x) : RoundsTo x r := by
  subst e
  refine ⟨fun hbig => absurd (abs_fValue_real_lt h) (not_lt.mpr hbig), fun _ => ⟨h, fun g _ => ?_⟩⟩
  rw [sub_self, abs_zero]
  refine ⟨abs_nonneg _, fun heq hne => absurd ?_ hne⟩
  exact_mod_cast sub_eq_zero.mp (abs_eq_zero.mp heq)

/-- What rounds to a value that is a binary32 has this value. -/
theorem RoundsTo.eq_of_exact {x : ℝ} {r g : F32} (h : RoundsTo x r) (hg : isFinite g = true) (e : (fValue g : ℝ) = x) :
    isFinite r = true ∧ fValue r = fValue g := by
  subst e
  obtain ⟨hr, hnear⟩ := h.2 (abs_fValue_real_lt hg)
  have hle := (hnear g hg).1
  rw [sub_self, abs_zero] at hle
  refine ⟨hr, ?_⟩
  exact_mod_cast sub_eq_zero.mp (abs_eq_zero.mp (le_antisymm hle (abs_nonneg _)))

/-- Rounding is odd: flipping the sign bit of a pattern mirrors all values. -/
theorem RoundsTo.neg {x : ℝ} {r : F32} (h : RoundsTo x r) : RoundsTo (-x) (r ^^^ 0x80000000#32) := by
  obtain ⟨hbig, hnear⟩ := h
  have mirror (a : ℝ) (y : ℝ) : |-a - -y| = |a - y| := by
    rw [← abs_neg]
    congr 1
    ring
  refine ⟨fun hx => ?_, fun hx => ?_⟩
  · rw [abs_neg] at hx
    rw [hbig hx]
    rcases lt_trichotomy x 0 with hneg | rfl | hpos
    · rw [if_pos hneg, if_neg (by linarith)]
      rfl
    · norm_num at hx
    · rw [if_neg (by linarith), if_pos (by linarith)]
      rfl
  · rw [abs_neg] at hx
    obtain ⟨hr, hg⟩ := hnear hx
    refine ⟨by rw [isFinite_flipSign, hr], fun g hgf => ?_⟩
    have hg' := hg (g ^^^ 0x80000000#32) (by rw [isFinite_flipSign, hgf])
    have hval : (fValue g : ℝ) = -(fValue (g ^^^ 0x80000000#32) : ℝ) := by
      rw [fValue_flipSign]
      push_cast
      ring
    have hlsb : (r ^^^ 0x80000000#32).getLsbD 0 = r.getLsbD 0 := by simp
    rw [hval, fValue_flipSign r, hlsb, Rat.cast_neg, mirror, mirror]
    exact ⟨hg'.1, fun ht hne => hg'.2 ht fun he => hne (by rw [← he, fValue_flipSign, neg_neg])⟩

/-! ### Rounding to the patterns of one exponent -/

/-- The distance of the patterns of exponent `k`, counted from the subnormal one. -/
noncomputable def spacing (k : Nat) : ℝ := 2 ^ (k - 149 : Int)

theorem spacing_pos (k : Nat) : 0 < spacing k := by
  unfold spacing
  positivity

theorem spacing_mono {j k : Nat} (h : j ≤ k) : spacing j ≤ spacing k :=
  zpow_le_zpow_right₀ (by norm_num) (by omega)

/-- `sig` is the integer nearest to `x / spacing k`, the even one on a tie, where the spacing of the patterns around `x`
is that of exponent `k`. -/
structure NearestOnGrid (x : ℝ) (k sig : Nat) : Prop where
  nonneg : 0 ≤ x
  low : k = 0 ∨ 2 ^ 23 * spacing k ≤ x
  high : x < 2 ^ 24 * spacing k
  near : |sig * spacing k - x| ≤ spacing k / 2
  tie : |sig * spacing k - x| = spacing k / 2 → sig % 2 = 0

/-- The magnitude pattern of these bits, infinity in place of all beyond. -/
def patternOrInf (bits : Nat) : F32 := if 0x7F800000 ≤ bits then 0x7F800000#32 else BitVec.ofNat 32 bits

theorem toNat_patternOrInf (bits : Nat) : (patternOrInf bits).toNat = min bits 0x7F800000 := by
  rw [patternOrInf]
  split_ifs with h
  · rw [min_eq_right h]
    rfl
  · rw [BitVec.toNat_ofNat, min_eq_left (by omega)]
    omega

theorem toNat_patternOrInf_lt (bits : Nat) : (patternOrInf bits).toNat < 2 ^ 31 := by
  rw [toNat_patternOrInf]
  omega

theorem fMag_patternOrInf (bits : Nat) : (fMag (patternOrInf bits)).toNat = min bits 0x7F800000 := by
  rw [toNat_fMag, Nat.mod_eq_of_lt (toNat_patternOrInf_lt bits), toNat_patternOrInf]

theorem fValue_patternOrInf (bits : Nat) : fValue (patternOrInf bits) = magValue (min bits 0x7F800000) := by
  have hs : fSign (patternOrInf bits) = false := fSign_withSign false (toNat_patternOrInf_lt bits)
  rw [fValue_eq_magValue, hs, fMag_patternOrInf]
  simp

/-- Every magnitude is a multiple of a spacing or lies below the patterns that have it. -/
theorem magValue_grid_or_below (n k : Nat) :
    (∃ j : Nat, (magValue n : ℝ) = j * spacing k) ∨ k ≠ 0 ∧ (magValue n : ℝ) < 2 ^ 23 * spacing k := by
  obtain ⟨i, sig, h, hsig, rfl⟩ := exists_exponent_significand n
  have hv : (magValue (i * 2 ^ 23 + sig) : ℝ) = sig * spacing i := by
    rw [magValue_add h hsig.le, spacing]
    push_cast
    rfl
  rw [hv]
  by_cases hik : k ≤ i
  · refine .inl ⟨sig * 2 ^ (i - k), ?_⟩
    rw [spacing, spacing, show (i - 149 : Int) = ((i - k : Nat) : Int) + (k - 149) by omega, zpow_add₀ two_ne_zero,
      zpow_natCast]
    push_cast
    ring
  · refine .inr ⟨by omega, ?_⟩
    have hnext : 2 * spacing i ≤ spacing k := by
      have : spacing (i + 1) = 2 * spacing i := by
        rw [spacing, spacing, show ((i + 1 : Nat) : Int) - 149 = (i - 149) + 1 by push_cast; ring,
          zpow_add_one₀ two_ne_zero, mul_comm]
      rw [← this]
      exact spacing_mono (by omega)
    have hsig' : (sig : ℝ) < 2 ^ 24 := by exact_mod_cast hsig
    nlinarith [spacing_pos i]

section
variable {x : ℝ} {k sig : Nat}

/-- The significand has 24 bits, or is the first of the next exponent. -/
theorem NearestOnGrid.sig_range (h : NearestOnGrid x k sig) : (k = 0 ∨ 2 ^ 23 ≤ sig) ∧ sig ≤ 2 ^ 24 := by
  have hu := spacing_pos k
  obtain ⟨h0, h1⟩ := abs_le.mp h.near
  refine ⟨h.low.imp id fun hlow => ?_, ?_⟩
  · have : ((2 ^ 23 : Nat) : ℝ) < (sig + 1 : Nat) := by
      push_cast
      nlinarith
    have : 2 ^ 23 < sig + 1 := by exact_mod_cast this
    omega
  · have : (sig : ℝ) < (2 ^ 24 + 1 : Nat) := by
      push_cast
      nlinarith [h.high]
    have : sig < 2 ^ 24 + 1 := by exact_mod_cast this
    omega

theorem NearestOnGrid.magValue_eq (h : NearestOnGrid x k sig) :
    (magValue (k * 2 ^ 23 + sig) : ℝ) = sig * spacing k := by
  rw [magValue_add h.sig_range.1 h.sig_range.2, spacing]
  push_cast
  rfl

/-- Any other multiple of the spacing is at least half of it away. -/
theorem NearestOnGrid.half_spacing_le (h : NearestOnGrid x k sig) {j : Nat} (hj : j ≠ sig) :
    spacing k / 2 ≤ |j * spacing k - x| := by
  have hu := spacing_pos k
  have hgap : (1 : ℝ) ≤ |(j : ℝ) - sig| := by
    have : (1 : Int) ≤ |(j : Int) - sig| := Int.one_le_abs (by omega)
    exact_mod_cast this
  have htri : |(j : ℝ) - sig| * spacing k ≤ |j * spacing k - x| + |sig * spacing k - x| := by
    calc |(j : ℝ) - sig| * spacing k = |(j - sig) * spacing k| := by rw [abs_mul, abs_of_pos hu]
      _ = |(j * spacing k - x) - (sig * spacing k - x)| := by ring_nf
      _ ≤ |j * spacing k - x| + |sig * spacing k - x| := abs_sub _ _
  nlinarith [h.near]

/-- No magnitude is nearer, and one as near leaves an even significand. -/
theorem NearestOnGrid.le_magValue (h : NearestOnGrid x k sig) (n : Nat) :
    |sig * spacing k - x| ≤ |magValue n - x| ∧
    (|magValue n - x| = |sig * spacing k - x| → (magValue n : ℝ) ≠ sig * spacing k → sig % 2 = 0) := by
  rcases magValue_grid_or_below n k with ⟨j, hj⟩ | ⟨hk, hlt⟩
  · rw [hj]
    rcases eq_or_ne j sig with rfl | hne
    · exact ⟨le_rfl, fun _ hn => absurd rfl hn⟩
    · have hhalf := h.half_spacing_le hne
      exact ⟨h.near.trans hhalf, fun heq _ => h.tie (le_antisymm h.near (heq ▸ hhalf))⟩
  · have hlow := h.low.resolve_left hk
    have hfirst : |sig * spacing k - x| ≤ |((2 ^ 23 : Nat) : ℝ) * spacing k - x| := by
      rcases eq_or_ne (2 ^ 23) sig with he | hne
      · rw [he]
      · exact h.near.trans (h.half_spacing_le hne)
    rw [show ((2 ^ 23 : Nat) : ℝ) = 2 ^ 23 by norm_num] at hfirst
    rw [abs_of_nonpos (by linarith : (2 : ℝ) ^ 23 * spacing k - x ≤ 0)] at hfirst
    rw [abs_of_nonpos (by linarith : (magValue n : ℝ) - x ≤ 0)]
    exact ⟨by linarith, fun heq _ => by linarith⟩

/-- Infinity is reached exactly from half a last place above the largest finite value on. -/
theorem NearestOnGrid.overflow_iff (h : NearestOnGrid x k sig) :
    0x7F800000 ≤ k * 2 ^ 23 + sig ↔ 2 ^ 128 - 2 ^ 103 ≤ x := by
  obtain ⟨hlow, hhigh⟩ := h.sig_range
  obtain ⟨h0, h1⟩ := abs_le.mp h.near
  rcases lt_trichotomy k 253 with hk | rfl | hk
  · have hu : spacing k ≤ 2 ^ 103 := (spacing_mono (show k ≤ 252 by omega)).trans (by norm_num [spacing])
    have := h.high
    exact iff_of_false (by omega) (by linarith)
  · have hu : spacing 253 = 2 ^ 104 := by norm_num [spacing]
    rw [hu] at h0 h1
    rcases hhigh.eq_or_lt with rfl | hlt
    · exact iff_of_true (by omega) (by linarith)
    · refine iff_of_false (by omega) fun hx => ?_
      have hsig : (sig : ℝ) ≤ 2 ^ 24 - 1 := by
        have : (sig : ℝ) + 1 ≤ 2 ^ 24 := by exact_mod_cast hlt
        linarith
      have heq : (sig : ℝ) = 2 ^ 24 - 1 := le_antisymm hsig (by linarith)
      have htie := h.tie (by rw [hu, heq, abs_of_nonpos] <;> linarith)
      have : sig = 2 ^ 24 - 1 := by
        have : (sig : ℝ) = (2 ^ 24 - 1 : Nat) := by rw [heq]; norm_num
        exact_mod_cast this
      omega
  · have hu : 2 ^ 105 ≤ spacing k := le_trans (by norm_num [spacing]) (spacing_mono (show 254 ≤ k by omega))
    have := h.low.resolve_left (by omega)
    exact iff_of_true (by omega) (by linarith)

/-- The bits of exponent and significand, added so that a carry goes on to the next exponent, are the pattern that `x`
rounds to. -/
theorem NearestOnGrid.roundsTo (h : NearestOnGrid x k sig) : RoundsTo x (patternOrInf (k * 2 ^ 23 + sig)) := by
  refine ⟨fun hx => ?_, fun hx => ?_⟩
  · rw [abs_of_nonneg h.nonneg] at hx
    rw [patternOrInf, if_pos (h.overflow_iff.mpr hx), if_neg (not_lt.mpr h.nonneg)]
  · rw [abs_of_nonneg h.nonneg, ← not_le, ← h.overflow_iff, not_le] at hx
    have hval : (fValue (patternOrInf (k * 2 ^ 23 + sig)) : ℝ) = sig * spacing k := by
      rw [fValue_patternOrInf, min_eq_left hx.le, h.magValue_eq]
    have heven : sig % 2 = 0 → (patternOrInf (k * 2 ^ 23 + sig)).getLsbD 0 = false := fun he => by
      rw [BitVec.getLsbD, toNat_patternOrInf, min_eq_left hx.le, Nat.testBit_zero]
      simp
      omega
    refine ⟨by rwa [isFinite_iff, fMag_patternOrInf, min_eq_left hx.le], fun g _ => ?_⟩
    rw [← (Rat.cast_injective (α := ℝ)).ne_iff, hval]
    obtain ⟨hle, htie⟩ := h.le_magValue (fMag g).toNat
    rcases hs : fSign g with _ | _
    · have hg : (fValue g : ℝ) = magValue (fMag g).toNat := by
        rw [fValue_eq_magValue, hs]
        simp
      rw [hg]
      exact ⟨hle, fun heq hne => heven (htie heq hne)⟩
    · have hg : (fValue g : ℝ) = -magValue (fMag g).toNat := by
        rw [fValue_eq_magValue, hs]
        simp
      have hv : (0 : ℝ) ≤ magValue (fMag g).toNat := by exact_mod_cast magValue_nonneg _
      have hx0 := h.nonneg
      obtain ⟨hle0, htie0⟩ := h.le_magValue 0
      rw [magValue_zero, Rat.cast_zero, zero_sub, abs_neg, abs_of_nonneg hx0] at hle0 htie0
      rw [hg, abs_of_nonpos (a := -(magValue (fMag g).toNat : ℝ) - x) (by linarith)]
      refine ⟨by linarith, fun heq hne => ?_⟩
      have hv0 : (magValue (fMag g).toNat : ℝ) = 0 := by linarith
      rw [hv0, neg_zero] at hne heq
      exact heven (htie0 (by linarith) hne)

end

/-! ### Rounding an exact value, or one known up to its last bit -/

/-- `m * 2 ^ e` stands for `x`: it is `x`, or `m` has bits enough and its last bit 1 says that `x` lies strictly
between the neighbours of `m * 2 ^ e`. -/
def StandsFor (m : Nat) (e : Int) (x : ℝ) : Prop :=
  x = m * 2 ^ e ∨ m % 2 = 1 ∧ 2 ^ 25 ≤ m ∧ ((m : ℝ) - 1) * 2 ^ e < x ∧ x < ((m : ℝ) + 1) * 2 ^ e

/-- An odd `m` is no tie of a shift by two places or more, nor is anything between its neighbours. -/
theorem near_of_between {m n : Int} {s : Nat} {t : ℝ} (hs : 2 ≤ s) (hodd : m % 2 = 1)
    (h0 : (m : ℝ) - 1 < t) (h1 : t < m + 1) (h : |2 * (n * 2 ^ s - m)| ≤ 2 ^ s) :
    2 * |(n : ℝ) * 2 ^ s - t| < 2 ^ s := by
  obtain ⟨c, rfl⟩ := Nat.exists_eq_add_of_le' hs
  have hint : |n * 2 ^ (c + 2) - m| ≤ 2 * 2 ^ c - 1 := by
    rw [show n * 2 ^ (c + 2) = 4 * (n * 2 ^ c) by ring] at h ⊢
    rw [show (2 : Int) ^ (c + 2) = 4 * 2 ^ c by ring] at h
    rw [abs_le] at h ⊢
    omega
  have hreal : |(n : ℝ) * 2 ^ (c + 2) - m| ≤ 2 * 2 ^ c - 1 := by exact_mod_cast hint
  have hpow : (2 : ℝ) ^ (c + 2) = 4 * 2 ^ c := by ring
  rw [hpow] at hreal ⊢
  have : |(n : ℝ) * (4 * 2 ^ c) - t| < 2 * 2 ^ c := by
    rw [abs_le] at hreal
    rw [abs_lt]
    constructor <;> linarith
  linarith

/-- The value rounded lies in the binade of `m`. -/
theorem StandsFor.binade {m : Nat} {e : Int} {x : ℝ} (h : StandsFor m e x) (hm : m ≠ 0) :
    (2 : ℝ) ^ (Nat.log2 m + e : Int) ≤ x ∧ x < 2 ^ (Nat.log2 m + e + 1 : Int) := by
  have he : (0 : ℝ) < 2 ^ e := by positivity
  have hlow := Nat.log2_self_le hm
  have hhigh : m < 2 ^ (Nat.log2 m + 1) := Nat.lt_log2_self
  rw [show (Nat.log2 m + e + 1 : Int) = ((Nat.log2 m + 1 : Nat) : Int) + e by push_cast; ring, zpow_add₀ two_ne_zero,
    zpow_add₀ two_ne_zero, zpow_natCast, zpow_natCast]
  rcases h with rfl | ⟨hodd, hbits, h0, h1⟩
  · exact ⟨mul_le_mul_of_nonneg_right (by exact_mod_cast hlow) he.le,
      mul_lt_mul_of_pos_right (by exact_mod_cast hhigh) he⟩
  · have hlog : Nat.log2 m ≠ 0 := fun h0 => by
      rw [h0] at hhigh
      omega
    have heven : 2 ^ Nat.log2 m % 2 = 0 := by
      obtain ⟨j, hj⟩ := Nat.exists_eq_succ_of_ne_zero hlog
      rw [hj, pow_succ]
      omega
    have hlow' : (2 : ℝ) ^ Nat.log2 m ≤ m - 1 := by
      have : 2 ^ Nat.log2 m + 1 ≤ m := by omega
      have : (2 : ℝ) ^ Nat.log2 m + 1 ≤ m := by exact_mod_cast this
      linarith
    have hhigh' : (m : ℝ) + 1 ≤ 2 ^ (Nat.log2 m + 1) := by exact_mod_cast hhigh
    exact ⟨(mul_le_mul_of_nonneg_right hlow' he.le).trans h0.le,
      h1.trans_le (mul_le_mul_of_nonneg_right hhigh' he.le)⟩

/-- The significand that `roundMag` computes. -/
def roundedSig (m : Nat) (e : Int) : Nat :=
  if lastPlace m e ≤ e then m <<< (e - lastPlace m e).toNat else (rneShr (m : Int) (lastPlace m e - e).toNat).toNat

theorem roundMag_eq {m : Nat} (hm : m ≠ 0) (e : Int) :
    roundMag m e = patternOrInf ((lastPlace m e + 149).toNat * 2 ^ 23 + roundedSig m e) := by
  rw [roundMag, if_neg hm, patternOrInf, ← Nat.shiftLeft_eq]
  rfl

theorem spacing_lastPlace (m : Nat) (e : Int) : spacing (lastPlace m e + 149).toNat = 2 ^ lastPlace m e := by
  have : -149 ≤ lastPlace m e := le_max_right _ _
  rw [spacing]
  congr 1
  omega

theorem rneShr_nonneg {v : Int} (h : 0 ≤ v) (s : Nat) : 0 ≤ rneShr v s := by
  have : 0 ≤ v / 2 ^ s := Int.ediv_nonneg h (by positivity)
  simp only [rneShr]
  split_ifs <;> omega

/-- The significand is the nearest to what `m * 2 ^ e` stands for. -/
theorem StandsFor.roundedSig_near {m : Nat} {e : Int} {x : ℝ} (h : StandsFor m e x) :
    |roundedSig m e * 2 ^ lastPlace m e - x| ≤ 2 ^ lastPlace m e / 2 ∧
    (|roundedSig m e * 2 ^ lastPlace m e - x| = 2 ^ lastPlace m e / 2 → roundedSig m e % 2 = 0) := by
  have hu : (0 : ℝ) < 2 ^ lastPlace m e := by positivity
  have hlog : e + Nat.log2 m - 23 ≤ lastPlace m e := le_max_left _ _
  have hbig : 2 ^ 25 ≤ m → 25 ≤ Nat.log2 m := fun hm => (Nat.le_log2 (by omega)).mpr hm
  rw [roundedSig]
  split_ifs with hle
  · rcases h with rfl | ⟨-, hm, -⟩
    · have hexact : ((m <<< (e - lastPlace m e).toNat : Nat) : ℝ) * 2 ^ lastPlace m e = m * 2 ^ e := by
        rw [Nat.shiftLeft_eq, Nat.cast_mul, Nat.cast_pow, Nat.cast_ofNat, mul_assoc, ← zpow_natCast (2 : ℝ),
          ← zpow_add₀ two_ne_zero]
        congr 2
        omega
      rw [hexact, sub_self, abs_zero]
      exact ⟨by positivity, fun heq => by linarith⟩
    · have := hbig hm
      omega
  · obtain ⟨s, hs⟩ : ∃ s : Nat, lastPlace m e = s + e := ⟨(lastPlace m e - e).toNat, by omega⟩
    have he : (0 : ℝ) < 2 ^ e := by positivity
    obtain ⟨hnear, htie⟩ := rneShr_nearest m s
    obtain ⟨n, hn⟩ := Int.eq_ofNat_of_zero_le (rneShr_nonneg (Int.natCast_nonneg m) s)
    rw [hs, show ((s : Int) + e - e).toNat = s by omega, hn, Int.toNat_natCast, zpow_add₀ two_ne_zero, zpow_natCast]
    rw [hn] at hnear htie
    rcases h with rfl | ⟨hodd, hm, h0, h1⟩
    · have e1 : |(n : ℝ) * (2 ^ s * 2 ^ e) - m * 2 ^ e| = (|2 * ((n : Int) * 2 ^ s - m)| : Int) * (2 ^ e / 2) := by
        rw [show (n : ℝ) * (2 ^ s * 2 ^ e) - m * 2 ^ e = 2 * (n * 2 ^ s - m) * (2 ^ e / 2) by ring, abs_mul,
          abs_of_pos (show (0 : ℝ) < 2 ^ e / 2 by positivity)]
        push_cast
        rfl
      rw [e1, show (2 : ℝ) ^ s * 2 ^ e / 2 = 2 ^ s * (2 ^ e / 2) by ring]
      refine ⟨mul_le_mul_of_nonneg_right (by exact_mod_cast hnear) (by positivity), fun heq => ?_⟩
      have := mul_right_cancel₀ (show (2 : ℝ) ^ e / 2 ≠ 0 by positivity) heq
      have := htie (by exact_mod_cast this)
      omega
    · have hs2 : 2 ≤ s := by
        have := hbig hm
        omega
      have hlt := near_of_between (t := x / 2 ^ e) hs2 (m := m) (n := n) (by omega)
        (by rwa [lt_div_iff₀ he, Int.cast_natCast]) (by rwa [div_lt_iff₀ he, Int.cast_natCast]) hnear
      have e1 : |(n : ℝ) * (2 ^ s * 2 ^ e) - x| = |(n : ℝ) * 2 ^ s - x / 2 ^ e| * 2 ^ e := by
        rw [← abs_of_pos he, ← abs_mul, abs_of_pos he]
        congr 1
        field_simp
      rw [Int.cast_natCast] at hlt
      rw [e1]
      exact ⟨by nlinarith, fun heq => by nlinarith⟩

/-- `roundMag` rounds what `m * 2 ^ e` stands for to the patterns of the right exponent. -/
theorem StandsFor.nearestOnGrid {m : Nat} {e : Int} {x : ℝ} (h : StandsFor m e x) (hm : m ≠ 0) :
    NearestOnGrid x (lastPlace m e + 149).toNat (roundedSig m e) := by
  obtain ⟨hlow, hhigh⟩ := h.binade hm
  obtain ⟨hnear, htie⟩ := h.roundedSig_near
  have hmax : lastPlace m e = max (e + Nat.log2 m - 23) (-149) := rfl
  refine ⟨le_trans (by positivity) hlow, ?_, ?_, spacing_lastPlace m e ▸ hnear, spacing_lastPlace m e ▸ htie⟩
  · by_cases hsub : lastPlace m e = -149
    · exact .inl (by omega)
    · refine .inr (le_trans (le_of_eq ?_) hlow)
      rw [spacing_lastPlace, ← zpow_natCast, ← zpow_add₀ two_ne_zero]
      congr 1
      omega
  · refine hhigh.trans_le ?_
    rw [spacing_lastPlace, ← zpow_natCast, ← zpow_add₀ two_ne_zero]
    exact zpow_le_zpow_right₀ (by norm_num) (by omega)

theorem roundMag_zero (e : Int) : roundMag 0 e = 0#32 := if_pos rfl

theorem toNat_roundMag_lt (m : Nat) (e : Int) : (roundMag m e).toNat < 2 ^ 31 := by
  by_cases hm : m = 0
  · rw [hm, roundMag_zero]
    decide
  · rw [roundMag_eq hm]
    exact toNat_patternOrInf_lt _

theorem fSign_roundDyadic (neg : Bool) (m : Nat) (e : Int) : fSign (roundDyadic neg m e) = neg :=
  fSign_withSign neg (toNat_roundMag_lt m e)

theorem StandsFor.roundsTo_roundMag {m : Nat} {e : Int} {x : ℝ} (h : StandsFor m e x) : RoundsTo x (roundMag m e) := by
  by_cases hm : m = 0
  · subst hm
    obtain rfl : x = 0 := by
      rcases h with h | ⟨hodd, -⟩
      · simpa using h
      · omega
    rw [roundMag_zero]
    exact roundsTo_of_eq (by decide) (by simp [fValue, fMant, fFrac, fExpField])
  · rw [roundMag_eq hm]
    exact (h.nearestOnGrid hm).roundsTo

/-- `roundDyadic` rounds correctly. -/
theorem StandsFor.roundsTo {m : Nat} {e : Int} {x : ℝ} (h : StandsFor m e x) (neg : Bool) :
    RoundsTo (if neg = true then -x else x) (roundDyadic neg m e) := by
  cases neg with
  | false => exact h.roundsTo_roundMag
  | true =>
    rw [roundDyadic, show true = !false from rfl, ← flipSign_withSign _ (toNat_roundMag_lt m e)]
    exact h.roundsTo_roundMag.neg

/-! ### Exact values -/

/-- What fits a significand is a magnitude: a short one is doubled until it is long enough or the exponent is the
subnormal one. -/
theorem exists_magValue_eq (k : Nat) : ∀ m : Nat, m ≤ 2 ^ 24 → k ≤ 252 →
    ∃ n < 0x7F800000, magValue n = m * 2 ^ (k - 149 : Int) := by
  induction k with
  | zero => exact fun m hm _ => ⟨0 * 2 ^ 23 + m, by omega, magValue_add (.inl rfl) hm⟩
  | succ k ih =>
    intro m hm hk
    by_cases hlong : 2 ^ 23 ≤ m
    · exact ⟨(k + 1) * 2 ^ 23 + m, by omega, magValue_add (.inr hlong) hm⟩
    · obtain ⟨n, hn, hv⟩ := ih (2 * m) (by omega) (by omega)
      refine ⟨n, hn, hv.trans ?_⟩
      rw [show ((k + 1 : Nat) : Int) - 149 = (k - 149) + 1 by push_cast; ring, zpow_add_one₀ two_ne_zero]
      push_cast
      ring

theorem exists_fValue_eq {i : Int} (hi : |i| ≤ 2 ^ 24) {k : Nat} (hk : k ≤ 252) :
    ∃ g, isFinite g = true ∧ fValue g = i * 2 ^ (k - 149 : Int) := by
  obtain ⟨n, hn, hv⟩ := exists_magValue_eq k i.natAbs (by rw [Int.abs_eq_natAbs] at hi; omega) hk
  have hnat : (BitVec.ofNat 32 n).toNat = n := by
    rw [BitVec.toNat_ofNat]
    omega
  have hlt : (BitVec.ofNat 32 n).toNat < 2 ^ 31 := by omega
  refine ⟨withSign (decide (i < 0)) (BitVec.ofNat 32 n), ?_, ?_⟩
  · rw [isFinite_iff, fMag_withSign _ hlt, hnat]
    exact hn
  · rw [fValue_eq_magValue, fSign_withSign _ hlt, fMag_withSign _ hlt, hnat, hv, Nat.cast_natAbs, Int.cast_abs]
    rcases lt_or_ge i 0 with h | h
    · rw [if_pos (decide_eq_true h), abs_of_neg (by exact_mod_cast h)]
      ring
    · rw [if_neg (by simpa using h), abs_of_nonneg (by exact_mod_cast h), one_mul]

/-! ## The operations on finite operands (40_numerics R131) -/

theorem isNaN_of_isFinite {a : F32} (h : isFinite a = true) : isNaN a = false := by
  rw [← Bool.not_eq_true, isNaN_iff]
  rw [isFinite_iff] at h
  omega

theorem isInf_of_isFinite {a : F32} (h : isFinite a = true) : isInf a = false := by
  rw [← Bool.not_eq_true, isInf_iff]
  rw [isFinite_iff] at h
  omega

theorem fMant_lt (a : F32) : fMant a < 2 ^ 24 := by
  have : fFrac a < 2 ^ 23 := Nat.mod_lt _ (by norm_num)
  rw [fMant]
  split_ifs <;> omega

theorem fMant_eq_zero_iff (a : F32) : fMant a = 0 ↔ isZero a = true := by
  rw [fMant, isZero, Bool.and_eq_true, beq_iff_eq, beq_iff_eq]
  by_cases h : fExpField a = 0
  · rw [if_pos h, and_iff_right h]
  · rw [if_neg h]
    exact iff_of_false (Nat.add_pos_right _ (Nat.two_pow_pos 23)).ne' fun h' => h h'.1

/-- The value of a pattern as a sign and a magnitude. -/
theorem fValue_real (a : F32) :
    (fValue a : ℝ) = if fSign a = true then -((fMant a : ℝ) * 2 ^ fExpo a) else (fMant a : ℝ) * 2 ^ fExpo a := by
  rw [fValue]
  split_ifs <;> push_cast <;> ring

/-- `fneg` of what is no NaN is the pattern with its sign bit flipped. -/
theorem fneg_of_isNaN_eq_false {a : F32} (h : isNaN a = false) : fneg a = a ^^^ 0x80000000#32 := by
  rw [fneg, h, if_neg (by decide)]

/-- An integer times a power of two is rounded correctly. -/
theorem roundsTo_roundDyadic_int (v e : Int) :
    RoundsTo ((v : ℝ) * 2 ^ e) (roundDyadic (decide (v < 0)) v.natAbs e) := by
  have h := StandsFor.roundsTo (m := v.natAbs) (e := e) (.inl rfl) (decide (v < 0))
  rw [Nat.cast_natAbs, Int.cast_abs] at h
  rcases lt_or_ge v 0 with hv | hv
  · rw [decide_eq_true hv] at h ⊢
    rwa [if_pos rfl, abs_of_neg (by exact_mod_cast hv), neg_mul, neg_neg] at h
  · rw [decide_eq_false (not_lt.mpr hv)] at h ⊢
    rwa [if_neg (by decide), abs_of_nonneg (by exact_mod_cast hv)] at h

section
variable {a b : F32}

/-! ### Sum and difference -/

theorem fadd_of_isFinite (ha : isFinite a = true) (hb : isFinite b = true) :
    fadd a b = if exactSum a b = 0 then withSign (fSign a && fSign b) 0#32
      else roundDyadic (decide (exactSum a b < 0)) (exactSum a b).natAbs (min (fExpo a) (fExpo b)) := by
  simp only [fadd, isNaN_of_isFinite ha, isNaN_of_isFinite hb, isInf_of_isFinite ha, isInf_of_isFinite hb, Bool.or_self,
    Bool.false_eq_true, if_false]

/-- The sum is an integer in units of the smaller of the two exponents. -/
theorem fValue_add (a b : F32) : fValue a + fValue b = exactSum a b * 2 ^ min (fExpo a) (fExpo b) := by
  have shifted (c : F32) (e : Int) (he : e ≤ fExpo c) :
      fValue c = ((if fSign c = true then -((fMant c <<< (fExpo c - e).toNat : Nat) : Int)
        else ((fMant c <<< (fExpo c - e).toNat : Nat) : Int) : Int) : ℚ) * 2 ^ e := by
    obtain ⟨n, hn⟩ : ∃ n : Nat, fExpo c = n + e := ⟨(fExpo c - e).toNat, by omega⟩
    rw [fValue, hn, show ((n : Int) + e - e).toNat = n by omega, zpow_add₀ two_ne_zero, zpow_natCast, Nat.shiftLeft_eq]
    split_ifs <;> push_cast <;> ring
  rw [shifted a _ (min_le_left (fExpo a) (fExpo b)), shifted b _ (min_le_right (fExpo a) (fExpo b)), ← add_mul, exactSum]
  push_cast
  rfl

theorem fadd_eq_zero (ha : isFinite a = true) (hb : isFinite b = true) (h : fValue a + fValue b = 0) :
    fadd a b = withSign (fSign a && fSign b) 0#32 := by
  rw [fValue_add, mul_eq_zero, or_iff_left (zpow_ne_zero _ two_ne_zero)] at h
  rw [fadd_of_isFinite ha hb, if_pos (by exact_mod_cast h)]

theorem roundsTo_zero (neg : Bool) : RoundsTo 0 (withSign neg 0#32) := by
  refine roundsTo_of_eq (by cases neg <;> decide) ?_
  rw [Rat.cast_eq_zero, fValue_eq_zero_iff]
  cases neg <;> decide

theorem roundsTo_fadd (ha : isFinite a = true) (hb : isFinite b = true) :
    RoundsTo ((fValue a : ℝ) + fValue b) (fadd a b) := by
  have hsum : (fValue a : ℝ) + fValue b = (exactSum a b : ℝ) * 2 ^ min (fExpo a) (fExpo b) := by
    rw [← Rat.cast_add, fValue_add]
    push_cast
    rfl
  rw [fadd_of_isFinite ha hb, hsum]
  split_ifs with h
  · rw [h, Int.cast_zero, zero_mul]
    exact roundsTo_zero _
  · exact roundsTo_roundDyadic_int _ _

theorem fsub_of_isFinite (hb : isFinite b = true) : fsub a b = fadd a (b ^^^ 0x80000000#32) := by
  rw [fsub, fneg_of_isNaN_eq_false (isNaN_of_isFinite hb)]

theorem roundsTo_fsub (ha : isFinite a = true) (hb : isFinite b = true) :
    RoundsTo ((fValue a : ℝ) - fValue b) (fsub a b) := by
  have h := roundsTo_fadd ha ((isFinite_flipSign b).trans hb)
  rwa [fValue_flipSign, Rat.cast_neg, ← sub_eq_add_neg, ← fsub_of_isFinite hb] at h

theorem fsub_eq_zero (ha : isFinite a = true) (hb : isFinite b = true) (h : fValue a - fValue b = 0) :
    fsub a b = withSign (fSign a && !fSign b) 0#32 := by
  rw [fsub_of_isFinite hb, ← fSign_flipSign]
  exact fadd_eq_zero ha ((isFinite_flipSign b).trans hb) (by rw [fValue_flipSign, ← sub_eq_add_neg, h])

/-! ### Product -/

theorem fmul_of_isFinite (ha : isFinite a = true) (hb : isFinite b = true) :
    fmul a b = roundDyadic (fSign a != fSign b) (fMant a * fMant b) (fExpo a + fExpo b) := by
  simp only [fmul, isNaN_of_isFinite ha, isNaN_of_isFinite hb, isInf_of_isFinite ha, isInf_of_isFinite hb, Bool.or_self,
    Bool.false_eq_true, if_false]

theorem roundsTo_fmul (ha : isFinite a = true) (hb : isFinite b = true) :
    RoundsTo ((fValue a : ℝ) * fValue b) (fmul a b) := by
  have h := StandsFor.roundsTo (m := fMant a * fMant b) (e := fExpo a + fExpo b) (.inl rfl) (fSign a != fSign b)
  rw [fmul_of_isFinite ha hb]
  convert h using 1
  rw [fValue_real, fValue_real, zpow_add₀ two_ne_zero]
  push_cast
  cases fSign a <;> cases fSign b <;> simp <;> ring

/-! ### Quotient -/

/-- The quotient with its sticky last bit. -/
def stickyQuotient (m d : Nat) : Nat :=
  2 * ((m <<< 50) / d) + if (m <<< 50) % d = 0 then 0 else 1

theorem fdiv_of_isFinite (ha : isFinite a = true) (hb : isFinite b = true) (hz : isZero b = false) :
    fdiv a b = roundDyadic (fSign a != fSign b) (stickyQuotient (fMant a) (fMant b)) (fExpo a - fExpo b - 51) := by
  simp only [fdiv, isNaN_of_isFinite ha, isNaN_of_isFinite hb, isInf_of_isFinite ha, isInf_of_isFinite hb, hz, Bool.or_self,
    Bool.false_eq_true, if_false, stickyQuotient]

/-- A floor doubled, with a last bit that says whether anything was cut off, stands for the number it is the floor of. -/
theorem standsFor_sticky {n : Nat} {e : Int} {t : ℝ} {sticky : Prop} [Decidable sticky] (hexact : sticky → t = n)
    (hbits : ¬ sticky → 2 ^ 24 ≤ n) (hbetween : ¬ sticky → (n : ℝ) < t ∧ t < n + 1) :
    StandsFor (2 * n + if sticky then 0 else 1) e (t * (2 : ℝ) ^ (e + 1)) := by
  have he : (0 : ℝ) < 2 ^ e := by positivity
  rw [zpow_add_one₀ two_ne_zero]
  split_ifs with h
  · left
    rw [hexact h]
    push_cast
    ring
  · obtain ⟨h0, h1⟩ := hbetween h
    have := hbits h
    refine .inr ⟨by omega, by omega, ?_, ?_⟩ <;> push_cast <;> nlinarith

theorem standsFor_stickyQuotient {m d : Nat} (hd : d ≠ 0) (hd' : d < 2 ^ 24) (e : Int) :
    StandsFor (stickyQuotient m d) (e - 51) ((m : ℝ) / d * (2 : ℝ) ^ e) := by
  have hdpos : (0 : ℝ) < d := by exact_mod_cast Nat.pos_of_ne_zero hd
  have hq : (m : ℝ) / d * (2 : ℝ) ^ e = ((m <<< 50 : Nat) : ℝ) / d * (2 : ℝ) ^ (e - 51 + 1) := by
    have hpow : (2 : ℝ) ^ e = 2 ^ 50 * 2 ^ (e - 51 + 1) := by
      rw [← zpow_natCast, ← zpow_add₀ two_ne_zero]
      congr 1
      push_cast
      ring
    rw [hpow, Nat.shiftLeft_eq]
    push_cast
    ring
  have hlow : m ≠ 0 → 2 ^ 24 * d ≤ m <<< 50 := fun hm => by
    calc 2 ^ 24 * d ≤ 2 ^ 24 * 2 ^ 26 := Nat.mul_le_mul_left _ (by omega)
      _ ≤ m * 2 ^ 50 := Nat.le_mul_of_pos_left _ (Nat.pos_of_ne_zero hm)
      _ = m <<< 50 := (Nat.shiftLeft_eq _ _).symm
  have hzero : m = 0 → m <<< 50 = 0 := fun hm => by rw [hm, Nat.zero_shiftLeft]
  rw [hq, stickyQuotient]
  generalize m <<< 50 = n at *
  have hdiv := Nat.div_add_mod n d
  have hrem := Nat.mod_lt n (Nat.pos_of_ne_zero hd)
  rw [Nat.mul_comm] at hdiv
  refine standsFor_sticky (fun h => ?_) (fun h => ?_) fun h => ?_
  · rw [div_eq_iff hdpos.ne']
    rw [h, Nat.add_zero] at hdiv
    exact_mod_cast hdiv.symm
  · rw [Nat.le_div_iff_mul_le (Nat.pos_of_ne_zero hd)]
    exact hlow fun hm => h (by rw [hzero hm, Nat.zero_mod])
  · rw [lt_div_iff₀ hdpos, div_lt_iff₀ hdpos]
    constructor
    · have : n / d * d < n := by omega
      exact_mod_cast this
    · have : n < (n / d + 1) * d := by
        rw [Nat.add_one_mul]
        omega
      exact_mod_cast this

theorem roundsTo_fdiv (ha : isFinite a = true) (hb : isFinite b = true) (hz : isZero b = false) :
    RoundsTo ((fValue a : ℝ) / fValue b) (fdiv a b) := by
  have hb0 : fMant b ≠ 0 := fun h0 => by simp [(fMant_eq_zero_iff b).mp h0] at hz
  have h := (standsFor_stickyQuotient (m := fMant a) hb0 (fMant_lt b) (fExpo a - fExpo b)).roundsTo (fSign a != fSign b)
  rw [fdiv_of_isFinite ha hb hz]
  convert h using 1
  rw [fValue_real, fValue_real, zpow_sub₀ two_ne_zero]
  cases fSign a <;> cases fSign b <;> simp <;> field_simp

/-! ### Root -/

/-- Each bit is kept exactly when the root so far stays below the root of `n`. -/
theorem isqrtFrom_spec (n : Nat) : ∀ k r : Nat, r * r ≤ n → n < (r + 2 ^ k) * (r + 2 ^ k) →
    isqrtFrom n k r * isqrtFrom n k r ≤ n ∧ n < (isqrtFrom n k r + 1) * (isqrtFrom n k r + 1)
  | 0, r, hlow, hhigh => ⟨hlow, by rwa [pow_zero] at hhigh⟩
  | k + 1, r, hlow, hhigh => by
    rw [isqrtFrom]
    split_ifs with hbit
    · exact isqrtFrom_spec n k _ hbit (by rwa [pow_succ', two_mul, ← add_assoc] at hhigh)
    · exact isqrtFrom_spec n k r hlow (not_le.mp hbit)

theorem isqrtFrom_eq_sqrt {n k : Nat} (h : n < 2 ^ (2 * k)) : isqrtFrom n k 0 = Nat.sqrt n := by
  obtain ⟨hlow, hhigh⟩ := isqrtFrom_spec n k 0 (Nat.zero_le _) (by rwa [Nat.zero_add, ← pow_add, ← two_mul])
  exact Nat.eq_sqrt.mpr ⟨hlow, hhigh⟩

/-- The mantissa and exponent of a pattern with the exponent made even. -/
def evenMant (a : F32) : Nat := if fExpo a % 2 = 1 then 2 * fMant a else fMant a

def evenExpo (a : F32) : Int := if fExpo a % 2 = 1 then fExpo a - 1 else fExpo a

theorem evenMant_mul (a : F32) : (evenMant a : ℝ) * (2 : ℝ) ^ evenExpo a = (fMant a : ℝ) * (2 : ℝ) ^ fExpo a := by
  rw [evenMant, evenExpo]
  split_ifs with h
  · rw [zpow_sub_one₀ two_ne_zero]
    push_cast
    ring
  · rfl

theorem two_mul_half_evenExpo (a : F32) : 2 * (evenExpo a / 2) = evenExpo a := by
  rw [evenExpo]
  split_ifs <;> omega

/-- The root with its sticky last bit. -/
def stickyRoot (n : Nat) : Nat := 2 * Nat.sqrt n + if Nat.sqrt n * Nat.sqrt n = n then 0 else 1

theorem fsqrt_of_isFinite (ha : isFinite a = true) (hs : fSign a = false) (hz : isZero a = false) :
    fsqrt a = roundDyadic false (stickyRoot (evenMant a <<< 60)) (evenExpo a / 2 - 31) := by
  have hlt : evenMant a <<< 60 < 2 ^ (2 * 43) := by
    have := fMant_lt a
    rw [Nat.shiftLeft_eq, evenMant]
    split_ifs <;> omega
  rw [stickyRoot, ← isqrtFrom_eq_sqrt hlt]
  simp only [fsqrt, isNaN_of_isFinite ha, isInf_of_isFinite ha, hz, hs, Bool.false_eq_true, if_false]
  rfl

theorem standsFor_stickyRoot {m : Nat} (hm : m ≠ 0) (e : Int) :
    StandsFor (stickyRoot (m <<< 60)) (e - 31) (√(m : ℝ) * (2 : ℝ) ^ e) := by
  have hroot : √(m : ℝ) * (2 : ℝ) ^ e = √((m <<< 60 : Nat) : ℝ) * (2 : ℝ) ^ (e - 31 + 1) := by
    have hpow : (2 : ℝ) ^ e = 2 ^ 30 * 2 ^ (e - 31 + 1) := by
      rw [← zpow_natCast, ← zpow_add₀ two_ne_zero]
      congr 1
      push_cast
      ring
    have hsq : ((m <<< 60 : Nat) : ℝ) = m * (2 ^ 30) ^ 2 := by
      rw [Nat.shiftLeft_eq]
      push_cast
      norm_num
    rw [hpow, hsq, Real.sqrt_mul (Nat.cast_nonneg m), Real.sqrt_sq (by positivity), mul_assoc]
  have hlow : 2 ^ 24 * 2 ^ 24 ≤ m <<< 60 := by
    calc 2 ^ 24 * 2 ^ 24 ≤ 2 ^ 60 := by norm_num
      _ ≤ m * 2 ^ 60 := Nat.le_mul_of_pos_left _ (Nat.pos_of_ne_zero hm)
      _ = m <<< 60 := (Nat.shiftLeft_eq _ _).symm
  rw [hroot, stickyRoot]
  generalize m <<< 60 = n at *
  refine standsFor_sticky (fun h => ?_) (fun _ => Nat.le_sqrt.mpr hlow) fun h => ⟨?_, ?_⟩
  · have : (n : ℝ) = Nat.sqrt n * Nat.sqrt n := by exact_mod_cast h.symm
    rw [this, Real.sqrt_mul_self (Nat.cast_nonneg _)]
  · rw [Real.lt_sqrt (Nat.cast_nonneg _), sq]
    exact_mod_cast (Nat.sqrt_le n).lt_of_ne h
  · rw [Real.sqrt_lt' (by positivity), sq]
    exact_mod_cast Nat.lt_succ_sqrt n

theorem fsqrt_of_isZero (h : isZero a = true) : fsqrt a = a := by
  have hnan : isNaN a = false := isNaN_of_isFinite <| by
    rw [isZero_iff] at h
    rw [isFinite_iff]
    omega
  rw [fsqrt, hnan, if_neg (by decide), if_pos h]

theorem roundsTo_fsqrt (ha : isFinite a = true) (hs : fSign a = false) : RoundsTo (√(fValue a : ℝ)) (fsqrt a) := by
  cases hz : isZero a with
  | true =>
    rw [fsqrt_of_isZero hz]
    refine roundsTo_of_eq ha ?_
    rw [(fValue_eq_zero_iff a).mpr hz, Rat.cast_zero, Real.sqrt_zero]
  | false =>
    have hm : evenMant a ≠ 0 := by
      have : fMant a ≠ 0 := fun h0 => by simp [(fMant_eq_zero_iff a).mp h0] at hz
      rw [evenMant]
      split_ifs <;> omega
    have hval : (fValue a : ℝ) = evenMant a * ((2 : ℝ) ^ (evenExpo a / 2)) ^ 2 := by
      rw [fValue_real, hs, if_neg (by decide), ← evenMant_mul, ← zpow_natCast, ← zpow_mul]
      congr 2
      rw [mul_comm]
      exact (two_mul_half_evenExpo a).symm
    rw [fsqrt_of_isFinite ha hs hz, hval, Real.sqrt_mul (Nat.cast_nonneg _), Real.sqrt_sq (by positivity)]
    exact (standsFor_stickyRoot hm _).roundsTo false

end

/-! ## Conversion from integers (40_numerics R134, R136) -/

theorem roundsTo_i2f (i : Int) : RoundsTo (i : ℝ) (i2f i) := by
  simpa [i2f] using roundsTo_roundDyadic_int i 0

/-- What rounds to `i * 2 ^ (k - 149)` has this value when `i` fits a significand. -/
theorem RoundsTo.eq_of_fits {x : ℝ} {r : F32} (h : RoundsTo x r) {i : Int} (hi : |i| ≤ 2 ^ 24) {k : Nat} (hk : k ≤ 252)
    (e : x = i * 2 ^ (k - 149 : Int)) : isFinite r = true ∧ fValue r = i * 2 ^ (k - 149 : Int) := by
  obtain ⟨g, hg, hv⟩ := exists_fValue_eq hi hk
  rw [← hv]
  refine h.eq_of_exact hg ?_
  rw [hv, e]
  push_cast
  rfl

theorem i2f_exact {i : Int} (h : |i| ≤ 2 ^ 24) : isFinite (i2f i) = true ∧ fValue (i2f i) = i := by
  simpa using (roundsTo_i2f i).eq_of_fits h (k := 149) (by norm_num) (by simp)

theorem fValue_fTwoPowNeg15 : fValue fTwoPowNeg15 = 2 ^ (-15 : Int) := by
  have hs : fSign fTwoPowNeg15 = false := by decide
  have hm : (fMag fTwoPowNeg15).toNat = 111 * 2 ^ 23 + 2 ^ 23 := by decide
  rw [fValue_eq_magValue, hs, hm, magValue_add (.inr le_rfl) (by norm_num)]
  norm_num

theorem q2f_exact {x : Int} (h : |x| ≤ 2 ^ 15) : isFinite (q2f x) = true ∧ fValue (q2f x) = (x : ℚ) / 32768 := by
  obtain ⟨hfin, hval⟩ := i2f_exact (h.trans (by norm_num))
  have hmul := roundsTo_fmul hfin (show isFinite fTwoPowNeg15 = true by decide)
  have := hmul.eq_of_fits (i := x) (h.trans (by norm_num)) (k := 134) (by norm_num)
    (by rw [hval, fValue_fTwoPowNeg15]; push_cast; norm_num)
  rw [q2f, div_eq_mul_inv]
  rwa [show (2 : ℚ) ^ (((134 : Nat) : Int) - 149) = 32768⁻¹ by norm_num] at this

/-- Settles O58: an integer is its own magnitude under its sign, rounded; one that fits a significand is a binary32
already, and so is its quotient by `2 ^ 15`. -/
theorem integersConvertToNearest : Obligations.IntegersConvertToNearest :=
  ⟨fun i _ => roundsTo_i2f i, by decide, fun _ h => i2f_exact h,
    fun _ h0 h1 => q2f_exact (abs_le.mpr ⟨by norm_num; omega, by norm_num; omega⟩)⟩

/-! ## Infinities, NaN and the order (40_numerics R131, R132) -/

/-! ### Classes and signs -/

theorem isNaN_of_isInf {a : F32} (h : isInf a = true) : isNaN a = false := by
  rw [isInf_iff] at h
  rw [← Bool.not_eq_true, isNaN_iff]
  omega

theorem isFinite_of_isZero {a : F32} (h : isZero a = true) : isFinite a = true := by
  rw [isZero_iff] at h
  rw [isFinite_iff]
  omega

theorem isInf_flipSign (a : F32) : isInf (a ^^^ 0x80000000#32) = isInf a := by
  rw [Bool.eq_iff_iff, isInf_iff, isInf_iff, fMag_flipSign]

/-- An infinity is its sign. -/
theorem eq_fInf_of_isInf {a : F32} (h : isInf a = true) : a = fInf (fSign a) := by
  have hm : fMag a = 0x7F800000#32 := BitVec.eq_of_toNat_eq ((isInf_iff a).mp h)
  rw [fInf, ← hm, withSign_fSign_fMag]

theorem and_signBit (b : F32) : b &&& 0x80000000#32 = if fSign b = true then 0x80000000#32 else 0#32 := by
  apply BitVec.eq_of_toNat_eq
  have hbit : b.toNat.testBit 31 = fSign b := by
    rw [fSign, BitVec.msb_eq_getLsbD_last, BitVec.getLsbD]
  rw [BitVec.toNat_and, show (0x80000000#32 : F32).toNat = 2 ^ 31 from rfl, Nat.and_two_pow, hbit]
  cases fSign b <;> rfl

theorem withSign_eq_or_signBit (m b : F32) : withSign (fSign b) m = m ||| (b &&& 0x80000000#32) := by
  rw [and_signBit, withSign]
  split_ifs <;> simp

section
variable {a b : F32}

/-! ### NaN operands -/

theorem isNaN_or (h : isNaN a = true ∨ isNaN b = true) : (isNaN a || isNaN b) = true := by
  rwa [Bool.or_eq_true]

theorem fadd_of_isNaN (h : isNaN a = true ∨ isNaN b = true) : fadd a b = fNaN := if_pos (isNaN_or h)

theorem fmul_of_isNaN (h : isNaN a = true ∨ isNaN b = true) : fmul a b = fNaN := if_pos (isNaN_or h)

theorem fdiv_of_isNaN (h : isNaN a = true ∨ isNaN b = true) : fdiv a b = fNaN := if_pos (isNaN_or h)

theorem fsub_of_isNaN (h : isNaN a = true ∨ isNaN b = true) : fsub a b = fNaN := by
  refine fadd_of_isNaN (h.imp_right fun hb => ?_)
  rw [fneg, if_pos hb]
  decide

/-- Comparisons with a NaN are false. -/
theorem ordered_of_isNaN (h : isNaN a = true ∨ isNaN b = true) (p : Bool) : (!isNaN a && !isNaN b && p) = false := by
  rcases h with h | h <;> simp [h]

theorem fmin_of_isNaN (h : isNaN a = true ∨ isNaN b = true) : fmin a b = b := by
  rw [fmin, flt, ordered_of_isNaN h, if_neg Bool.false_ne_true]

theorem fmax_of_isNaN (h : isNaN a = true ∨ isNaN b = true) : fmax a b = b := by
  rw [fmax, flt, ordered_of_isNaN h.symm, if_neg Bool.false_ne_true]

/-! ### Infinite operands, division by zero, roots of negatives -/

theorem fadd_of_isInf_left (ha : isInf a = true) (hb : isNaN b = false) :
    fadd a b = if isInf b = true ∧ (fSign a != fSign b) = true then fNaN else a := by
  simp only [fadd, isNaN_of_isInf ha, hb, ha, Bool.or_self, Bool.false_eq_true, if_false, if_true, Bool.and_eq_true]

theorem fadd_of_isInf_right (ha : isFinite a = true) (hb : isInf b = true) : fadd a b = b := by
  simp only [fadd, isNaN_of_isFinite ha, isNaN_of_isInf hb, isInf_of_isFinite ha, hb, Bool.or_self, Bool.false_eq_true,
    if_false, if_true]

theorem fsub_of_isInf_left (ha : isInf a = true) (hb : isNaN b = false) :
    fsub a b = if isInf b = true ∧ (fSign a != fSign b) = false then fNaN else a := by
  have hdiffer : (fSign a != !fSign b) = true ↔ (fSign a != fSign b) = false := by
    cases fSign a <;> cases fSign b <;> decide
  rw [fsub, fneg_of_isNaN_eq_false hb, fadd_of_isInf_left ha (by rw [isNaN_flipSign, hb]), isInf_flipSign, fSign_flipSign]
  simp only [hdiffer]

theorem fsub_of_isInf_right (ha : isFinite a = true) (hb : isInf b = true) : fsub a b = fInf (!fSign b) := by
  have hflip : isInf (b ^^^ 0x80000000#32) = true := by rw [isInf_flipSign, hb]
  rw [fsub, fneg_of_isNaN_eq_false (isNaN_of_isInf hb), fadd_of_isInf_right ha hflip, ← fSign_flipSign]
  exact eq_fInf_of_isInf hflip

theorem fdiv_of_isInf_left (ha : isInf a = true) (hb : isNaN b = false) :
    fdiv a b = if isInf b = true then fNaN else fInf (fSign a != fSign b) := by
  simp only [fdiv, isNaN_of_isInf ha, hb, ha, Bool.or_self, Bool.false_eq_true, if_false, if_true]

theorem fdiv_of_isInf_right (ha : isFinite a = true) (hb : isInf b = true) :
    fdiv a b = withSign (fSign a != fSign b) 0#32 := by
  simp only [fdiv, isNaN_of_isFinite ha, isNaN_of_isInf hb, isInf_of_isFinite ha, hb, Bool.or_self, Bool.false_eq_true,
    if_false, if_true]

theorem fdiv_of_isZero (ha : isFinite a = true) (hz : isZero b = true) :
    fdiv a b = if isZero a = true then fNaN else fInf (fSign a != fSign b) := by
  have hb := isFinite_of_isZero hz
  simp only [fdiv, isNaN_of_isFinite ha, isNaN_of_isFinite hb, isInf_of_isFinite ha, isInf_of_isFinite hb, hz, Bool.or_self,
    Bool.false_eq_true, if_false, if_true]

theorem fmul_of_isInf (ha : isNaN a = false) (hb : isNaN b = false) (h : isInf a = true ∨ isInf b = true) :
    fmul a b = if isZero a = true ∨ isZero b = true then fNaN else fInf (fSign a != fSign b) := by
  rw [fmul, ha, hb, Bool.or_self, if_neg Bool.false_ne_true, if_pos (by rwa [Bool.or_eq_true])]
  simp only [Bool.or_eq_true]

theorem fsqrt_of_fSign (hs : fSign a = true) (hz : isZero a = false) : fsqrt a = fNaN := by
  rw [fsqrt, hz, hs, if_neg Bool.false_ne_true, if_pos rfl, ite_self]

theorem fSign_fmul (ha : isFinite a = true) (hb : isFinite b = true) : fSign (fmul a b) = (fSign a != fSign b) := by
  rw [fmul_of_isFinite ha hb, fSign_roundDyadic]

theorem fSign_fdiv (ha : isFinite a = true) (hb : isFinite b = true) (hz : isZero b = false) :
    fSign (fdiv a b) = (fSign a != fSign b) := by
  rw [fdiv_of_isFinite ha hb hz, fSign_roundDyadic]

theorem fSign_fsqrt (ha : isFinite a = true) (hs : fSign a = false) : fSign (fsqrt a) = false := by
  cases hz : isZero a with
  | true => rw [fsqrt_of_isZero hz, hs]
  | false => rw [fsqrt_of_isFinite ha hs hz, fSign_roundDyadic]

/-! ### Order -/

/-- The value of a key: that of the magnitude, under the key's sign. -/
def keyValue (z : Int) : ℚ := if z < 0 then -magValue z.natAbs else magValue z.natAbs

theorem keyValue_natCast (n : Nat) : keyValue n = magValue n := by
  rw [keyValue, if_neg (by omega), Int.natAbs_natCast]

theorem keyValue_neg_natCast (n : Nat) : keyValue (-n) = -magValue n := by
  rw [keyValue, Int.natAbs_neg, Int.natAbs_natCast]
  split_ifs with h
  · rfl
  · obtain rfl : n = 0 := by omega
    simp

theorem keyValue_strictMono : StrictMono keyValue := by
  intro y z h
  have hy := magValue_nonneg y.natAbs
  rw [keyValue, keyValue]
  split_ifs with hy0 hz0 hz0
  · exact neg_lt_neg (magValue_strictMono (by omega))
  · have : 0 < magValue y.natAbs := magValue_zero ▸ magValue_strictMono (by omega)
    linarith [magValue_nonneg z.natAbs]
  · omega
  · exact magValue_strictMono (by omega)

/-- The place of a pattern is the value of its key; infinity stands above all finite magnitudes. -/
theorem fOrder_eq_keyValue (a : F32) : fOrder a = keyValue (fKey a) := by
  have hkey : keyValue (fKey a) = (if fSign a = true then -1 else 1) * magValue (fMag a).toNat := by
    rw [fKey]
    split_ifs
    · rw [keyValue_neg_natCast, neg_one_mul]
    · rw [keyValue_natCast, one_mul]
  rw [hkey, fOrder, fValue_eq_magValue]
  split_ifs with hinf hs hs
  · rw [(isInf_iff a).mp hinf, magValue_inf]
    ring
  · rw [(isInf_iff a).mp hinf, magValue_inf]
    ring
  all_goals rfl

theorem flt_iff (ha : isNaN a = false) (hb : isNaN b = false) : flt a b = true ↔ fOrder a < fOrder b := by
  rw [fOrder_eq_keyValue, fOrder_eq_keyValue, keyValue_strictMono.lt_iff_lt]
  simp [flt, ha, hb]

theorem fle_iff (ha : isNaN a = false) (hb : isNaN b = false) : fle a b = true ↔ fOrder a ≤ fOrder b := by
  rw [fOrder_eq_keyValue, fOrder_eq_keyValue, keyValue_strictMono.le_iff_le]
  simp [fle, ha, hb]

theorem feq_iff (ha : isNaN a = false) (hb : isNaN b = false) : feq a b = true ↔ fOrder a = fOrder b := by
  rw [fOrder_eq_keyValue, fOrder_eq_keyValue, keyValue_strictMono.injective.eq_iff]
  simp [feq, ha, hb]

theorem fmin_eq (ha : isNaN a = false) (hb : isNaN b = false) : fmin a b = if fOrder a < fOrder b then a else b := by
  simp only [fmin, flt_iff ha hb]

theorem fmax_eq (ha : isNaN a = false) (hb : isNaN b = false) : fmax a b = if fOrder b < fOrder a then a else b := by
  simp only [fmax, flt_iff hb ha]

end

/-- Settles O60: each clause is the lemma about its operation and the class of its operands. -/
theorem floatOperationsFollowIeee : Obligations.FloatOperationsFollowIeee := by
  intro a b differ zero inf
  have hzero (neg : Bool) : zero neg = withSign neg 0#32 := by cases neg <;> rfl
  have hinf (neg : Bool) : inf neg = fInf neg := by cases neg <;> rfl
  simp only [hzero, hinf]
  refine ⟨isNaN_iff a, isFinite_iff a, fun h => ?nan, fun h => ?nanLeft, fun h => ?signs, fun ha hb => ?finite,
    fun ha hs => ⟨roundsTo_fsqrt ha hs, fSign_fsqrt ha hs⟩, fsqrt_of_isZero, fsqrt_of_fSign, by decide,
    fun ha hb => ⟨fadd_of_isInf_left ha hb, fsub_of_isInf_left ha hb, fdiv_of_isInf_left ha hb⟩,
    fun ha hb => ⟨fadd_of_isInf_right ha hb, fsub_of_isInf_right ha hb, fdiv_of_isInf_right ha hb⟩,
    fmul_of_isInf,
    fun ha hb => ⟨flt_iff ha hb, fle_iff ha hb, feq_iff ha hb, fmin_eq ha hb, fmax_eq ha hb⟩⟩
  case nan =>
    exact ⟨fadd_of_isNaN h, fsub_of_isNaN h, fmul_of_isNaN h, fdiv_of_isNaN h, ordered_of_isNaN h _, ordered_of_isNaN h _,
      ordered_of_isNaN h _, fmin_of_isNaN h, fmax_of_isNaN h⟩
  case nanLeft => exact ⟨if_pos h, if_pos h, if_pos h, if_pos h⟩
  case signs =>
    have hn : ¬ isNaN a = true := by simp [h]
    exact ⟨if_neg hn, if_neg hn, (if_neg hn).trans (withSign_eq_or_signBit _ b)⟩
  case finite =>
    exact ⟨roundsTo_fadd ha hb, fadd_eq_zero ha hb, roundsTo_fsub ha hb, fsub_eq_zero ha hb, roundsTo_fmul ha hb,
      fSign_fmul ha hb, fun hz => ⟨roundsTo_fdiv ha hb hz, fSign_fdiv ha hb hz⟩, fdiv_of_isZero ha⟩

end Sys2Proof.Machine

namespace Sys2Proof.Machine

/-! ## The frame as a sequence that is zero before its start (41_lpc_analyzer R160, R168) -/

/-- Sample `n - k` of a sequence, zero before the start. -/
def delayed (x : Nat → Int) (k n : Nat) : Int := if k ≤ n then x (n - k) else 0

theorem delayed_of_lt (x : Nat → Int) {k n : Nat} (h : n < k) : delayed x k n = 0 := if_neg (by omega)

@[simp] theorem delayed_zero (x : Nat → Int) (n : Nat) : delayed x 0 n = x n := rfl

@[simp] theorem delayed_add (x : Nat → Int) (k i : Nat) : delayed x k (k + i) = x i := by simp [delayed]

theorem mul_delayed (c : Int) (x : Nat → Int) (k n : Nat) :
    c * delayed x k n = if k ≤ n then c * x (n - k) else 0 := mul_ite_zero _ _ _

theorem delayed_congr {x y : Nat → Int} {n : Nat} (h : ∀ m ≤ n, x m = y m) (k : Nat) :
    delayed x k n = delayed y k n := by
  simp only [delayed, h _ (Nat.sub_le n k)]

theorem abs_delayed_le {x : Nat → Int} {b : Int} (hx : ∀ n, |x n| ≤ b) (k n : Nat) : |delayed x k n| ≤ b := by
  unfold delayed
  split
  · exact hx _
  · exact abs_zero.trans_le ((abs_nonneg _).trans (hx 0))

/-- The terms before the delayed sequence starts vanish. -/
theorem sum_mul_delayed (f x : Nat → Int) (k m : Nat) :
    ∑ n ∈ Finset.range (k + m), f n * delayed x k n = ∑ i ∈ Finset.range m, f (k + i) * x i := by
  have hbefore : ∑ n ∈ Finset.range k, f n * delayed x k n = 0 :=
    Finset.sum_eq_zero fun n hn => by rw [delayed_of_lt x (Finset.mem_range.mp hn), mul_zero]
  simp only [Finset.sum_range_add, hbefore, zero_add, delayed_add]

theorem abs_cur_le (s : State) (n : Nat) : |s.cur n| ≤ 32768 := by
  obtain ⟨h0, h1⟩ := cur_bounds s n
  exact abs_le.mpr ⟨h0, by omega⟩

/-- A register array read as integers. -/
theorem getD_map_toInt {w : Nat} (l : List (BitVec w)) (k : Nat) :
    (l.map BitVec.toInt).getD k 0 = (l.getD k 0#w).toInt := by
  simpa using List.getD_map l 0#w (n := k) BitVec.toInt

/-! ## `ACORR` (41_lpc_analyzer R160) -/

/-- The sum over `n = k .. 255` of `x[n] * x[n-k]`. -/
def lagSum (x : Nat → Int) (k : Nat) : Int := ∑ n ∈ Finset.range 256, x n * delayed x k n

theorem lagSum_eq_sum_ite (x : Nat → Int) (k : Nat) :
    lagSum x k = ∑ n ∈ Finset.range 256, if k ≤ n then x n * x (n - k) else 0 := by
  simp only [lagSum, mul_delayed]

theorem lagSum_eq_sum_shifted (x : Nat → Int) {k : Nat} (hk : k ≤ 256) :
    lagSum x k = ∑ i ∈ Finset.range (256 - k), x (k + i) * x i := by
  rw [lagSum, ← sum_mul_delayed, Nat.add_sub_cancel' hk]

theorem lagSum_zero (x : Nat → Int) : lagSum x 0 = ∑ n ∈ Finset.range 256, x n ^ 2 := by
  simp only [lagSum, delayed_zero, sq]

theorem lagSum_zero_nonneg (x : Nat → Int) : 0 ≤ lagSum x 0 := by
  rw [lagSum_zero]
  exact Finset.sum_nonneg fun n _ => sq_nonneg (x n)

/-- Delaying a sequence pushes squares out of the frame and adds none. -/
theorem sum_delayed_sq_le (x : Nat → Int) {k : Nat} (hk : k ≤ 256) :
    ∑ n ∈ Finset.range 256, delayed x k n ^ 2 ≤ lagSum x 0 := by
  have hshift : ∑ n ∈ Finset.range 256, delayed x k n ^ 2 = ∑ i ∈ Finset.range (256 - k), x i ^ 2 := by
    have h := sum_mul_delayed (delayed x k) x k (256 - k)
    simpa only [Nat.add_sub_cancel' hk, delayed_add, ← sq] using h
  rw [hshift, lagSum_zero]
  exact Finset.sum_le_sum_of_subset_of_nonneg (Finset.range_subset_range.mpr (Nat.sub_le 256 k))
    fun n _ _ => sq_nonneg (x n)

/-- Cauchy-Schwarz, between the sequence and the delayed sequence. -/
theorem abs_lagSum_le (x : Nat → Int) {k : Nat} (hk : k ≤ 256) : |lagSum x k| ≤ lagSum x 0 := by
  refine abs_le_of_sq_le_sq ?_ (lagSum_zero_nonneg x)
  calc lagSum x k ^ 2
      ≤ (∑ n ∈ Finset.range 256, x n ^ 2) * ∑ n ∈ Finset.range 256, delayed x k n ^ 2 :=
        Finset.sum_mul_sq_le_sq_mul_sq _ _ _
    _ ≤ lagSum x 0 * lagSum x 0 := by
        rw [← lagSum_zero]
        exact mul_le_mul_of_nonneg_left (sum_delayed_sq_le x hk) (lagSum_zero_nonneg x)
    _ = lagSum x 0 ^ 2 := (sq _).symm

theorem lagSum_zero_le {x : Nat → Int} (hx : ∀ n, |x n| ≤ 32768) : lagSum x 0 ≤ 2 ^ 38 := by
  rw [lagSum_zero]
  have hterm : ∀ n ∈ Finset.range 256, x n ^ 2 ≤ 2 ^ 30 := fun n _ => by
    obtain ⟨hlo, hhi⟩ := abs_le.mp (hx n)
    exact sq_le_sq' hlo hhi
  exact (Finset.sum_le_card_nsmul _ _ _ hterm).trans (by simp)

/-- The model's sum of products is the lag sum of the frame. -/
theorem dot_drop_frame (s : State) {k : Nat} (hk : k ≤ 256) :
    dot ((s.frame 256).drop k) (s.frame 256) = lagSum s.cur k := by
  rw [dot_eq_sum (256 - k) _ _ (.inl (by simp)), lagSum_eq_sum_shifted _ hk]
  refine Finset.sum_congr rfl fun i hi => ?_
  have hi' := Finset.mem_range.mp hi
  have hdrop : ((s.frame 256).drop k).getD i 0 = (s.frame 256).getD (k + i) 0 := by simp [List.getD]
  rw [hdrop, getD_frame _ _ _ (by omega), getD_frame _ _ _ (by omega)]

theorem acorr_eq (s : State) :
    acorr Config.core s =
      { s with
        lpc := { s.lpc with acr := (autocorr 12 (s.frame 256)).map (BitVec.ofInt 64) }
        disp := { s.disp with seq := 2#4 } } := rfl

theorem getD_autocorr_frame (s : State) {k : Nat} (hk : k ≤ 12) :
    (autocorr 12 (s.frame 256)).getD k 0 = lagSum s.cur k := by
  rw [List.getD_eq_getElem _ _ (by simp [autocorr]; omega), ← dot_drop_frame s (by omega)]
  simp [autocorr]

/-- Every lag sum fits its 64-bit register. -/
theorem toInt_acr_acorr (s : State) {k : Nat} (hk : k ≤ 12) :
    ((acorr Config.core s).lpc.acr.getD k 0#64).toInt = lagSum s.cur k := by
  have hreg : ((autocorr 12 (s.frame 256)).map (BitVec.ofInt 64)).getD k 0#64 = BitVec.ofInt 64 (lagSum s.cur k) := by
    rw [← getD_autocorr_frame s hk]
    exact List.getD_map _ 0 (BitVec.ofInt 64)
  have hzero := lagSum_zero_le (abs_cur_le s)
  obtain ⟨hlo, hhi⟩ := abs_le.mp (abs_lagSum_le s.cur (k := k) (by omega))
  rw [acorr_eq, hreg, toInt_ofInt64] <;> omega

/-- Settles O27: each register holds its lag sum, exact because it fits. -/
theorem acorrComputesLagSums : Obligations.AcorrComputesLagSums := by
  refine ⟨rfl, fun s => ⟨acorr Config.core s, exec_acorr s, ?_, fun k hk => ?_, acorr_eq s⟩⟩
  · simp [acorr_eq, autocorr]
  · rw [toInt_acr_acorr s hk, lagSum_eq_sum_ite]

/-- Settles O28 by Cauchy-Schwarz on the lag sums. -/
theorem lagZeroDominatesLagSums : Obligations.LagZeroDominatesLagSums := by
  intro s t h k hk
  obtain rfl := eq_perform_of_exec h
  rw [perform, toInt_acr_acorr s (Nat.zero_le 12), toInt_acr_acorr s hk]
  exact ⟨lagSum_zero_nonneg _, abs_lagSum_le _ (by omega)⟩

/-! ## `RESID` (41_lpc_analyzer R168) -/

/-- The samples up to `n`, latest first, are the frame delayed. -/
theorem getD_reverse_take (xs : List Int) {n : Nat} (hn : n < xs.length) (k : Nat) :
    (xs.take (n + 1)).reverse.getD k 0 = delayed (fun m => xs.getD m 0) k n := by
  have hlen : (xs.take (n + 1)).length = n + 1 := by simp; omega
  by_cases hk : k ≤ n
  · simp [delayed, hk, List.getD, hlen, show n - k < xs.length by omega]
  · rw [delayed_of_lt _ (by omega), List.getD_eq_default _ _ (by simp; omega)]

/-- The sum that the inverse filter forms for sample `n`. -/
def residSum (s : State) (n : Nat) : Int :=
  ∑ k ∈ Finset.range 13, (s.lpc.aq.getD k 0#32).toInt * delayed s.cur k n

theorem dot_fixedCoefs_frame (s : State) {n : Nat} (hn : n < 256) :
    dot (fixedCoefs Config.core s.lpc.aq) ((s.frame 256).take (n + 1)).reverse = residSum s n := by
  rw [dot_eq_sum 13 _ _ (.inl (by simp [fixedCoefs]))]
  refine Finset.sum_congr rfl fun k hk => ?_
  have hdelay : delayed (fun m => (s.frame 256).getD m 0) k n = delayed s.cur k n :=
    delayed_congr (fun m hm => getD_frame s 256 m (by omega)) k
  rw [getD_fixedCoefs _ _ (by simp at hk; omega), getD_reverse_take _ (by simpa using hn), hdelay]

theorem abs_residSum_le (s : State) (n : Nat) : |residSum s n| ≤ 13 * 2 ^ 46 := by
  have hcoef (w : Word) : |w.toInt| ≤ 2 ^ 31 := by
    obtain ⟨h0, h1⟩ := toInt32_bounds w
    exact abs_le.mpr ⟨h0, by omega⟩
  have hterm : ∀ k ∈ Finset.range 13, |(s.lpc.aq.getD k 0#32).toInt * delayed s.cur k n| ≤ 2 ^ 46 := fun k _ => by
    rw [abs_mul]
    exact (mul_le_mul (hcoef _) (abs_delayed_le (abs_cur_le s) k n) (abs_nonneg _) (by norm_num)).trans (by norm_num)
  exact (Finset.abs_sum_le_sum_abs _ _).trans ((Finset.sum_le_card_nsmul _ _ _ hterm).trans (by simp))

theorem residual_in_range (s : State) (n : Nat) :
    -2147483648 ≤ rhuShr (residSum s n) 20 ∧ rhuShr (residSum s n) 20 ≤ 2147483647 := by
  obtain ⟨hlo, hhi⟩ := abs_le.mp (abs_residSum_le s n)
  unfold rhuShr
  omega

/-- The saturation of R168 never acts. -/
theorem getD_residResult (s : State) {n : Nat} (hn : n < 256) :
    (residResult s).getD n 0 = rhuShr (residSum s n) 20 := by
  obtain ⟨hlo, hhi⟩ := residual_in_range s n
  rw [residResult, residual, core_n, core_cf, getD_residLoop _ _ _ _ _ (by simpa using hn), List.append_nil,
    dot_fixedCoefs_frame s hn, sat_of_mem _ _ (by norm_num; omega) (by norm_num; omega)]

theorem resElem_resid (s : State) {n : Nat} (hn : n < 256) :
    (resid Config.core s).resElem n = rhuShr (residSum s n) 20 := by
  obtain ⟨hlo, hhi⟩ := residual_in_range s n
  rw [← getD_residResult s hn] at hlo hhi ⊢
  rw [← resElem_writeRes s (residResult s) n (by simpa using hn) hlo hhi, resid_eq]
  rfl

/-- Settles O32: the stored residual, sample by sample, and the frame of the store into `RES`. -/
theorem residFiltersFrame : Obligations.ResidFiltersFrame := by
  refine ⟨rfl, fun s => ⟨resid Config.core s, exec_resid s, fun n hn => ?_, ?_, ?_⟩⟩
  · simp only [resElem_resid s hn, residSum, mul_delayed]
  · exact sameMemoryOutside_of_mem (sameMemoryOutside_writeRes s (residResult s) (length_residResult s))
      (by rw [resid_eq])
  · rw [resid_eq]


/-! ## The Levinson-Durbin recursion with its guards left out (41_lpc_analyzer R165) -/

/-- The coefficients and the error energy after each order, from the lags `r`. -/
def levOrder (r : List F32) : Nat → List F32 × F32
  | 0 => ([fOne], r.getD 0 fZero)
  | i + 1 =>
    let (a, e) := levOrder r i
    let k := fneg (fdiv (levAcc r a (i + 1)) e)
    (levUpdate a (i + 1) k, fmul e (fsub fOne (fmul k k)))

/-- The reflection coefficient of each order from 1 on, after `LPC_K[0]`. -/
def reflection (r : List F32) : Nat → F32
  | 0 => fZero
  | i + 1 => fneg (fdiv (levAcc r (levOrder r i).1 (i + 1)) (levOrder r i).2)

theorem levOrder_succ_coefs (r : List F32) (i : Nat) :
    (levOrder r (i + 1)).1 = levUpdate (levOrder r i).1 (i + 1) (reflection r (i + 1)) := rfl

theorem levOrder_succ_energy (r : List F32) (i : Nat) :
    (levOrder r (i + 1)).2 =
      fmul (levOrder r i).2 (fsub fOne (fmul (reflection r (i + 1)) (reflection r (i + 1)))) := rfl

/-- `LPC_K` after order `i`. -/
def reflections (r : List F32) (i : Nat) : List F32 := (List.range (i + 1)).map (reflection r)

theorem reflections_succ (r : List F32) (i : Nat) :
    reflections r (i + 1) = reflections r i ++ [reflection r (i + 1)] := by
  simp [reflections, List.range_succ]

theorem getD_reflections (r : List F32) {i j : Nat} (h : j ≤ i) :
    (reflections r i).getD j fZero = reflection r j := by
  simp [reflections, List.getD, Nat.lt_succ_of_le h]

/-! ### The coefficient update -/

theorem getD_levUpdate_of_lt (a : List F32) {i j : Nat} (k : F32) (h : j < i) :
    (levUpdate a i k).getD j fZero =
      if j = 0 then a.getD 0 fZero else fadd (a.getD j fZero) (fmul k (a.getD (i - j) fZero)) := by
  rw [levUpdate, List.getD_append _ _ _ _ (by simpa using h)]
  simp [List.getD, h]

theorem getD_levUpdate_self (a : List F32) (i : Nat) (k : F32) : (levUpdate a i k).getD i fZero = k := by
  rw [levUpdate, List.getD_append_right _ _ _ _ (by simp)]
  simp

/-- The first coefficient is 1.0 after every order. -/
theorem getD_levOrder_zero (r : List F32) (i : Nat) : (levOrder r i).1.getD 0 fZero = fOne := by
  induction i with
  | zero => rfl
  | succ i ih => rw [levOrder_succ_coefs, getD_levUpdate_of_lt _ _ i.succ_pos, if_pos rfl, ih]

/-! ### The guards -/

/-- Neither guard of order `i` sends the frame to the flat-spectrum branch. -/
def OrderAccepted (r : List F32) (i : Nat) : Prop :=
  isFinite (reflection r i) = true ∧ flt (fabs (reflection r i)) fOne = true ∧
  isFinite (levOrder r i).2 = true ∧ flt fZero (levOrder r i).2 = true

/-- The loop of the model at order `i + 1`, with `m` orders to go. -/
def levLoopFrom (r : List F32) (m i : Nat) : Option (List F32 × List F32 × F32) :=
  levLoop r m (i + 1) (levOrder r i).1 (reflections r i) (levOrder r i).2

theorem levLoopFrom_zero (r : List F32) (i : Nat) :
    levLoopFrom r 0 i = some ((levOrder r i).1, reflections r i, (levOrder r i).2) := rfl

theorem levLoopFrom_succ (r : List F32) (m i : Nat) :
    levLoopFrom r (m + 1) i =
      if !isFinite (reflection r (i + 1)) || !flt (fabs (reflection r (i + 1))) fOne then none
      else if !isFinite (levOrder r (i + 1)).2 || !flt fZero (levOrder r (i + 1)).2 then none
      else levLoopFrom r m (i + 1) := by
  rw [levLoopFrom, levLoopFrom, reflections_succ]
  rfl

theorem levLoopFrom_of_accepted {r : List F32} {i : Nat} (h : OrderAccepted r (i + 1)) (m : Nat) :
    levLoopFrom r (m + 1) i = levLoopFrom r m (i + 1) := by
  obtain ⟨hkFinite, hkBelow, heFinite, hePositive⟩ := h
  rw [levLoopFrom_succ, if_neg (by simp [hkFinite, hkBelow]), if_neg (by simp [heFinite, hePositive])]

theorem levLoopFrom_of_not_accepted {r : List F32} {i : Nat} (h : ¬ OrderAccepted r (i + 1)) (m : Nat) :
    levLoopFrom r (m + 1) i = none := by
  rw [levLoopFrom_succ]
  split_ifs with hk he
  · rfl
  · rfl
  · simp only [Bool.or_eq_true, Bool.not_eq_true', not_or, Bool.not_eq_false] at hk he
    exact absurd ⟨hk.1, hk.2, he⟩ h

/-- Once what the loop can do: every order is accepted and it answers the last one, or one is not and it gives up. -/
theorem levLoopFrom_cases (r : List F32) (m : Nat) : ∀ i : Nat,
    ((∀ j, i < j → j ≤ i + m → OrderAccepted r j) ∧
      levLoopFrom r m i = some ((levOrder r (i + m)).1, reflections r (i + m), (levOrder r (i + m)).2)) ∨
    ((¬ ∀ j, i < j → j ≤ i + m → OrderAccepted r j) ∧ levLoopFrom r m i = none) := by
  induction m with
  | zero => exact fun i => .inl ⟨fun j h0 h1 => by omega, levLoopFrom_zero r i⟩
  | succ m ih =>
    intro i
    rw [show i + (m + 1) = i + 1 + m by omega]
    by_cases hnext : OrderAccepted r (i + 1)
    · rw [levLoopFrom_of_accepted hnext]
      have hall : (∀ j, i < j → j ≤ i + 1 + m → OrderAccepted r j) ↔
          ∀ j, i + 1 < j → j ≤ i + 1 + m → OrderAccepted r j :=
        ⟨fun h j h0 => h j (by omega), fun h j h0 h1 =>
          (Nat.eq_or_lt_of_le h0).elim (fun he => he ▸ hnext) fun hlt => h j hlt h1⟩
      rw [hall]
      exact ih (i + 1)
    · exact .inr ⟨fun h => hnext (h (i + 1) (by omega) (by omega)), levLoopFrom_of_not_accepted hnext m⟩

/-! ## `LEVDUR` (41_lpc_analyzer R162 to R167) -/

/-- `ACR` as integers. -/
def lagInts (s : State) : List Int := padTo 13 0 (s.lpc.acr.map BitVec.toInt)

/-- The normalised lags that `LEVDUR` stores in `ACF`. -/
def lagReals (s : State) : List F32 := normalise 256 (lagInts s)

/-- What the degeneracy test and the recursion give. -/
def levPredictor (s : State) : Predictor := predictor Config.core (lagInts s) (lagReals s)

theorem levdur_eq (s : State) :
    levdur Config.core s =
      { s with
        lpc := {
          acr := s.lpc.acr, acf := lagReals s, a := (levPredictor s).a, k := (levPredictor s).k
          e := (levPredictor s).e, g := (levPredictor s).g, aq := toFixed Config.core (levPredictor s).a }
        fr := { s.fr with degen := (levPredictor s).degen }
        disp := { s.disp with seq := 3#4 } } := rfl

theorem getD_lagInts (s : State) {k : Nat} (hk : k ≤ 12) : (lagInts s).getD k 0 = (s.lpc.acr.getD k 0#64).toInt := by
  rw [lagInts, getD_padTo, if_pos (by omega), getD_map_toInt]

/-- `N * 2^30` in binary32. -/
theorem fmul_frame_length : fmul (i2f (256 : Nat)) fTwoPow30 = 0x52800000#32 := by decide +kernel

theorem getD_lagReals (s : State) {k : Nat} (hk : k ≤ 12) :
    (lagReals s).getD k 0#32 = fdiv (i2f (s.lpc.acr.getD k 0#64).toInt) 0x52800000#32 := by
  have hlen : (lagInts s).length = 13 := length_padTo _ _ _
  rw [lagReals, normalise, fmul_frame_length, ← getD_lagInts s hk, List.getD_eq_getElem _ _ (by simp; omega),
    List.getD_eq_getElem _ _ (by omega), List.getElem_map]

theorem toInt_getD_toFixed (a : List F32) (k : Nat) :
    ((toFixed Config.core a).getD k 0#32).toInt = f2fix (a.getD k 0#32) 20 32 := by
  have hzero : BitVec.ofInt 32 (f2fix 0#32 20 32) = 0#32 := by decide
  have hget := List.getD_map a 0#32 (n := k) fun v => BitVec.ofInt 32 (f2fix v 20 32)
  rw [hzero] at hget
  rw [toFixed, core_cf, hget, toInt_f2fix32]

/-- The frame passes the degeneracy test and every guard of the recursion. -/
def LevAccepted (s : State) : Prop :=
  256 < (s.lpc.acr.getD 0 0#64).toInt ∧ ∀ i, 1 ≤ i → i ≤ 12 → OrderAccepted (lagReals s) i

/-- The predictor of the last order. -/
def fullPredictor (r : List F32) : Predictor where
  a := (levOrder r 12).1
  k := reflections r 12
  e := (levOrder r 12).2
  g := fsqrt (levOrder r 12).2
  degen := false

theorem predictor_of_silent {acr : List Int} (acf : List F32) (h : acr.getD 0 0 ≤ 256) :
    predictor Config.core acr acf = flatPredictor 12 acf := if_pos h

theorem predictor_of_energy {acr : List Int} (acf : List F32) (h : 256 < acr.getD 0 0) :
    predictor Config.core acr acf =
      (levLoopFrom acf 12 0).elim (flatPredictor 12 acf)
        fun (a, k, e) => { a := a, k := k, e := e, g := fsqrt e, degen := false } := by
  have hloop : levLoop acf Config.core.p 1 [fOne] [fZero] (acf.getD 0 fZero) = levLoopFrom acf 12 0 := rfl
  rw [predictor, if_neg (by simpa [Config.core] using h), hloop]
  cases levLoopFrom acf 12 0 <;> rfl

/-- Once which branch `LEVDUR` takes: the last order of the recursion, or the flat spectrum. -/
theorem levPredictor_cases (s : State) :
    (LevAccepted s ∧ levPredictor s = fullPredictor (lagReals s)) ∨
    (¬ LevAccepted s ∧ levPredictor s = flatPredictor 12 (lagReals s)) := by
  have hacr := getD_lagInts s (Nat.zero_le 12)
  by_cases henergy : 256 < (s.lpc.acr.getD 0 0#64).toInt
  · rw [levPredictor, predictor_of_energy _ (by rwa [hacr])]
    rcases levLoopFrom_cases (lagReals s) 12 0 with ⟨hall, hloop⟩ | ⟨hnot, hloop⟩ <;> rw [hloop]
    · exact .inl ⟨⟨henergy, hall⟩, rfl⟩
    · exact .inr ⟨fun h => hnot h.2, rfl⟩
  · exact .inr ⟨fun h => henergy h.1, predictor_of_silent _ (by rw [hacr]; omega)⟩

theorem degen_eq_false_iff (s : State) : (levPredictor s).degen = false ↔ LevAccepted s := by
  rcases levPredictor_cases s with ⟨h, hp⟩ | ⟨h, hp⟩ <;> simp [hp, h, fullPredictor, flatPredictor]

theorem levPredictor_of_accepted {s : State} (h : LevAccepted s) : levPredictor s = fullPredictor (lagReals s) := by
  rcases levPredictor_cases s with ⟨-, hp⟩ | ⟨hn, -⟩
  exacts [hp, absurd h hn]

theorem levPredictor_of_degen {s : State} (h : (levPredictor s).degen = true) :
    levPredictor s = flatPredictor 12 (lagReals s) := by
  rcases levPredictor_cases s with ⟨ha, -⟩ | ⟨-, hp⟩
  · exact absurd ((degen_eq_false_iff s).mpr ha) (by simp [h])
  · exact hp

/-- Whatever the branch, the leading coefficient is 1.0 and `LPC_K[0]` is +0.0. -/
theorem levPredictor_leading (s : State) :
    (levPredictor s).a.getD 0 fZero = fOne ∧ (levPredictor s).k.getD 0 fZero = fZero := by
  rcases levPredictor_cases s with ⟨-, hp⟩ | ⟨-, hp⟩ <;> rw [hp]
  · exact ⟨getD_levOrder_zero _ 12, getD_reflections _ (Nat.zero_le 12)⟩
  · exact ⟨rfl, rfl⟩

/-- The flat spectrum in fixed point. -/
theorem toFixed_flat :
    toFixed Config.core (fOne :: List.replicate 12 fZero) = 1048576#32 :: List.replicate 12 0#32 := by
  decide

theorem f2fix_one : f2fix fOne 20 32 = 2 ^ 20 := by decide

/-- Settles O29: the lags and the conversion element by element, and the leading entries of either branch. -/
theorem levdurNormalisesAndConverts : Obligations.LevdurNormalisesAndConverts := by
  intro s
  obtain ⟨ha, hk⟩ := levPredictor_leading s
  refine ⟨levdur Config.core s, exec_levdur s, ?_⟩
  rw [levdur_eq]
  refine ⟨fun k hk => getD_lagReals s hk, fun k _ => toInt_getD_toFixed _ k, ha, ?_, hk, rfl⟩
  rw [toInt_getD_toFixed, ← f2fix_one]
  exact congrArg (f2fix · 20 32) ha

/-- Settles O30: below the threshold no frame is accepted, and one that is not takes the flat branch. -/
theorem levdurFlattensDegenerateFrame : Obligations.LevdurFlattensDegenerateFrame := by
  intro s
  refine ⟨levdur Config.core s, exec_levdur s, ?_⟩
  rw [levdur_eq]
  refine ⟨fun hsilent => ?_, fun hdegen => ?_⟩
  · have hnot : ¬ LevAccepted s := fun h => absurd h.1 (by omega)
    simpa using mt (degen_eq_false_iff s).mp hnot
  · rw [levPredictor_of_degen hdegen]
    exact ⟨rfl, rfl, rfl, rfl, toFixed_flat⟩

/-- Settles O31: `A`, `K` and `E` are the recursion with its guards left out. -/
theorem levdurFollowsRecursion : Obligations.LevdurFollowsRecursion := by
  intro s
  refine ⟨levdur Config.core s, fun i j => (levOrder (lagReals s) i).1.getD j fZero, reflection (lagReals s),
    fun i => (levOrder (lagReals s) i).2, exec_levdur s, ?_⟩
  rw [levdur_eq]
  refine ⟨rfl, fun i _ => getD_levOrder_zero _ i, fun i hi _ => ?order, degen_eq_false_iff s, fun hdegen => ?last⟩
  case order =>
    obtain ⟨i, rfl⟩ := Nat.exists_eq_add_of_le' hi
    refine ⟨rfl, fun j hj hji => ?_, ?_, levOrder_succ_energy _ i⟩
    · simp only [levOrder_succ_coefs, getD_levUpdate_of_lt _ _ hji, if_neg (show j ≠ 0 by omega), Nat.add_sub_cancel]
    · exact getD_levUpdate_self _ _ _
  case last =>
    rw [levPredictor_of_accepted ((degen_eq_false_iff s).mp hdegen)]
    exact ⟨fun j _ => rfl, fun j _ hj => getD_reflections _ hj, getD_reflections _ (Nat.zero_le 12), rfl, rfl⟩

end Sys2Proof.Machine

namespace Sys2Proof.Machine

/-! ## Synthetic division (42_pole_shifter R182) -/

theorem deflate_cons_cons (c0 c1 : F32) (cs : List F32) (u v : F32) :
    deflate (c0 :: c1 :: cs) u v =
      c0 :: fsub c1 (fmul u c0) :: deflateTail u v (fsub c1 (fmul u c0)) c0 cs := rfl

/-- Each coefficient of the tail from the two before it. -/
theorem getD_deflateTail (u v : F32) (xs : List F32) : ∀ (p1 p2 : F32) (i : Nat), i < xs.length →
    (p2 :: p1 :: deflateTail u v p1 p2 xs).getD (i + 2) 0#32 =
      fsub (fsub (xs.getD i 0#32) (fmul u ((p2 :: p1 :: deflateTail u v p1 p2 xs).getD (i + 1) 0#32)))
        (fmul v ((p2 :: p1 :: deflateTail u v p1 p2 xs).getD i 0#32)) := by
  induction xs with
  | nil => intro p1 p2 i hi; simp at hi
  | cons x xs ih =>
    intro p1 p2 i hi
    cases i with
    | zero => rfl
    | succ i => exact ih (fsub (fsub x (fmul u p1)) (fmul v p2)) p1 i (by simpa using hi)

/-- `B` is the synthetic division of the coefficients `c` by `z² + u·z + v`, as far as index `n - 1`. -/
structure DividesSynthetically (c : Nat → F32) (u v : F32) (n : Nat) (B : Nat → F32) : Prop where
  zero : B 0 = c 0
  one : B 1 = fsub (c 1) (fmul u (B 0))
  next : ∀ i, 2 ≤ i → i < n → B i = fsub (fsub (c i) (fmul u (B (i - 1)))) (fmul v (B (i - 2)))

theorem dividesSynthetically_deflate {c : List F32} (u v : F32) (h : 2 ≤ c.length) :
    DividesSynthetically (fun i => c.getD i 0#32) u v c.length fun i => (deflate c u v).getD i 0#32 := by
  match c, h with
  | c0 :: c1 :: cs, _ =>
    refine ⟨rfl, rfl, fun i h2 hi => ?_⟩
    obtain ⟨i, rfl⟩ := Nat.exists_eq_add_of_le' h2
    exact getD_deflateTail u v cs _ c0 i (by simpa using hi)

/-- The recurrence has one solution. -/
theorem DividesSynthetically.unique {c c' B B' : Nat → F32} {u v : F32} {n : Nat} (hc : ∀ i < n, c i = c' i)
    (hB : DividesSynthetically c u v n B) (hB' : DividesSynthetically c' u v n B') : ∀ i < n, B i = B' i := by
  intro i
  induction i using Nat.strong_induction_on with
  | _ i ih =>
    intro hi
    match i with
    | 0 => rw [hB.zero, hB'.zero, hc 0 hi]
    | 1 => rw [hB.one, hB'.one, hc 1 hi, ih 0 Nat.one_pos (by omega)]
    | i + 2 =>
      rw [hB.next _ (by omega) hi, hB'.next _ (by omega) hi, hc _ hi, ih (i + 2 - 1) (by omega) (by omega),
        ih (i + 2 - 2) (by omega) (by omega)]

/-- Settles O33: the three clauses of the recurrence, up to the last coefficient. -/
theorem deflateFollowsRecurrence : Obligations.DeflateFollowsRecurrence := by
  intro c n u v hn hlen
  obtain ⟨hzero, hone, hnext⟩ := dividesSynthetically_deflate u v (show 2 ≤ c.length by omega)
  exact ⟨by rw [length_deflate, hlen], hzero, hone, fun i h2 hi => hnext i h2 (by omega)⟩

/-! ## Bairstow's iteration (42_pole_shifter R181) -/

/-- `C[0..n-1]` of an iteration at `p = (u, v)`. -/
def secondDivision (c : List F32) (n : Nat) (p : F32 × F32) : List F32 := deflate ((deflate c p.1 p.2).take n) p.1 p.2

/-- `(du, dv)` from the last two coefficients of `B` and the last three of `C`. -/
def newtonStep (bn1 bn c1 c2 c3 : F32) : F32 × F32 :=
  let det := fsub (fmul c2 c2) (fmul c3 c1)
  (fdiv (fsub (fmul bn1 c2) (fmul bn c3)) det, fdiv (fsub (fmul bn c2) (fmul bn1 c1)) det)

/-- The step of an iteration at `p`. -/
def bairstowStep (c : List F32) (n : Nat) (p : F32 × F32) : F32 × F32 :=
  newtonStep ((deflate c p.1 p.2).getD (n - 1) fZero) ((deflate c p.1 p.2).getD n fZero)
    ((secondDivision c n p).getD (n - 1) fZero) ((secondDivision c n p).getD (n - 2) fZero)
    ((secondDivision c n p).getD (n - 3) fZero)

/-- `(u, v)` after an iteration at `p`. -/
def bairstowNext (c : List F32) (n : Nat) (p : F32 × F32) : F32 × F32 :=
  (fadd p.1 (bairstowStep c n p).1, fadd p.2 (bairstowStep c n p).2)

/-- The iteration at `p` does not send the search to the next guess. -/
def StepFinite (c : List F32) (n : Nat) (p : F32 × F32) : Prop :=
  isFinite (bairstowStep c n p).1 = true ∧ isFinite (bairstowStep c n p).2 = true

/-- The step of the iteration at `p` is below the tolerance. -/
def StepSmall (tol : F32) (c : List F32) (n : Nat) (p : F32 × F32) : Prop :=
  flt (fadd (fabs (bairstowStep c n p).1) (fabs (bairstowStep c n p).2)) tol = true

/-- The factor that the search answers when it ends at `p`. -/
def factorFrom (c : List F32) (n : Nat) (p : F32 × F32) : Found where
  u := p.1
  v := p.2
  q := (deflate c p.1 p.2).take (n - 1)

/-- A factor and its quotient are finite. -/
def Found.Finite (f : Found) : Prop := isFinite f.u = true ∧ isFinite f.v = true ∧ f.q.all isFinite = true

/-- What start guess `p` finds in at most `m` iterations. -/
def bairstowFrom (tol : F32) (c : List F32) (n m : Nat) (p : F32 × F32) : Option Found := bairstow tol c n m p.1 p.2

section
variable {tol : F32} {c : List F32} {n m : Nat} {p : F32 × F32}

theorem bairstowFrom_zero : bairstowFrom tol c n 0 p = none := rfl

theorem bairstowFrom_succ :
    bairstowFrom tol c n (m + 1) p =
      if !isFinite (bairstowStep c n p).1 || !isFinite (bairstowStep c n p).2 then none
      else if flt (fadd (fabs (bairstowStep c n p).1) (fabs (bairstowStep c n p).2)) tol then
        if isFinite (bairstowNext c n p).1 && isFinite (bairstowNext c n p).2 &&
            (factorFrom c n (bairstowNext c n p)).q.all isFinite
        then some (factorFrom c n (bairstowNext c n p)) else none
      else bairstowFrom tol c n m (bairstowNext c n p) := rfl

theorem bairstowFrom_succ_of_not_finite (h : ¬ StepFinite c n p) : bairstowFrom tol c n (m + 1) p = none := by
  rw [bairstowFrom_succ, if_pos]
  simpa [StepFinite, imp_iff_not_or] using h

theorem bairstowFrom_succ_of_small (hfin : StepFinite c n p) (hsmall : StepSmall tol c n p) (f : Found) :
    bairstowFrom tol c n (m + 1) p = some f ↔ f = factorFrom c n (bairstowNext c n p) ∧ f.Finite := by
  obtain ⟨hdu, hdv⟩ := hfin
  unfold StepSmall at hsmall
  rw [bairstowFrom_succ, if_neg (by simp [hdu, hdv]), if_pos hsmall, Option.ite_none_right_eq_some, Option.some.injEq,
    Bool.and_eq_true, Bool.and_eq_true, and_assoc, and_assoc]
  constructor
  · rintro ⟨hu, hv, hq, rfl⟩
    exact ⟨rfl, hu, hv, hq⟩
  · rintro ⟨rfl, hu, hv, hq⟩
    exact ⟨hu, hv, hq, rfl⟩

theorem bairstowFrom_succ_of_not_small (hfin : StepFinite c n p) (hsmall : ¬ StepSmall tol c n p) :
    bairstowFrom tol c n (m + 1) p = bairstowFrom tol c n m (bairstowNext c n p) := by
  obtain ⟨hdu, hdv⟩ := hfin
  unfold StepSmall at hsmall
  rw [bairstowFrom_succ, if_neg (by simp [hdu, hdv]), if_neg hsmall]

end

/-- From `p` the iteration ends with its step `m + 1`: all steps are finite and only the last is small. -/
def EndsAfter (tol : F32) (c : List F32) (n : Nat) (p : F32 × F32) (m : Nat) : Prop :=
  ∀ it ≤ m, StepFinite c n ((bairstowNext c n)^[it] p) ∧ (StepSmall tol c n ((bairstowNext c n)^[it] p) ↔ it = m)

theorem endsAfter_zero_iff (tol : F32) (c : List F32) (n : Nat) (p : F32 × F32) :
    EndsAfter tol c n p 0 ↔ StepFinite c n p ∧ StepSmall tol c n p := by
  simp [EndsAfter]

theorem endsAfter_succ_iff (tol : F32) (c : List F32) (n : Nat) (p : F32 × F32) (m : Nat) :
    EndsAfter tol c n p (m + 1) ↔
      (StepFinite c n p ∧ ¬ StepSmall tol c n p) ∧ EndsAfter tol c n (bairstowNext c n p) m := by
  simp only [EndsAfter, ← Nat.lt_succ_iff]
  rw [Nat.forall_lt_succ_left]
  simp

/-- The iteration finds a factor exactly when it ends in time at a finite one. -/
theorem bairstowFrom_eq_some_iff (tol : F32) (c : List F32) (n : Nat) (f : Found) (k : Nat) : ∀ p : F32 × F32,
    bairstowFrom tol c n k p = some f ↔
      ∃ m < k, EndsAfter tol c n p m ∧ f = factorFrom c n ((bairstowNext c n)^[m + 1] p) ∧ f.Finite := by
  induction k with
  | zero => intro p; simp [bairstowFrom_zero]
  | succ k ih =>
    intro p
    rw [Nat.exists_lt_succ_left]
    have hlater : (∃ m < k, EndsAfter tol c n p (m + 1) ∧
          f = factorFrom c n ((bairstowNext c n)^[m + 1 + 1] p) ∧ f.Finite) ↔
        (StepFinite c n p ∧ ¬ StepSmall tol c n p) ∧ bairstowFrom tol c n k (bairstowNext c n p) = some f := by
      rw [ih]
      constructor
      · rintro ⟨m, hm, hends, hf⟩
        obtain ⟨hp, hends⟩ := (endsAfter_succ_iff tol c n p m).mp hends
        exact ⟨hp, m, hm, hends, hf⟩
      · rintro ⟨hp, m, hm, hends, hf⟩
        exact ⟨m, hm, (endsAfter_succ_iff tol c n p m).mpr ⟨hp, hends⟩, hf⟩
    rw [hlater, endsAfter_zero_iff, zero_add, Function.iterate_one]
    by_cases hfin : StepFinite c n p
    · by_cases hsmall : StepSmall tol c n p
      · rw [bairstowFrom_succ_of_small hfin hsmall]
        simp [hfin, hsmall]
      · rw [bairstowFrom_succ_of_not_small hfin hsmall]
        simp [hfin, hsmall]
    · rw [bairstowFrom_succ_of_not_finite hfin]
      simp [hfin]
/-! ## The iteration as claims speak of it (42_pole_shifter R181) -/

section
variable {c : List F32} {n : Nat}

theorem dividesSynthetically_secondDivision (hn : 3 ≤ n) (hc : c.length = n + 1) (p : F32 × F32) :
    DividesSynthetically (fun i => (deflate c p.1 p.2).getD i 0#32) p.1 p.2 n
      fun i => (secondDivision c n p).getD i 0#32 := by
  have hlen : ((deflate c p.1 p.2).take n).length = n := by simp [hc]
  obtain ⟨hzero, hone, hnext⟩ := dividesSynthetically_deflate (c := (deflate c p.1 p.2).take n) p.1 p.2 (by omega)
  rw [hlen] at hnext
  have htake (i : Nat) (hi : i < n) : ((deflate c p.1 p.2).take n).getD i 0#32 = (deflate c p.1 p.2).getD i 0#32 := by
    simp [List.getD, hi]
  exact ⟨hzero.trans (htake 0 (by omega)), by rw [← htake 1 (by omega)]; exact hone,
    fun i h2 hi => by rw [← htake i hi]; exact hnext i h2 hi⟩

/-- Any `C` that follows the rule gives the step of the iteration. -/
theorem bairstowStep_eq_newtonStep (hn : 3 ≤ n) (hc : c.length = n + 1) {p : F32 × F32} {C : Nat → F32}
    (hC : DividesSynthetically (fun i => (deflate c p.1 p.2).getD i 0#32) p.1 p.2 n C) :
    bairstowStep c n p =
      newtonStep ((deflate c p.1 p.2).getD (n - 1) 0#32) ((deflate c p.1 p.2).getD n 0#32)
        (C (n - 1)) (C (n - 2)) (C (n - 3)) := by
  have h := hC.unique (fun _ _ => rfl) (dividesSynthetically_secondDivision hn hc p)
  rw [h _ (by omega), h _ (by omega), h _ (by omega)]
  rfl

theorem all_isFinite_iff (q : List F32) : q.all isFinite = true ↔ ∀ i < q.length, isFinite (q.getD i 0#32) = true := by
  rw [List.all_eq_true, List.forall_mem_iff_getElem]
  exact forall₂_congr fun i hi => by rw [List.getD_eq_getElem _ _ hi]

theorem eq_take_iff_getD {q l : List F32} {k : Nat} (hk : k ≤ l.length) :
    q = l.take k ↔ q.length = k ∧ ∀ i < k, q.getD i 0#32 = l.getD i 0#32 := by
  constructor
  · rintro rfl
    exact ⟨by simp [hk], fun i hi => by simp [List.getD, hi]⟩
  · rintro ⟨hlen, h⟩
    refine List.ext_getElem (by simp [hlen, hk]) fun i h1 h2 => ?_
    have := h i (by omega)
    rwa [List.getD_eq_getElem _ _ h1, List.getD_eq_getElem _ _ (by omega), ← List.getElem_take (h := h2)] at this

/-- The answer at `p`, coefficient by coefficient. -/
theorem eq_factorFrom_and_finite_iff (hc : c.length = n + 1) (p : F32 × F32) (f : Found) :
    f = factorFrom c n p ∧ f.Finite ↔
      f.u = p.1 ∧ f.v = p.2 ∧ isFinite f.u = true ∧ isFinite f.v = true ∧ f.q.length = n - 1 ∧
        ∀ i, i + 1 < n → f.q.getD i 0#32 = (deflate c f.u f.v).getD i 0#32 ∧ isFinite (f.q.getD i 0#32) = true := by
  have hk : n - 1 ≤ (deflate c p.1 p.2).length := by simp [hc]; omega
  constructor
  · rintro ⟨rfl, hu, hv, hq⟩
    obtain ⟨hlen, hget⟩ := (eq_take_iff_getD hk).mp (rfl : (factorFrom c n p).q = _)
    refine ⟨rfl, rfl, hu, hv, hlen, fun i hi => ⟨hget i (by omega), ?_⟩⟩
    exact (all_isFinite_iff _).mp hq i (by omega)
  · rintro ⟨hup, hvp, hu, hv, hlen, hget⟩
    rw [hup, hvp] at hget
    have hq := (eq_take_iff_getD hk).mpr ⟨hlen, fun i hi => (hget i (by omega)).1⟩
    refine ⟨?_, hu, hv, (all_isFinite_iff _).mpr fun i hi => (hget i (by omega)).2⟩
    cases f
    cases hup
    cases hvp
    cases hq
    rfl

/-- `guessFinds` speaks of the same iteration: its sequences are the one run from the guess. -/
theorem guessFinds_iff (hn : 3 ≤ n) (hc : c.length = n + 1) (g : F32 × F32) (f : Found) :
    guessFinds c n g f ↔ bairstowFrom 0x35800000#32 c n 32 g = some f := by
  rw [bairstowFrom_eq_some_iff]
  constructor
  · rintro ⟨m, U, V, C, du, dv, hm, hU0, hV0, hiter, hfactor⟩
    have hstep : ∀ it ≤ m, bairstowStep c n (U it, V it) = (du it, dv it) := fun it hit => by
      obtain ⟨hC0, hC1, hCnext, hdu, hdv, -⟩ := hiter it hit
      have hC : DividesSynthetically (fun i => (deflate c (U it) (V it)).getD i 0#32) (U it) (V it) n (C it) :=
        ⟨hC0, hC1, hCnext⟩
      rw [bairstowStep_eq_newtonStep hn hc (p := (U it, V it)) hC, newtonStep, hdu, hdv]
    have hrun : ∀ it ≤ m + 1, (bairstowNext c n)^[it] g = (U it, V it) := by
      intro it
      induction it with
      | zero => intro _; rw [hU0, hV0]; rfl
      | succ it ih =>
        intro hit
        obtain ⟨-, -, -, -, -, -, -, hU, hV, -⟩ := hiter it (by omega)
        rw [Function.iterate_succ_apply', ih (by omega), bairstowNext, hstep it (by omega), hU, hV]
    refine ⟨m, hm, fun it hit => ?_, ?_⟩
    · obtain ⟨-, -, -, -, -, hdu, hdv, -, -, hsmall⟩ := hiter it hit
      rw [hrun it (by omega), StepFinite, StepSmall, hstep it hit]
      exact ⟨⟨hdu, hdv⟩, hsmall⟩
    · rw [hrun (m + 1) le_rfl]
      exact (eq_factorFrom_and_finite_iff hc _ f).mpr hfactor
  · rintro ⟨m, hm, hends, hfactor⟩
    refine ⟨m, fun it => ((bairstowNext c n)^[it] g).1, fun it => ((bairstowNext c n)^[it] g).2,
      fun it i => (secondDivision c n ((bairstowNext c n)^[it] g)).getD i 0#32,
      fun it => (bairstowStep c n ((bairstowNext c n)^[it] g)).1,
      fun it => (bairstowStep c n ((bairstowNext c n)^[it] g)).2, hm, rfl, rfl, fun it hit => ?_,
      (eq_factorFrom_and_finite_iff hc _ f).mp hfactor⟩
    obtain ⟨hC0, hC1, hCnext⟩ := dividesSynthetically_secondDivision hn hc ((bairstowNext c n)^[it] g)
    obtain ⟨⟨hdu, hdv⟩, hsmall⟩ := hends it hit
    simp only [Function.iterate_succ_apply']
    exact ⟨hC0, hC1, hCnext, rfl, rfl, hdu, hdv, rfl, rfl, hsmall⟩

end

/-! ## The factor search (42_pole_shifter R181, R183) -/

/-- What start guess `g` finds. -/
def searchFrom (cfg : Config) (c : List F32) (n : Nat) (g : F32 × F32) : Option Found :=
  bairstowFrom cfg.rootTol c n cfg.rootIters g

theorem findFactor_cons (cfg : Config) (c : List F32) (n : Nat) (g : F32 × F32) (gs : List (F32 × F32)) :
    findFactor cfg c n (g :: gs) = (searchFrom cfg c n g).or (findFactor cfg c n gs) := by
  rw [findFactor, searchFrom, bairstowFrom]
  cases bairstow cfg.rootTol c n cfg.rootIters g.1 g.2 <;> rfl

theorem findFactor_eq_none_iff (cfg : Config) (c : List F32) (n : Nat) (gs : List (F32 × F32)) :
    findFactor cfg c n gs = none ↔ ∀ g < gs.length, searchFrom cfg c n (gs.getD g (0#32, 0#32)) = none := by
  induction gs with
  | nil => simp [findFactor]
  | cons g gs ih =>
    rw [findFactor_cons, Option.or_eq_none_iff, ih, List.length_cons, Nat.forall_lt_succ_left]
    rfl

/-- The first guess to find a factor answers. -/
theorem findFactor_eq_some_iff (cfg : Config) (c : List F32) (n : Nat) (f : Found) (gs : List (F32 × F32)) :
    findFactor cfg c n gs = some f ↔
      ∃ g < gs.length, searchFrom cfg c n (gs.getD g (0#32, 0#32)) = some f ∧
        ∀ h < g, searchFrom cfg c n (gs.getD h (0#32, 0#32)) = none := by
  induction gs with
  | nil => simp [findFactor]
  | cons g gs ih =>
    simp only [findFactor_cons, Option.or_eq_some_iff, ih, List.length_cons, Nat.exists_lt_succ_left,
      Nat.forall_lt_succ_left, List.getD_cons_zero, List.getD_cons_succ, Nat.not_lt_zero, false_imp_iff, implies_true,
      and_true, and_left_comm (b := searchFrom cfg c n g = none), exists_and_left]

/-- Settles O34: a guess finds what Bairstow's iteration from it answers, and the first to find one is the answer. -/
theorem factorSearchFollowsIteration : Obligations.FactorSearchFollowsIteration := by
  intro c n hn hc guess
  have hsome (g : Nat) (f : Found) :
      searchFrom Config.core c n (Config.core.rootGuess.getD g (0#32, 0#32)) = some f ↔ guessFinds c n (guess g) f :=
    (guessFinds_iff hn hc _ f).symm
  have hnone (g : Nat) : searchFrom Config.core c n (Config.core.rootGuess.getD g (0#32, 0#32)) = none ↔
      ∀ f, ¬ guessFinds c n (guess g) f := by
    simp only [Option.eq_none_iff_forall_ne_some, ne_eq, hsome]
  rw [findFactor_eq_none_iff]
  simp only [findFactor_eq_some_iff, hsome, hnone]
  exact ⟨fun f => Iff.rfl, Iff.rfl⟩

end Sys2Proof.Machine

namespace Sys2Proof.Machine

/-! ## Signs and magnitudes of scaled poles (40_numerics R131) -/

theorem fSign_fMag (a : F32) : fSign (fMag a) = false := by
  rw [← Bool.not_eq_true, fSign_iff]
  exact not_le.mpr (toNat_fMag_lt a)

theorem fMag_of_fSign {a : F32} (h : fSign a = false) : fMag a = a := by
  have := withSign_fSign_fMag a
  rwa [h] at this

theorem isNaN_withSign (neg : Bool) {m : F32} (h : m.toNat < 2 ^ 31) : isNaN (withSign neg m) = isNaN m := by
  have hm : fMag m = m := fMag_withSign false h
  rw [Bool.eq_iff_iff, isNaN_iff, isNaN_iff, fMag_withSign _ h, hm]

theorem isNaN_fMag (a : F32) : isNaN (fMag a) = isNaN a := by
  rw [← isNaN_withSign (fSign a) (toNat_fMag_lt a), withSign_fSign_fMag]

theorem fSign_fabs (a : F32) : fSign (fabs a) = false := by
  unfold fabs
  split
  · decide
  · exact fSign_fMag a

/-- A product of factors without sign has none, a NaN product included. -/
theorem fSign_fmul_of_nonneg {a b : F32} (ha : fSign a = false) (hb : fSign b = false) : fSign (fmul a b) = false := by
  unfold fmul
  rw [ha, hb]
  split_ifs
  · decide
  · decide
  · decide
  · exact fSign_roundDyadic _ _ _

/-- The magnitude given to `copysign` comes back. -/
theorem fabs_copysign {m : F32} (hnan : isNaN m = false) (hs : fSign m = false) (p : F32) : fabs (copysign m p) = m := by
  have hlt := toNat_fMag_lt m
  rw [copysign, if_neg (by simp [hnan]), fabs, if_neg (by simp [isNaN_withSign _ hlt, isNaN_fMag, hnan]),
    fMag_withSign _ hlt, fMag_of_fSign hs]

theorem isNaN_of_fle_left {a b : F32} (h : fle a b = true) : isNaN a = false := by
  simp only [fle, Bool.and_eq_true, Bool.not_eq_true'] at h
  exact h.1.1

/-- What is above a positive value has no sign. -/
theorem fSign_of_fle {a b : F32} (ha : 0 < fKey a) (h : fle a b = true) : fSign b = false := by
  simp only [fle, Bool.and_eq_true, decide_eq_true_iff] at h
  obtain ⟨-, hkey⟩ := h
  by_contra hs
  rw [Bool.not_eq_false] at hs
  rw [fKey.eq_1 b, if_pos hs] at hkey
  omega

/-! ## The clamps (42_pole_shifter R186, R187) -/

theorem scaleMag_fst (as m : F32) :
    (scaleMag Config.core as m).1 =
      if fle (fmul m as) 0x3F7FBE77#32 = true then fmul m as else 0x3F7FBE77#32 := by
  rw [scaleMag]
  exact apply_ite Prod.fst _ _ _

theorem scaleMag_snd (as m : F32) : (scaleMag Config.core as m).2 = !fle (fmul m as) 0x3F7FBE77#32 := by
  have hmax : Config.core.rMax = 0x3F7FBE77#32 := rfl
  rw [scaleMag, hmax]
  cases fle (fmul m as) 0x3F7FBE77#32 <;> rfl

theorem scaleAngle_fst (fs th : F32) :
    (scaleAngle Config.core fs th).1 =
      if fle (fmul th fs) 0x40470D23#32 = true then fmul th fs else 0x40470D23#32 := by
  rw [scaleAngle]
  exact apply_ite Prod.fst _ _ _

theorem scaleAngle_snd (fs th : F32) : (scaleAngle Config.core fs th).2 = !fle (fmul th fs) 0x40470D23#32 := by
  have hmax : Config.core.thetaMax = 0x40470D23#32 := rfl
  rw [scaleAngle, hmax]
  cases fle (fmul th fs) 0x40470D23#32 <;> rfl

/-- A NaN or an infinity is clamped too. -/
theorem fle_scaleMag (as m : F32) : fle (scaleMag Config.core as m).1 0x3F7FBE77#32 = true := by
  rw [scaleMag_fst]
  split_ifs with h
  · exact h
  · decide

theorem fle_scaleAngle (fs th : F32) : fle (scaleAngle Config.core fs th).1 0x40470D23#32 = true := by
  rw [scaleAngle_fst]
  split_ifs with h
  · exact h
  · decide

theorem fSign_scaleMag {as m : F32} (has : fSign as = false) (hm : fSign m = false) :
    fSign (scaleMag Config.core as m).1 = false := by
  rw [scaleMag_fst]
  split_ifs
  · exact fSign_fmul_of_nonneg hm has
  · decide

/-- A real pole that is scaled under its own sign is inside the clamp. -/
theorem fle_fabs_scaledPole {as : F32} (has : fSign as = false) (p : F32) :
    fle (fabs (copysign (scaleMag Config.core as (fabs p)).1 p)) 0x3F7FBE77#32 = true := by
  have hle := fle_scaleMag as (fabs p)
  rwa [fabs_copysign (isNaN_of_fle_left hle) (fSign_scaleMag has (fSign_fabs p))]

theorem fle_fabs_zero : fle (fabs fZero) 0x3F7FBE77#32 = true := by decide

/-! ## `PSHIFT` (42_pole_shifter R186 to R189) -/

/-- What `PSHIFT` makes of factor `j`. -/
def shiftedAt (s : State) (j : Nat) : Shifted :=
  (shiftAll Config.core s.snap.freq s.snap.amp s.poles).getD j shiftedZero

section
variable {s : State} {j : Nat}

/-- Every register array that `PSHIFT` writes lists one field of the shifted factors. -/
theorem getD_map_shiftAll (s : State) (g : Shifted → F32) (hg : g shiftedZero = 0#32) (j : Nat) :
    ((shiftAll Config.core s.snap.freq s.snap.amp s.poles).map g).getD j 0#32 = g (shiftedAt s j) := by
  rw [← hg, List.getD_map, shiftedAt]

theorem pshift_plA (s : State) (j : Nat) : (pshift Config.core s).poles.plA.getD j 0#32 = (shiftedAt s j).plA :=
  getD_map_shiftAll s _ rfl j
theorem pshift_plB (s : State) (j : Nat) : (pshift Config.core s).poles.plB.getD j 0#32 = (shiftedAt s j).plB :=
  getD_map_shiftAll s _ rfl j
theorem pshift_psA (s : State) (j : Nat) : (pshift Config.core s).poles.psA.getD j 0#32 = (shiftedAt s j).psA :=
  getD_map_shiftAll s _ rfl j
theorem pshift_psB (s : State) (j : Nat) : (pshift Config.core s).poles.psB.getD j 0#32 = (shiftedAt s j).psB :=
  getD_map_shiftAll s _ rfl j
theorem pshift_shU (s : State) (j : Nat) : (pshift Config.core s).poles.shU.getD j 0#32 = (shiftedAt s j).shU :=
  getD_map_shiftAll s _ rfl j
theorem pshift_shV (s : State) (j : Nat) : (pshift Config.core s).poles.shV.getD j 0#32 = (shiftedAt s j).shV :=
  getD_map_shiftAll s _ rfl j

theorem shiftedAt_of_lt (hj : j < 6) (hn : j < s.poles.nqf.toNat) :
    shiftedAt s j = shiftFactor Config.core s.snap.freq s.snap.amp (factorAt s.poles j) := by
  simp [shiftedAt, shiftAll, List.getD, hj, hn]

theorem shiftedAt_of_le (hn : s.poles.nqf.toNat ≤ j) : shiftedAt s j = shiftedZero := by
  by_cases hj : j < 6 <;> simp [shiftedAt, shiftAll, List.getD, hj, hn]

theorem shiftFactor_of_complexPair {f : Factor} (fs as : F32) (h : f.kind = .complexPair) :
    shiftFactor Config.core fs as f = shiftComplex Config.core fs as f.u f.v := by
  rw [shiftFactor, h]

theorem shiftFactor_of_twoReal {f : Factor} (fs as : F32) (h : f.kind = .twoReal) :
    shiftFactor Config.core fs as f = shiftTwoReal Config.core as f.u f.v := by
  rw [shiftFactor, h]

theorem shiftFactor_of_oneReal {f : Factor} (fs as : F32) (h : f.kind = .oneReal) :
    shiftFactor Config.core fs as f = shiftOneReal Config.core as f.u := by
  rw [shiftFactor, h]

theorem shiftedAt_of_complexPair (hj : j < 6) (hn : j < s.poles.nqf.toNat)
    (hk : s.poles.kind.getD j .empty = .complexPair) :
    shiftedAt s j =
      shiftComplex Config.core s.snap.freq s.snap.amp (s.poles.u.getD j 0#32) (s.poles.v.getD j 0#32) :=
  (shiftedAt_of_lt hj hn).trans (shiftFactor_of_complexPair _ _ hk)

theorem shiftedAt_of_twoReal (hj : j < 6) (hn : j < s.poles.nqf.toNat) (hk : s.poles.kind.getD j .empty = .twoReal) :
    shiftedAt s j = shiftTwoReal Config.core s.snap.amp (s.poles.u.getD j 0#32) (s.poles.v.getD j 0#32) :=
  (shiftedAt_of_lt hj hn).trans (shiftFactor_of_twoReal _ _ hk)

theorem shiftedAt_of_oneReal (hj : j < 6) (hn : j < s.poles.nqf.toNat) (hk : s.poles.kind.getD j .empty = .oneReal) :
    shiftedAt s j = shiftOneReal Config.core s.snap.amp (s.poles.u.getD j 0#32) :=
  (shiftedAt_of_lt hj hn).trans (shiftFactor_of_oneReal _ _ hk)

end

/-- Settles O36: each pole is what a clamp answers, under its own sign where it is real. -/
theorem pshiftKeepsPolesStable : Obligations.PshiftKeepsPolesStable := by
  intro s hs
  have hamp : fSign s.snap.amp = false := fSign_of_fle (by decide) hs.ampLow
  refine ⟨pshift Config.core s, exec_pshift s, fun j hn => ?_⟩
  have hj : j < 6 := hn.trans_le hs.nqf
  rw [pshift_psA, pshift_psB]
  refine ⟨fun hk => ?_, ?_⟩
  · rw [shiftedAt_of_complexPair hj hn hk]
    exact ⟨fle_scaleMag _ _, fle_scaleAngle _ _⟩
  · rintro (hk | hk)
    · rw [shiftedAt_of_twoReal hj hn hk]
      exact ⟨fle_fabs_scaledPole hamp _, fle_fabs_scaledPole hamp _⟩
    · rw [shiftedAt_of_oneReal hj hn hk]
      exact ⟨fle_fabs_scaledPole hamp _, fle_fabs_zero⟩

/-! ### The flags -/

theorem any_shiftAll_iff (s : State) (flag : Shifted → Bool) (h0 : flag shiftedZero = false) :
    (shiftAll Config.core s.snap.freq s.snap.amp s.poles).any flag = true ↔
      ∃ j < 6, j < s.poles.nqf.toNat ∧ flag (shiftedAt s j) = true := by
  simp only [shiftAll, core_jmax, List.any_map, List.any_eq_true, List.mem_range, Function.comp_apply]
  refine exists_congr fun j => and_congr_right fun hj => ?_
  by_cases hn : j < s.poles.nqf.toNat
  · simp [hn, shiftedAt_of_lt hj hn]
  · simp [hn, h0]

/-- Which factors have their magnitude clamped. -/
theorem shiftFactor_rclamp_iff (fs as : F32) (f : Factor) :
    (shiftFactor Config.core fs as f).rclamp = true ↔
      (f.kind = .complexPair ∧ fle (fmul (shiftFactor Config.core fs as f).plA as) 0x3F7FBE77#32 = false) ∨
      (f.kind = .twoReal ∧ (fle (fmul (fabs (shiftFactor Config.core fs as f).plA) as) 0x3F7FBE77#32 = false ∨
        fle (fmul (fabs (shiftFactor Config.core fs as f).plB) as) 0x3F7FBE77#32 = false)) ∨
      (f.kind = .oneReal ∧ fle (fmul (fabs (shiftFactor Config.core fs as f).plA) as) 0x3F7FBE77#32 = false) := by
  cases hk : f.kind with
  | empty => simp [shiftFactor, hk, shiftedZero]
  | complexPair => simp [shiftFactor_of_complexPair fs as hk, shiftComplex, scaleMag_snd]
  | twoReal => simp [shiftFactor_of_twoReal fs as hk, shiftTwoReal, scaleMag_snd]
  | oneReal => simp [shiftFactor_of_oneReal fs as hk, shiftOneReal, scaleMag_snd]

/-- Only a complex pair has an angle to clamp. -/
theorem shiftFactor_aclamp_iff (fs as : F32) (f : Factor) :
    (shiftFactor Config.core fs as f).aclamp = true ↔
      f.kind = .complexPair ∧ fle (fmul (shiftFactor Config.core fs as f).plB fs) 0x40470D23#32 = false := by
  cases hk : f.kind with
  | empty => simp [shiftFactor, hk, shiftedZero]
  | complexPair => simp [shiftFactor_of_complexPair fs as hk, shiftComplex, scaleAngle_snd]
  | twoReal => simp [shiftFactor_of_twoReal fs as hk, shiftTwoReal]
  | oneReal => simp [shiftFactor_of_oneReal fs as hk, shiftOneReal]

/-- Settles O37: each register is a field of the shifted factor of its kind; the flags collect those of the factors. -/
theorem pshiftShiftsEachFactor : Obligations.PshiftShiftsEachFactor := by
  refine ⟨rfl, fun s => ⟨pshift Config.core s, exec_pshift s, ?_, rfl⟩⟩
  simp only [pshift_plA, pshift_plB, pshift_psA, pshift_psB, pshift_shU, pshift_shV]
  refine ⟨fun j _ hn => ?zeroed, fun j hj hn => ⟨fun hk => ?complexPair, fun hk => ?twoReal, fun hk => ?oneReal⟩, ?rclamp,
    ?aclamp⟩
  case zeroed =>
    rw [shiftedAt_of_le hn]
    exact ⟨rfl, rfl, rfl, rfl, rfl, rfl⟩
  case complexPair =>
    rw [shiftedAt_of_complexPair hj hn hk]
    refine ⟨rfl, rfl, scaleMag_fst _ _, fun h => ?_, fun h => ?_, rfl, rfl⟩
    · exact (scaleAngle_fst _ _).trans (if_pos (eq_true_of_ne_false h))
    · exact (scaleAngle_fst _ _).trans (if_neg (ne_true_of_eq_false h))
  case twoReal =>
    rw [shiftedAt_of_twoReal hj hn hk]
    exact ⟨⟨_, rfl, rfl, rfl⟩, congrArg (copysign · _) (scaleMag_fst _ _), congrArg (copysign · _) (scaleMag_fst _ _), rfl,
      rfl⟩
  case oneReal =>
    rw [shiftedAt_of_oneReal hj hn hk]
    exact ⟨rfl, rfl, congrArg (copysign · _) (scaleMag_fst _ _), rfl, rfl, rfl⟩
  case rclamp =>
    refine (any_shiftAll_iff s Shifted.rclamp rfl).trans (exists_congr fun j => and_congr_right fun hj =>
      and_congr_right fun hn => ?_)
    rw [shiftedAt_of_lt hj hn]
    exact shiftFactor_rclamp_iff _ _ _
  case aclamp =>
    refine (any_shiftAll_iff s Shifted.aclamp rfl).trans (exists_congr fun j => and_congr_right fun hj =>
      and_congr_right fun hn => ?_)
    rw [shiftedAt_of_lt hj hn]
    exact shiftFactor_aclamp_iff _ _ _

end Sys2Proof.Machine

namespace Sys2Proof.Machine

/-! ## Products of polynomials, coefficient by coefficient (42_pole_shifter R191) -/

theorem getD_zipWith_of_lt (g : F32 → F32 → F32) {l l' : List F32} {i : Nat} (h : i < l.length) (h' : i < l'.length) :
    (List.zipWith g l l').getD i 0#32 = g (l.getD i 0#32) (l'.getD i 0#32) := by
  simp [List.getD, h, h']

/-- Zeros after a polynomial do not show. -/
theorem getD_append_zeros (w : List F32) (k i : Nat) : (w ++ List.replicate k 0#32).getD i 0#32 = w.getD i 0#32 := by
  by_cases h : i < w.length
  · rw [List.getD_append _ _ _ _ h]
  · rw [List.getD_append_right _ _ _ _ (not_lt.mp h), List.getD_eq_default w _ (not_lt.mp h)]
    simp

/-- Zeros before a polynomial shift it. -/
theorem getD_zeros_append (w : List F32) (m i : Nat) : (List.replicate m 0#32 ++ w).getD i 0#32 = coefBelow w i m := by
  by_cases h : m ≤ i
  · rw [List.getD_append_right _ _ _ _ (by simpa using h), List.length_replicate, coefBelow, if_pos h]
    rfl
  · rw [List.getD_append _ _ _ _ (by simpa using h), coefBelow, if_neg h, List.getD_replicate _ (by omega)]
    rfl

theorem mulLinear_eq (u : F32) (w : List F32) :
    mulLinear u w =
      List.zipWith (fun x y => fadd x (fmul u y)) (w ++ List.replicate 1 0#32) (List.replicate 1 0#32 ++ w) := rfl

theorem mulQuadratic_eq (u v : F32) (w : List F32) :
    mulQuadratic u v w =
      List.zipWith (fun x y => fadd x (fmul v y))
        (List.zipWith (fun x y => fadd x (fmul u y)) (w ++ List.replicate 2 0#32)
          ((List.replicate 1 0#32 ++ w) ++ List.replicate 1 0#32))
        (List.replicate 2 0#32 ++ w) := rfl

theorem getD_mulLinear (u : F32) (w : List F32) (i : Nat) :
    (mulLinear u w).getD i 0#32 =
      if i < w.length + 1 then fadd (w.getD i 0#32) (fmul u (coefBelow w i 1)) else 0#32 := by
  split_ifs with h
  · rw [mulLinear_eq, getD_zipWith_of_lt _ (by simpa using h) (by simp; omega), getD_append_zeros, getD_zeros_append]
  · exact List.getD_eq_default _ _ (by simpa using h)

theorem getD_mulQuadratic (u v : F32) (w : List F32) (i : Nat) :
    (mulQuadratic u v w).getD i 0#32 =
      if i < w.length + 2 then
        fadd (fadd (w.getD i 0#32) (fmul u (coefBelow w i 1))) (fmul v (coefBelow w i 2))
      else 0#32 := by
  split_ifs with h
  · rw [mulQuadratic_eq, getD_zipWith_of_lt _ (by simp; omega) (by simp; omega),
      getD_zipWith_of_lt _ (by simpa using h) (by simp; omega), getD_append_zeros, getD_append_zeros, getD_zeros_append,
      getD_zeros_append]
  · exact List.getD_eq_default _ _ (by simpa using h)

theorem getD_mulRemainder (rem : List F32) {deg : Nat} (hdeg : deg ≠ 0) (w : List F32) (i : Nat) :
    (mulRemainder rem deg w).getD i 0#32 =
      if i < w.length + deg then
        (List.range (deg + 1)).foldl (fun acc m => fadd acc (fmul (rem.getD m 0#32) (coefBelow w i m))) 0#32
      else 0#32 := by
  split_ifs with h
  · rw [mulRemainder, if_neg hdeg, List.getD_eq_getElem _ _ (by simpa using h), List.getElem_map, List.getElem_range]
    rfl
  · exact List.getD_eq_default _ _ (by rw [length_mulRemainder]; omega)

/-! ## `PRECON` (42_pole_shifter R191) -/

/-- The product of the first `j` shifted factors. -/
def factorProduct (p : Poles) : Nat → List F32
  | 0 => [fOne]
  | j + 1 =>
    if p.kind.getD j .empty = .oneReal then mulLinear (p.shU.getD j fZero) (factorProduct p j)
    else mulQuadratic (p.shU.getD j fZero) (p.shV.getD j fZero) (factorProduct p j)

theorem factorProduct_of_oneReal {p : Poles} {j : Nat} (h : p.kind.getD j .empty = .oneReal) :
    factorProduct p (j + 1) = mulLinear (p.shU.getD j 0#32) (factorProduct p j) := if_pos h

theorem factorProduct_of_not_oneReal {p : Poles} {j : Nat} (h : p.kind.getD j .empty ≠ .oneReal) :
    factorProduct p (j + 1) = mulQuadratic (p.shU.getD j 0#32) (p.shV.getD j 0#32) (factorProduct p j) := if_neg h

theorem length_factorProduct_pos (p : Poles) (j : Nat) : 0 < (factorProduct p j).length := by
  cases j with
  | zero => exact Nat.one_pos
  | succ j =>
    by_cases h : p.kind.getD j .empty = .oneReal
    · simp [factorProduct_of_oneReal h]
    · simp [factorProduct_of_not_oneReal h]

/-- The loop of the model runs through these products. -/
theorem foldl_eq_factorProduct (p : Poles) (n : Nat) :
    (List.range n).foldl
      (fun w j =>
        if p.kind.getD j .empty = .oneReal then mulLinear (p.shU.getD j fZero) w
        else mulQuadratic (p.shU.getD j fZero) (p.shV.getD j fZero) w)
      [fOne] = factorProduct p n := by
  induction n with
  | zero => rfl
  | succ n ih =>
    rw [List.range_succ, List.foldl_append, ih]
    rfl

theorem reconstruct_eq (p : Poles) :
    reconstruct p = mulRemainder p.rem p.remDeg.toNat (factorProduct p p.nqf.toNat) := by
  rw [← foldl_eq_factorProduct]
  rfl

/-- `NEW_A` if the product is taken. -/
def productCoefs (s : State) : List F32 := padTo 13 fZero (reconstruct s.poles)

theorem getD_productCoefs (s : State) {k : Nat} (hk : k ≤ 12) :
    (productCoefs s).getD k 0#32 = (reconstruct s.poles).getD k 0#32 :=
  (getD_padTo 13 fZero _ k).trans (if_pos (by omega))

theorem length_productCoefs (s : State) : (productCoefs s).length = 13 := length_padTo _ _ _

theorem productCoefs_all_isFinite_iff (s : State) :
    (productCoefs s).all isFinite = true ↔ ∀ k ≤ 12, isFinite ((reconstruct s.poles).getD k 0#32) = true := by
  rw [all_isFinite_iff, length_productCoefs]
  refine forall_congr' fun k => imp_congr_ctx Nat.lt_succ_iff fun hk => ?_
  rw [getD_productCoefs s hk]

theorem precon_newAQ (s : State) :
    (precon Config.core s).recon.newAQ = toFixed Config.core (precon Config.core s).recon.newA := rfl

theorem precon_nonfin (s : State) : (precon Config.core s).fr.nonfin = !(productCoefs s).all isFinite := rfl

theorem precon_newA (s : State) :
    (precon Config.core s).recon.newA =
      if (productCoefs s).all isFinite = true then productCoefs s else padTo 13 fZero s.lpc.a := rfl

theorem precon_newA_of_finite {s : State} (h : (precon Config.core s).fr.nonfin = false) :
    (precon Config.core s).recon.newA = productCoefs s := by
  rw [precon_nonfin, Bool.not_eq_false'] at h
  rw [precon_newA, if_pos h]

theorem precon_newA_of_nonfin {s : State} (h : (precon Config.core s).fr.nonfin = true) :
    (precon Config.core s).recon.newA = padTo 13 fZero s.lpc.a := by
  rw [precon_nonfin, Bool.not_eq_true'] at h
  rw [precon_newA, if_neg (by simp [h])]

/-- Settles O38: `w` and `d` are the products of the factors and their degrees, `f` the product with the remainder. -/
theorem preconMultipliesFactors : Obligations.PreconMultipliesFactors := by
  refine ⟨rfl, fun s => ⟨precon Config.core s, fun j => (factorProduct s.poles j).length - 1,
    fun j i => (factorProduct s.poles j).getD i 0#32, fun i => (reconstruct s.poles).getD i 0#32, exec_precon s, ?product,
    ?nonfin, fun h k hk => ?finite, fun h k hk => ?fallback, fun k _ => ?fixed, rfl⟩⟩
  case product =>
    have hdeg (j : Nat) : (factorProduct s.poles j).length - 1 + 1 = (factorProduct s.poles j).length :=
      Nat.sub_add_cancel (length_factorProduct_pos s.poles j)
    have hle (j k i : Nat) : i ≤ (factorProduct s.poles j).length - 1 + k ↔ i < (factorProduct s.poles j).length + k := by
      have := hdeg j
      omega
    refine ⟨rfl, fun i => ?one, fun j _ => ⟨fun hk => ?linear, fun hk => ?quadratic⟩, fun hr i => ?whole, fun hr i => ?rest⟩
    case one => cases i <;> rfl
    case linear =>
      have := hdeg j
      simp only [factorProduct_of_oneReal hk, length_mulLinear, hle]
      exact ⟨by omega, fun i => getD_mulLinear _ _ i⟩
    case quadratic =>
      have := hdeg j
      simp only [factorProduct_of_not_oneReal hk, length_mulQuadratic, hle]
      exact ⟨by omega, fun i => getD_mulQuadratic _ _ _ i⟩
    case whole =>
      dsimp only
      rw [reconstruct_eq, mulRemainder, if_pos hr]
    case rest =>
      simp only [hle, reconstruct_eq]
      exact getD_mulRemainder _ (Nat.ne_of_gt hr) _ i
  case nonfin => rw [precon_nonfin, Bool.not_eq_false', productCoefs_all_isFinite_iff]
  case finite => rw [precon_newA_of_finite h, getD_productCoefs s hk]
  case fallback =>
    rw [precon_newA_of_nonfin h]
    exact (getD_padTo 13 fZero _ k).trans (if_pos (by omega))
  case fixed => rw [precon_newAQ, toInt_getD_toFixed]

end Sys2Proof.Machine

namespace Sys2Proof.Machine

/-! ## Register arrays of factors -/

/-- An array that holds the whole list. -/
theorem getD_padTo_of_length_le {α : Type} {len : Nat} {l : List α} (h : l.length ≤ len) (d : α) (k : Nat) :
    (padTo len d l).getD k d = l.getD k d := by
  rw [getD_padTo]
  split_ifs with hk
  · rfl
  · rw [List.getD_eq_default _ _ (by omega)]

theorem padTo_eq_append {α : Type} {len : Nat} {l : List α} (h : l.length ≤ len) (d : α) :
    padTo len d l = l ++ List.replicate (len - l.length) d := by
  refine List.ext_getElem (by simp; omega) fun i h1 h2 => ?_
  by_cases hi : i < l.length <;> simp [padTo, List.getD, List.getElem_append, hi]

/-- A factor register that holds none. -/
def noFactor : Factor where
  kind := .empty
  u := fZero
  v := fZero

theorem getD_padTo_map_factor {α : Type} {fs : List Factor} (h : fs.length ≤ 6) (g : Factor → α) (j : Nat) :
    (padTo 6 (g noFactor) (fs.map g)).getD j (g noFactor) = g (fs.getD j noFactor) := by
  rw [getD_padTo_of_length_le (by simpa using h), List.getD_map]

/-- Quadratic factors are of kind 1 or 2. -/
theorem count_quadratic_kinds {ks : List FactorKind} (h : ∀ k ∈ ks, k = .complexPair ∨ k = .twoReal) :
    ks.count .complexPair + ks.count .twoReal = ks.length ∧ ks.count .oneReal = 0 := by
  induction ks with
  | nil => simp
  | cons k ks ih =>
    obtain ⟨hsum, hnone⟩ := ih fun k' hk' => h k' (List.mem_cons_of_mem _ hk')
    rcases h k List.mem_cons_self with rfl | rfl <;> simp [hnone] <;> omega

/-! ## The working polynomials of `PROOTS` (42_pole_shifter R180) -/

/-- The search on a whole polynomial. -/
def searchFactor (c : List F32) : Option Found := findFactor Config.core c (c.length - 1) Config.core.rootGuess

theorem searchFactor_of_length {c : List F32} {n : Nat} (h : c.length = n + 1) :
    searchFactor c = findFactor Config.core c n Config.core.rootGuess := by
  rw [searchFactor, h, Nat.add_sub_cancel]

/-- What is left of a polynomial when a factor is divided out; nothing where the search fails. -/
def deflated (c : List F32) : List F32 := (searchFactor c).elim [] Found.q

theorem deflated_of_some {c : List F32} {f : Found} (h : searchFactor c = some f) : deflated c = f.q := by
  rw [deflated, h, Option.elim_some]

/-- The search divides out two degrees. -/
theorem length_of_searchFactor {c : List F32} {f : Found} (h : searchFactor c = some f) :
    f.q.length = c.length - 2 := by
  obtain ⟨g, -, hfind, -⟩ := (findFactor_eq_some_iff _ _ _ _ _).mp h
  obtain ⟨m, -, -, rfl, -⟩ := (bairstowFrom_eq_some_iff _ _ _ _ _ _).mp hfind
  simp only [factorFrom, List.length_take, length_deflate]
  omega

/-- The factors `r` of a polynomial `c` of degree `2 * k`, the working polynomials being `deflated^[j] c`; `searched`
tells that only a failing search leaves a polynomial. -/
structure Extracted (searched : Prop) (k : Nat) (c : List F32) (r : Factors) : Prop where
  bound : r.found.length ≤ k
  quadratic : ∀ f ∈ r.found, f = quadFactor f.u f.v
  length : ∀ j ≤ r.found.length, j < k → (deflated^[j] c).length = 2 * k + 1 - 2 * j
  search : ∀ j < r.found.length, j + 1 < k →
    searchFactor (deflated^[j] c) =
      some { u := (r.found.getD j noFactor).u, v := (r.found.getD j noFactor).v, q := deflated^[j + 1] c }
  last : ∀ j < r.found.length, j + 1 = k →
    (r.found.getD j noFactor).u = (deflated^[j] c).getD 1 fZero ∧
    (r.found.getD j noFactor).v = (deflated^[j] c).getD 2 fZero
  left : (r.found.length = k ∧ r.left = none) ∨
    (r.found.length < k ∧ r.left = some (deflated^[r.found.length] c) ∧
      (searched → r.found.length + 1 < k ∧ searchFactor (deflated^[r.found.length] c) = none))

/-- The kind of each factor is that of its discriminant. -/
theorem Extracted.kind {searched : Prop} {k : Nat} {c : List F32} {r : Factors} (h : Extracted searched k c r) {j : Nat}
    (hj : j < r.found.length) :
    (r.found.getD j noFactor).kind =
      if flt (fsub (fmul (r.found.getD j noFactor).u (r.found.getD j noFactor).u)
          (fmul fFour (r.found.getD j noFactor).v)) fZero = true
      then .complexPair else .twoReal := by
  have hmem : r.found.getD j noFactor ∈ r.found := by
    rw [List.getD_eq_getElem _ _ hj]
    exact List.getElem_mem hj
  exact congrArg Factor.kind (h.quadratic _ hmem)

theorem quadFactor_eta (u v : F32) : quadFactor u v = quadFactor (quadFactor u v).u (quadFactor u v).v := rfl

/-- A polynomial of degree 2 is its own last factor. -/
theorem extracted_last {c : List F32} (h : c.length = 3) :
    Extracted True 1 c { found := [quadFactor (c.getD 1 fZero) (c.getD 2 fZero)], left := none } where
  bound := le_rfl
  quadratic := by simp [← quadFactor_eta]
  length := fun j _ hj => by
    obtain rfl : j = 0 := by omega
    exact h
  search := fun j _ hj => absurd hj (by omega)
  last := fun j _ hj => by
    obtain rfl : j = 0 := by omega
    exact ⟨rfl, rfl⟩
  left := .inl ⟨rfl, rfl⟩

/-- A polynomial left whole. -/
theorem extracted_left {searched : Prop} {k : Nat} {c : List F32} (hk : 0 < k) (h : c.length = 2 * k + 1)
    (hfail : searched → 1 < k ∧ searchFactor c = none) :
    Extracted searched k c { found := [], left := some c } where
  bound := Nat.zero_le k
  quadratic := by simp
  length := fun j hj _ => by
    obtain rfl : j = 0 := by simpa using hj
    exact h
  search := fun j hj => absurd hj (Nat.not_lt_zero j)
  last := fun j hj => absurd hj (Nat.not_lt_zero j)
  left := .inr ⟨hk, rfl, hfail⟩

/-- A factor found before the others. -/
theorem Extracted.cons {k : Nat} {c : List F32} {f : Found} {r : Factors} (hk : 0 < k) (hc : c.length = 2 * k + 3)
    (hf : searchFactor c = some f) (h : Extracted True k f.q r) :
    Extracted True (k + 1) c { found := quadFactor f.u f.v :: r.found, left := r.left } := by
  have hq (j : Nat) : deflated^[j + 1] c = deflated^[j] f.q := by
    rw [Function.iterate_succ_apply, deflated_of_some hf]
  refine ⟨by simpa using h.bound, ?quadratic, fun j hj hjk => ?length, fun j hj hjk => ?search, fun j hj hjk => ?last, ?left⟩
  case quadratic => simpa [← quadFactor_eta] using h.quadratic
  case length =>
    cases j with
    | zero => exact hc
    | succ j =>
      rw [hq, h.length j (by simpa using hj) (by omega)]
      omega
  case search =>
    cases j with
    | zero =>
      rw [hq]
      exact hf
    | succ j =>
      rw [hq, hq]
      exact h.search j (by simpa using hj) (by omega)
  case last =>
    cases j with
    | zero => omega
    | succ j =>
      rw [hq]
      exact h.last j (by simpa using hj) (by omega)
  case left =>
    rw [List.length_cons, hq]
    rcases h.left with ⟨hlen, hleft⟩ | ⟨hlen, hleft, hfail⟩
    · exact .inl ⟨by omega, hleft⟩
    · refine .inr ⟨by omega, hleft, fun _ => ?_⟩
      obtain ⟨hroom, hnone⟩ := hfail trivial
      exact ⟨by omega, hnone⟩

theorem factorLoop_of_length_three {c : List F32} (m : Nat) (h : c.length = 3) :
    factorLoop Config.core (m + 1) c =
      { found := [quadFactor (c.getD 1 fZero) (c.getD 2 fZero)], left := none } := by
  simp [factorLoop, h]

theorem factorLoop_of_none {c : List F32} (m : Nat) (h : 3 < c.length) (hs : searchFactor c = none) :
    factorLoop Config.core (m + 1) c = { found := [], left := some c } := by
  unfold searchFactor at hs
  rw [factorLoop, if_neg (by omega), if_neg (by omega), if_neg (by omega), hs]

theorem factorLoop_of_some {c : List F32} {f : Found} (m : Nat) (h : 3 < c.length) (hs : searchFactor c = some f) :
    factorLoop Config.core (m + 1) c =
      { found := quadFactor f.u f.v :: (factorLoop Config.core m f.q).found
        left := (factorLoop Config.core m f.q).left } := by
  unfold searchFactor at hs
  rw [factorLoop, if_neg (by omega), if_neg (by omega), if_neg (by omega), hs]

/-- The loop on a polynomial of even degree. -/
theorem extracted_factorLoop (k : Nat) : ∀ (m : Nat) (c : List F32), k < m → c.length = 2 * k + 3 →
    Extracted True (k + 1) c (factorLoop Config.core m c) := by
  induction k with
  | zero =>
    intro m c hm hc
    obtain ⟨m, rfl⟩ := Nat.exists_eq_add_of_le' hm
    rw [factorLoop_of_length_three m hc]
    exact extracted_last hc
  | succ k ih =>
    intro m c hm hc
    obtain ⟨m, rfl⟩ := Nat.exists_eq_add_of_le' (Nat.zero_lt_of_lt hm)
    cases hs : searchFactor c with
    | none =>
      rw [factorLoop_of_none m (by omega) hs]
      exact extracted_left (by omega) (by omega) fun _ => ⟨by omega, hs⟩
    | some f =>
      rw [factorLoop_of_some m (by omega) hs]
      have hq := length_of_searchFactor hs
      exact (ih m f.q (by omega) (by omega)).cons (by omega) (by omega) hs

/-! ## `PROOTS` (42_pole_shifter R180, R184) -/

/-- The characteristic polynomial. -/
def charPoly (s : State) : List F32 := padTo 13 fZero s.lpc.a

/-- What `PROOTS` finds. -/
def prootsFactors (s : State) : Factors := factorise Config.core s.fr.degen s.lpc.a

theorem length_charPoly (s : State) : (charPoly s).length = 13 := length_padTo _ _ _

theorem extracted_proots (s : State) : Extracted (s.fr.degen = false) 6 (charPoly s) (prootsFactors s) := by
  rw [prootsFactors, factorise]
  cases s.fr.degen with
  | true => exact extracted_left (by omega) (length_charPoly s) nofun
  | false =>
    have h := extracted_factorLoop 5 13 (charPoly s) (by omega) (length_charPoly s)
    exact { h with left := h.left.imp_right fun ⟨hlen, hleft, hfail⟩ => ⟨hlen, hleft, fun _ => hfail trivial⟩ }

theorem prootsFactors_of_degen {s : State} (h : s.fr.degen = true) : (prootsFactors s).found = [] := by
  rw [prootsFactors, factorise, if_pos h]

theorem proots_nqf (s : State) : (proots Config.core s).poles.nqf = BitVec.ofNat 5 (prootsFactors s).found.length := rfl

theorem proots_nqf_toNat (s : State) :
    (proots Config.core s).poles.nqf.toNat = (prootsFactors s).found.length := by
  have := (extracted_proots s).bound
  rw [proots_nqf, BitVec.toNat_ofNat]
  omega

theorem proots_kind (s : State) (j : Nat) :
    (proots Config.core s).poles.kind.getD j .empty = ((prootsFactors s).found.getD j noFactor).kind :=
  getD_padTo_map_factor (extracted_proots s).bound Factor.kind j

theorem proots_u (s : State) (j : Nat) :
    (proots Config.core s).poles.u.getD j 0#32 = ((prootsFactors s).found.getD j noFactor).u :=
  getD_padTo_map_factor (extracted_proots s).bound Factor.u j

theorem proots_v (s : State) (j : Nat) :
    (proots Config.core s).poles.v.getD j 0#32 = ((prootsFactors s).found.getD j noFactor).v :=
  getD_padTo_map_factor (extracted_proots s).bound Factor.v j

/-- The kinds, counted: each factor takes two degrees. -/
theorem proots_kind_counts (s : State) :
    (proots Config.core s).poles.kind.count .complexPair + (proots Config.core s).poles.kind.count .twoReal =
      (prootsFactors s).found.length ∧ (proots Config.core s).poles.kind.count .oneReal = 0 := by
  have hext := extracted_proots s
  have hlen : ((prootsFactors s).found.map Factor.kind).length ≤ 6 := List.length_map Factor.kind ▸ hext.bound
  have hkinds : (proots Config.core s).poles.kind = _ := padTo_eq_append hlen .empty
  obtain ⟨hsum, hnone⟩ := count_quadratic_kinds (ks := (prootsFactors s).found.map Factor.kind) fun k hk => by
    obtain ⟨f, hf, rfl⟩ := List.mem_map.mp hk
    rw [hext.quadratic f hf]
    exact ite_eq_or_eq _ _ _
  rw [hkinds]
  simpa [List.count_append, List.count_replicate, hnone] using hsum

theorem proots_of_left_none {s : State} (h : (prootsFactors s).left = none) :
    (proots Config.core s).poles.rem = fOne :: List.replicate 12 fZero ∧
    (proots Config.core s).poles.remDeg = 0#5 ∧ (proots Config.core s).fr.noconv = false := by
  unfold prootsFactors at h
  simp only [proots, goStage_poles, goStage_fr, h]
  exact ⟨rfl, rfl, Bool.and_false _⟩

theorem proots_of_left_some {s : State} {c : List F32} (h : (prootsFactors s).left = some c) :
    (proots Config.core s).poles.rem = padTo 13 fZero c ∧
    (proots Config.core s).poles.remDeg = BitVec.ofNat 5 (c.length - 1) ∧
    (proots Config.core s).fr.noconv = !s.fr.degen := by
  unfold prootsFactors at h
  simp only [proots, goStage_poles, goStage_fr, h]
  exact ⟨rfl, rfl, Bool.and_true _⟩

/-- What is not factored has the other degrees. -/
theorem proots_remDeg_toNat (s : State) :
    (proots Config.core s).poles.remDeg.toNat = 12 - 2 * (prootsFactors s).found.length := by
  have hext := extracted_proots s
  rcases hext.left with ⟨hall, hleft⟩ | ⟨hlt, hleft, -⟩
  · obtain ⟨-, hdeg, -⟩ := proots_of_left_none hleft
    rw [hdeg, hall]
    rfl
  · obtain ⟨-, hdeg, -⟩ := proots_of_left_some hleft
    rw [hdeg, hext.length _ le_rfl hlt, BitVec.toNat_ofNat]
    omega

/-- Settles O35: the working polynomials are the quotients of the characteristic polynomial, one search after another. -/
theorem prootsExtractsFactors : Obligations.ProotsExtractsFactors := by
  refine ⟨rfl, fun s => ?_⟩
  have hext := extracted_proots s
  have hsix : (proots Config.core s).poles.nqf = 6#5 ↔ (prootsFactors s).found.length = 6 := by
    rw [← proots_nqf_toNat]
    exact BitVec.toNat_inj.symm
  refine ⟨proots Config.core s, fun j => deflated^[j] (charPoly s), exec_proots s, ?_⟩
  simp only [proots_nqf_toNat, proots_kind, proots_u, proots_v, hsix, ne_eq]
  refine ⟨fun k hk => ?start, hext.bound, fun hdegen => ?degenerate, fun j hj => ?factor, fun j hj => ?beyond, fun hall => ?all,
    fun hnot => ?leftWhole, ?degrees, rfl⟩
  case start => exact (getD_padTo 13 fZero _ k).trans (if_pos (by omega))
  case degenerate => rw [proots_nqf, prootsFactors_of_degen hdegen]; rfl
  case factor =>
    have hbound := hext.bound
    have hlen : (deflated^[j] (charPoly s)).length = 13 - 2 * j := hext.length j hj.le (by omega)
    refine ⟨hlen, fun h5 => ?_, ?_, hext.kind hj⟩
    · rw [← searchFactor_of_length (by omega)]
      exact hext.search j hj (by omega)
    · rintro rfl
      exact hext.last 5 hj rfl
  case beyond =>
    rw [List.getD_eq_default _ _ hj]
    exact ⟨rfl, rfl, rfl⟩
  case all =>
    rcases hext.left with ⟨-, hleft⟩ | ⟨hlt, -⟩
    · exact proots_of_left_none hleft
    · omega
  case leftWhole =>
    obtain ⟨hlt, hleft, hfail⟩ := hext.left.resolve_left fun h => hnot h.1
    have hlen : (deflated^[(prootsFactors s).found.length] (charPoly s)).length = 13 - 2 * (prootsFactors s).found.length :=
      hext.length _ le_rfl hlt
    obtain ⟨hrem, -, hnoconv⟩ := proots_of_left_some hleft
    refine ⟨fun hsearched => ?_, hlen, fun k hk => ?_, proots_remDeg_toNat s, hnoconv⟩
    · obtain ⟨hroom, hnone⟩ := hfail hsearched
      rw [← searchFactor_of_length (by omega)]
      exact ⟨by omega, hnone⟩
    · rw [hrem]
      exact (getD_padTo 13 fZero _ k).trans (if_pos (by omega))
  case degrees =>
    obtain ⟨hsum, hnone⟩ := proots_kind_counts s
    rw [hsum, hnone, proots_remDeg_toNat]
    have := hext.bound
    omega

end Sys2Proof.Machine

namespace Sys2Proof.Machine

/-! ## Delayed sequences, one sample on -/

@[simp] theorem delayed_succ_zero (x : Nat → Int) (k : Nat) : delayed x (k + 1) 0 = 0 :=
  delayed_of_lt x k.succ_pos

@[simp] theorem delayed_succ_succ (x : Nat → Int) (k n : Nat) : delayed x (k + 1) (n + 1) = delayed x k n := by
  simp [delayed]

/-- A delayed sequence sees earlier samples only. -/
theorem delayed_succ_congr {x y : Nat → Int} {n : Nat} (h : ∀ m < n, x m = y m) (k : Nat) :
    delayed x (k + 1) n = delayed y (k + 1) n := by
  cases n with
  | zero => simp
  | succ n =>
    rw [delayed_succ_succ, delayed_succ_succ]
    exact delayed_congr (fun m hm => h m (by omega)) k

/-! ## `RESYN` sample by sample (43_resynthesizer R200) -/

theorem getD_feedbackCoefs (aq : List Word) {k : Nat} (hk : k < 12) :
    (feedbackCoefs Config.core aq).getD k 0 = (aq.getD (k + 1) 0#32).toInt := by
  rw [← getD_fixedCoefs aq (k + 1) (by omega), feedbackCoefs]
  simp [List.getD]

theorem resyn_mem (s : State) : (resyn Config.core s).mem = (s.setFrame (resynResult s).1).mem := by
  rw [resyn_eq]
  rfl

theorem cur_resyn (s : State) {n : Nat} (hn : n < 256) :
    (resyn Config.core s).cur n = (resynResult s).1.getD n 0 := by
  obtain ⟨hlo, hhi⟩ : -32768 ≤ (resynResult s).1.getD n 0 ∧ (resynResult s).1.getD n 0 ≤ 32767 :=
    resynLoop_bounds _ _ _ _ n (by simpa using hn)
  rw [cur_of_mem (resyn_mem s) (by rw [resyn_eq]; rfl)]
  exact cur_setFrame s _ n (by simpa using hn) hlo hhi

theorem getD_resyn_rs (s : State) (k : Nat) :
    (resyn Config.core s).filt.rs.getD k 0#64 = BitVec.ofInt 64 ((resynResult s).2.getD k 0) := by
  rw [resyn_eq]
  generalize resynResult s = res
  exact List.getD_map _ 0 (BitVec.ofInt 64)

/-- `r n k` is `RS[k+1]` immediately before sample `n` of a synthesis from `s` that ends in `t`; the word after the last
one reads as 0. -/
structure SynthesisWords (s t : State) (r : Nat → Nat → Int) : Prop where
  start : ∀ k < 12, r 0 k = (s.filt.rs.getD k 0#64).toInt
  output : ∀ n < 256, t.cur n = sat 16 (rhdShr (s.resElem n * 2 ^ 20 + r n 0) 20)
  shift : ∀ n < 256, ∀ k < 12, r (n + 1) k = r n (k + 1) - (s.recon.newAQ.getD (k + 1) 0#32).toInt * t.cur n
  beyond : ∀ n, r n 12 = 0
  stored : ∀ k < 12, t.filt.rs.getD k 0#64 = BitVec.ofInt 64 (r 256 k)

theorem exists_synthesisWords_resyn (s : State) : ∃ r, SynthesisWords s (resyn Config.core s) r := by
  have hlen := length_resynState s.filt.rs
  have hframe : (readRes s.mem Config.core.n).length = 256 := readRes_length _ _
  obtain ⟨r, hstart, hstep, hbeyond, -, hend⟩ := resynLoop_spec Config.core.cf
    (feedbackCoefs Config.core s.recon.newAQ) (readRes s.mem Config.core.n) (resynState Config.core s.filt.rs)
    ((length_feedbackCoefs _).trans hlen.symm) (by omega)
  rw [hlen] at hstep hbeyond
  rw [hframe] at hstep hend
  refine ⟨r, fun k hk => ?start, fun n hn => ?output, fun n hn k hk => ?shift, fun n => hbeyond n 12 le_rfl,
    fun k _ => ?stored⟩
  case start => rw [hstart, getD_resynState, if_pos hk]
  case output =>
    have hres : (readRes s.mem Config.core.n).getD n 0 = s.resElem n := readRes_getD _ _ _ hn
    rw [cur_resyn s hn, resynResult, ← hres]
    exact (hstep n hn).1
  case shift =>
    rw [cur_resyn s hn, resynResult, ← getD_feedbackCoefs _ hk]
    exact (hstep n hn).2 k hk
  case stored => rw [getD_resyn_rs, resynResult, hend]

/-- Settles O39: the words of the synthesis loop, sample by sample, and the frame of the store into `SLOT[CUR]`. -/
theorem resynFollowsRecurrence : Obligations.ResynFollowsRecurrence := by
  refine ⟨rfl, fun s => ?_⟩
  obtain ⟨r, hr⟩ := exists_synthesisWords_resyn s
  refine ⟨resyn Config.core s, exec_resyn s, ⟨r, hr.start, fun n hn => ⟨hr.output n hn, fun k hk => ?_, ?_⟩, ?_,
    hr.stored⟩, ?_, ?_⟩
  · exact hr.shift n hn k (by omega)
  · rw [hr.shift n hn 11 (by omega), hr.beyond]
    ring
  · simp [resyn_eq, length_resynResult_state]
  · exact sameMemoryOutside_of_mem (sameMemoryOutside_setFrame s _ (length_resynResult s)) (resyn_mem s)
  · rw [resyn_eq]
    generalize resynResult s = res
    cases s.snap.mode <;> rfl

/-! ## From zero state (43_resynthesizer R201) -/

/-- What the outputs `y` before sample `n` feed back into it, with the coefficients `NEW_AQ[1..12]`. -/
def feedbackSum (aq : List Word) (y : Nat → Int) (n : Nat) : Int :=
  ∑ j ∈ Finset.range 12, (aq.getD (j + 1) 0#32).toInt * delayed y (j + 1) n

theorem feedbackSum_congr (aq : List Word) {x y : Nat → Int} {n : Nat} (h : ∀ m < n, x m = y m) :
    feedbackSum aq x n = feedbackSum aq y n :=
  Finset.sum_congr rfl fun j _ => by rw [delayed_succ_congr h]

theorem feedbackSum_eq_sum_ite (aq : List Word) (y : Nat → Int) (n : Nat) :
    feedbackSum aq y n =
      ∑ m ∈ Finset.range 13, if 1 ≤ m ∧ m ≤ n then (aq.getD m 0#32).toInt * y (n - m) else 0 := by
  rw [Finset.sum_range_succ']
  simp [feedbackSum, mul_delayed]

/-- Each word is the part of the direct form's sum that its place in the chain has still to bring to the output: a product
enters at word `k + 1` with coefficient `NEW_AQ[k+1]` and moves down one word a sample. -/
theorem SynthesisWords.eq_neg_sum {s t : State} {r : Nat → Nat → Int} (hr : SynthesisWords s t r)
    (hzero : ∀ k < 12, s.filt.rs.getD k 0#64 = 0#64) (n : Nat) : n ≤ 256 → ∀ i k, i + k = 12 →
      r n k = -∑ j ∈ Finset.range i, (s.recon.newAQ.getD (k + j + 1) 0#32).toInt * delayed t.cur (j + 1) n := by
  induction n with
  | zero =>
    intro _ i k hik
    cases i with
    | zero => simpa [← hik] using hr.beyond 0
    | succ i =>
      rw [hr.start k (by omega), hzero k (by omega)]
      simp
  | succ n ih =>
    intro hn i k hik
    cases i with
    | zero => simpa [← hik] using hr.beyond (n + 1)
    | succ i =>
      rw [hr.shift n hn k (by omega), ih (by omega) i (k + 1) (by omega), Finset.sum_range_succ']
      simp only [delayed_succ_succ, delayed_zero, Nat.add_zero, Nat.add_right_comm k 1, Nat.add_assoc k]
      ring

theorem cur_resyn_of_zero_state {s : State} (hzero : ∀ k < 12, s.filt.rs.getD k 0#64 = 0#64) {n : Nat} (hn : n < 256) :
    (resyn Config.core s).cur n =
      sat 16 (rhdShr (s.resElem n * 2 ^ 20 - feedbackSum s.recon.newAQ (resyn Config.core s).cur n) 20) := by
  obtain ⟨r, hr⟩ := exists_synthesisWords_resyn s
  have hword : r n 0 = -feedbackSum s.recon.newAQ (resyn Config.core s).cur n := by
    simpa [feedbackSum] using hr.eq_neg_sum hzero n hn.le 12 0 rfl
  rw [hr.output n hn, hword, sub_eq_add_neg]

/-- Settles O40: the state word that reaches the output holds the direct form's sum. -/
theorem resynIsDirectFormFromZeroState : Obligations.ResynIsDirectFormFromZeroState := by
  refine fun s hzero => ⟨resyn Config.core s, exec_resyn s, fun n hn => ?_⟩
  rw [← feedbackSum_eq_sum_ite]
  exact cur_resyn_of_zero_state hzero hn

/-! ## Resynthesis from the residual (43_resynthesizer R204) -/

theorem cur_resid (s : State) (n : Nat) : (resid Config.core s).cur n = s.cur n := by
  rw [← cur_writeRes s (residResult s) (length_residResult s), resid_eq]
  rfl

/-- With leading coefficient one, the inverse filter adds to a sample what the synthesis filter takes away. -/
theorem residSum_eq_add_feedbackSum {s : State} (hlead : (s.lpc.aq.getD 0 0#32).toInt = 2 ^ 20) (n : Nat) :
    residSum s n = s.cur n * 2 ^ 20 + feedbackSum s.lpc.aq s.cur n := by
  rw [residSum, Finset.sum_range_succ', hlead, delayed_zero, feedbackSum]
  ring

/-- Outputs that agree with the frame so far make the next output agree: what the filters add and take away is the same
sum, and the pair of rounding shifts cancels. -/
theorem cur_resyn_resid {s : State} (hzero : ∀ k < 12, s.filt.rs.getD k 0#64 = 0#64)
    (hlead : (s.lpc.aq.getD 0 0#32).toInt = 2 ^ 20) (hcoefs : s.recon.newAQ = s.lpc.aq) (n : Nat) :
    n < 256 → (resyn Config.core (resid Config.core s)).cur n = s.cur n := by
  induction n using Nat.strong_induction_on with
  | _ n ih =>
    intro hn
    obtain ⟨hlo, hhi⟩ := cur_bounds s n
    have hrs : (resid Config.core s).filt.rs = s.filt.rs := by rw [resid_eq]
    have hnewAQ : (resid Config.core s).recon.newAQ = s.lpc.aq := by rw [resid_eq, ← hcoefs]
    have hfeedback : feedbackSum s.lpc.aq (resyn Config.core (resid Config.core s)).cur n =
        feedbackSum s.lpc.aq s.cur n := feedbackSum_congr _ fun m hm => ih m hm (by omega)
    obtain ⟨-, -, -, hcancel⟩ := complementaryShiftsCancel (s.cur n) (feedbackSum s.lpc.aq s.cur n) 20 (by omega)
    rw [cur_resyn_of_zero_state (by rwa [hrs]) hn, hnewAQ, hfeedback, resElem_resid s hn,
      residSum_eq_add_feedbackSum hlead, hcancel]
    exact sat_of_mem 16 _ (by norm_num; omega) (by norm_num; omega)

/-- Settles O41: `RESYN` after `RESID`, sample after sample. -/
theorem resynUndoesResidExactly : Obligations.ResynUndoesResidExactly := fun s hzero hlead hcoefs =>
  ⟨resid Config.core s, resyn Config.core (resid Config.core s), exec_resid s, exec_resyn _,
    cur_resyn_resid hzero hlead hcoefs⟩

end Sys2Proof.Machine

namespace Sys2Proof.Machine

/-! ## The filter bank as three sections, one after the other (44_filter_bank R216) -/

/-- The biquad stage of section `i + 1` of the bank. -/
def bankStage : Nat → BiquadStage
  | 0 => .band1
  | 1 => .band2
  | _ => .band3

theorem bankStage_injOn : ∀ i < 3, ∀ j < 3, bankStage i = bankStage j → i = j := by decide

/-- The state after the first `i` sections. -/
def afterSections (s : State) : Nat → State
  | 0 => s
  | i + 1 => (afterSections s i).biquadRun Config.core (bankStage i)

theorem fbank_eq_goStage (s : State) :
    fbank Config.core s = (afterSections s 3).goStage (afterFbank s.snap.mode) := rfl

@[simp] theorem afterSections_disp (s : State) (i : Nat) : (afterSections s i).disp = s.disp := by
  induction i with
  | zero => rfl
  | succ i ih => rw [afterSections, biquadRun_disp, ih]

/-- Sections leave a stage alone that is none of theirs. -/
theorem afterSections_biquad {s : State} {st : BiquadStage} {i j : Nat} (hij : i ≤ j)
    (hne : ∀ k, i ≤ k → k < j → st ≠ bankStage k) : (afterSections s j).biquad st = (afterSections s i).biquad st := by
  induction j, hij using Nat.le_induction with
  | base => rfl
  | succ j hj ih =>
    rw [afterSections, biquadRun_biquad_other _ _ _ (hne j hj j.lt_succ_self)]
    exact ih fun k hk hkj => hne k hk (by omega)

/-- A section finds its stage as it was before the bank. -/
theorem afterSections_biquad_before (s : State) {i : Nat} (hi : i < 3) :
    (afterSections s i).biquad (bankStage i) = s.biquad (bankStage i) :=
  afterSections_biquad (s := s) i.zero_le fun k _ hk h => by
    have := bankStage_injOn i hi k (by omega) h
    omega

/-- The bank leaves a section's stage as that section left it. -/
theorem fbank_biquad_bankStage (s : State) {i : Nat} (hi : i < 3) :
    (fbank Config.core s).biquad (bankStage i) = (afterSections s (i + 1)).biquad (bankStage i) := by
  rw [fbank_eq_goStage, biquad_goStage]
  refine afterSections_biquad hi fun k hik hk h => ?_
  have := bankStage_injOn i hi k hk h
  omega

theorem sameMemoryOutside_afterSections (s : State) (i : Nat) :
    sameMemoryOutside (.slot s.disp.cur) s (afterSections s i) := by
  induction i with
  | zero => exact sameMemoryOutside_refl _ s
  | succ i ih =>
    have hrun := (biquadRun_spec (afterSections s i) (bankStage i)).2
    rw [afterSections_disp] at hrun
    exact sameMemoryOutside_trans ih hrun

theorem stageCode_afterFbank (m : EffectMode) :
    stageCode (afterFbank m) = if m = .formantFilterRadio then 10#4 else 13#4 := by
  cases m <;> rfl

/-- Sections change memory and the three band-pass stages. -/
theorem afterSections_frame (s : State) (i : Nat) : ∃ m b1 b2 b3,
    afterSections s i = { s with mem := m, filt := { s.filt with bp1 := b1, bp2 := b2, bp3 := b3 } } := by
  induction i with
  | zero => exact ⟨_, _, _, _, rfl⟩
  | succ i ih =>
    obtain ⟨m, b1, b2, b3, h⟩ := ih
    rw [afterSections, State.biquadRun, setBiquad_setFrame, h]
    match i with
    | 0 | 1 | _ + 2 => exact ⟨_, _, _, _, rfl⟩

theorem cur_fbank (s : State) (n : Nat) : (fbank Config.core s).cur n = (afterSections s 3).cur n := by
  rw [fbank_eq_goStage]
  exact cur_of_mem (goStage_mem _ _) rfl n

/-- Settles O43: what each section does to its own input, `biquadRun_spec`, put together; sample `n` after `i` sections
is the frame's sample in the state after them. -/
theorem fbankIsSeriesOfThreeSections : Obligations.FbankIsSeriesOfThreeSections := by
  refine ⟨rfl, fun s => ⟨fbank Config.core s, exec_fbank s, ?_, ?_, ?_⟩⟩
  · choose p q hp hq hstep hend using fun i => (biquadRun_spec (afterSections s i) (bankStage i)).1
    refine ⟨fun i => (afterSections s i).cur, p, q, fun n _ => ⟨rfl, cur_fbank s n⟩, fun i st hst => ?_⟩
    obtain ⟨hi, rfl⟩ : i < 3 ∧ st = bankStage i := by
      rcases hst with ⟨rfl, rfl⟩ | ⟨rfl, rfl⟩ | ⟨rfl, rfl⟩ <;> exact ⟨by decide, rfl⟩
    rw [fbank_biquad_bankStage s hi, ← afterSections_biquad_before s hi]
    exact ⟨hp i, hq i, hstep i, hend i⟩
  · rw [fbank_eq_goStage]
    exact sameMemoryOutside_of_mem (sameMemoryOutside_afterSections s 3) (goStage_mem _ _)
  · obtain ⟨m, b1, b2, b3, h⟩ := afterSections_frame s 3
    rw [fbank_eq_goStage, h, ← stageCode_afterFbank]
    rfl

end Sys2Proof.Machine

namespace Sys2Proof.Machine

/-! ## The design of the filter bank (44_filter_bank R211 to R213) -/

theorem cacheHit_iff (s : State) : cacheHit s = true ↔
    s.filt.fbValid = true ∧ s.filt.fbKeyVowel = s.snap.vowel ∧ s.filt.fbKeyFreq = s.snap.freq := by
  simp [cacheHit, and_assoc]

theorem fbcoef_of_hit {s : State} (h : cacheHit s = true) : fbcoef Config.core s = s.goStage .fbank := by
  rw [fbcoef, if_pos h]

theorem fbcoef_of_miss {s : State} (h : ¬ cacheHit s = true) :
    fbcoef Config.core s = (recomputeBank Config.core s).goStage .fbank := by
  rw [fbcoef, if_neg h]

theorem centreFreq_core (f : Nat) (fs : F32) : centreFreq Config.core f fs =
    if fle (fmul (i2f f) fs) 0x45F78000#32 = true then (fmul (i2f f) fs, false) else (0x45F78000#32, true) := rfl

theorem centreFreq_freq (f : Nat) (fs : F32) : (centreFreq Config.core f fs).1 =
    if fle (fmul (i2f f) fs) 0x45F78000#32 = true then fmul (i2f f) fs else 0x45F78000#32 := by
  rw [centreFreq_core]
  split_ifs <;> rfl

theorem centreFreq_clamped (f : Nat) (fs : F32) : (centreFreq Config.core f fs).2 = true ↔
    fle (fmul (i2f f) fs) 0x45F78000#32 = false := by
  rw [centreFreq_core]
  split_ifs with h <;> simp [h]

/-- `b` holds, in fixed point, the band-pass section of a formant `F`, centre frequency and bandwidth, at the frequency
shift `fs` (44_filter_bank R212, R213). -/
def IsBandDesign (fs : F32) (F : Nat × Nat) (b : BiquadCoef) : Prop :=
  ∃ fc w0 alpha a0 : F32,
    fc = (if fle (fmul (i2f F.1) fs) 0x45F78000#32 = true then fmul (i2f F.1) fs else 0x45F78000#32) ∧
    w0 = fdiv (fmul 0x40C90FDB#32 fc) (i2f 16000) ∧
    alpha = fdiv (Config.anyNum.sin w0) (fmul 0x40000000#32 (fdiv fc (i2f F.2))) ∧
    a0 = fadd 0x3F800000#32 alpha ∧
    b.b0.toInt = f2fix (fdiv alpha a0) 28 32 ∧ b.b1 = 0#32 ∧
    b.b2.toInt = f2fix (fneg (fdiv alpha a0)) 28 32 ∧
    b.a1.toInt = f2fix (fdiv (fmul 0xC0000000#32 (Config.anyNum.cos w0)) a0) 28 32 ∧
    b.a2.toInt = f2fix (fdiv (fsub 0x3F800000#32 alpha) a0) 28 32

/-- The section that a miss stores for a formant. -/
def sectionCoef (fs : F32) (F : Nat × Nat) : BiquadCoef := bandCoef Config.core (bandPass Config.core F.1 F.2 fs)

theorem f2fix_zero : f2fix fZero 28 32 = 0 := by decide

theorem isBandDesign_sectionCoef (fs : F32) (F : Nat × Nat) : IsBandDesign fs F (sectionCoef fs F) :=
  ⟨(centreFreq Config.core F.1 fs).1, _, _, _, centreFreq_freq F.1 fs, rfl, rfl, rfl,
    toInt_f2fix32 _ 28, congrArg (BitVec.ofInt 32) f2fix_zero, toInt_f2fix32 _ 28, toInt_f2fix32 _ 28, toInt_f2fix32 _ 28⟩

/-- A miss: the coefficients of the three sections and the keys, and `FCCLAMP` where a centre frequency was clamped. -/
theorem recomputeBank_eq (s : State) : recomputeBank Config.core s =
    let F := Config.vowelTable s.snap.vowel
    { s with
      filt := { s.filt with
        bp1 := { s.filt.bp1 with coef := sectionCoef s.snap.freq F.1 }
        bp2 := { s.filt.bp2 with coef := sectionCoef s.snap.freq F.2.1 }
        bp3 := { s.filt.bp3 with coef := sectionCoef s.snap.freq F.2.2 }
        fbValid := true, fbKeyVowel := s.snap.vowel, fbKeyFreq := s.snap.freq }
      fr := { s.fr with
        fcclamp := s.fr.fcclamp || (centreFreq Config.core F.1.1 s.snap.freq).2 ||
          (centreFreq Config.core F.2.1.1 s.snap.freq).2 || (centreFreq Config.core F.2.2.1 s.snap.freq).2 } } := rfl

/-- Settles O42: a hit is `SEQ` alone; a miss is `recomputeBank_eq`, each of its sections a band-pass design. -/
theorem fbcoefHitsOrDesignsBank : Obligations.FbcoefHitsOrDesignsBank := by
  refine ⟨rfl, fun s => ⟨fun hhit => ?_, fun hmiss => ?_⟩⟩
  · rw [exec_fbcoef, fbcoef_of_hit ((cacheHit_iff s).mpr hhit)]
    rfl
  · refine ⟨(recomputeBank Config.core s).goStage .fbank, (Config.vowelTable s.snap.vowel).1,
      (Config.vowelTable s.snap.vowel).2.1, (Config.vowelTable s.snap.vowel).2.2, ?_, ?_, fun F b hF => ?_, ?_, ?_⟩
    · rw [exec_fbcoef, fbcoef_of_miss (mt (cacheHit_iff s).mp hmiss)]
    · cases s.snap.vowel <;> rfl
    · rw [recomputeBank_eq] at hF
      rcases hF with ⟨rfl, rfl⟩ | ⟨rfl, rfl⟩ | ⟨rfl, rfl⟩ <;> exact isBandDesign_sectionCoef s.snap.freq _
    · rw [recomputeBank_eq, goStage_fr]
      simp only [Bool.or_eq_true, centreFreq_clamped, or_and_right, exists_or, exists_eq_left, or_assoc]
    · rw [recomputeBank_eq]
      rfl

end Sys2Proof.Machine

namespace Sys2Proof.Machine

/-! ## A stage that maps the frame sample by sample -/

/-- What such a stage does when the map gives samples: each sample goes through the map alone, and no byte outside
`SLOT[CUR]` changes. -/
theorem goStage_mapFrame_spec (s : State) {g : Int → Int} (hg : ∀ x, -32768 ≤ g x ∧ g x ≤ 32767) (i : Instr) :
    (∀ n < 256, ((s.setFrame ((s.frame 256).map g)).goStage i).cur n = g (s.cur n)) ∧
    sameMemoryOutside (.slot s.disp.cur) s ((s.setFrame ((s.frame 256).map g)).goStage i) := by
  have hlen : ((s.frame 256).map g).length = 256 := by simp
  refine ⟨fun n hn => ?_, sameMemoryOutside_of_mem (sameMemoryOutside_setFrame s _ hlen) (goStage_mem _ _)⟩
  have hget : ((s.frame 256).map g).getD n 0 = g (s.cur n) := by
    rw [frame_eq_map, List.getD_eq_getElem _ _ (by simpa using hn)]
    simp
  rw [cur_of_mem (goStage_mem _ _) (goStage_disp_cur _ _), ← hget]
  rw [← hlen] at hn
  exact cur_setFrame s _ n hn (hget ▸ (hg _).1) (hget ▸ (hg _).2)

/-! ## The limiter (45_radio_chain R237, R238) -/

theorem limitSample_core (x : Int) : limitSample Config.core x = max (-29491) (min 29491 x) := by
  simp only [limitSample, Config.core]
  split_ifs <;> omega

theorem abs_limitSample_le (x : Int) : |limitSample Config.core x| ≤ 29491 := by
  rw [limitSample_core, abs_le]
  omega

/-- Settles O47: the limit of each sample is the clamp to the threshold, and the clamp is a sample. -/
theorem rlimBoundsEverySample : Obligations.RlimBoundsEverySample := by
  refine ⟨rfl, fun s => ?_⟩
  have hsample (x : Int) : -32768 ≤ limitSample Config.core x ∧ limitSample Config.core x ≤ 32767 := by
    have := abs_le.mp (abs_limitSample_le x)
    omega
  obtain ⟨hcur, hmem⟩ := goStage_mapFrame_spec s hsample .release
  exact ⟨rlim Config.core s, exec_rlim s,
    fun n hn => ⟨(hcur n hn).trans (limitSample_core _), (congrArg abs (hcur n hn)).trans_le (abs_limitSample_le _)⟩,
    hmem, goStage_setFrame s _ .release⟩

/-! ## The saturation of each sample (45_radio_chain R234) -/

theorem saturateSample_core (x : Int) :
    saturateSample Config.core x = f2fix (Config.anyNum.tanh (fmul 0x40000000#32 (q2f x))) 15 16 :=
  congrArg (f2fix · 15 16) (Config.numFns_tanh _)

/-- Settles O45: whatever `tanh` is, the conversion gives a sample. -/
theorem rsatSaturatesEachSample : Obligations.RsatSaturatesEachSample := by
  refine ⟨rfl, fun s => ?_⟩
  have hsample (x : Int) : -32768 ≤ saturateSample Config.core x ∧ saturateSample Config.core x ≤ 32767 := by
    rw [saturateSample_core]
    simpa using f2fix_bounds (Config.anyNum.tanh (fmul 0x40000000#32 (q2f x))) 15 16
  obtain ⟨hcur, hmem⟩ := goStage_mapFrame_spec s hsample .rlim
  exact ⟨rsat Config.core s, exec_rsat s, fun n hn => (hcur n hn).trans (saturateSample_core _), hmem,
    goStage_setFrame s _ .rlim⟩

/-! ## The high-pass filter (45_radio_chain R232) -/

/-- A run of stage 0 changes memory and that stage. -/
theorem biquadRun_highPass_frame (s : State) : ∃ m b,
    s.biquadRun Config.core .highPass = { s with mem := m, filt := { s.filt with hp := b } } := by
  rw [State.biquadRun, setBiquad_setFrame]
  exact ⟨_, _, rfl⟩

theorem cur_rhpf (s : State) (n : Nat) : (rhpf Config.core s).cur n = (s.biquadRun Config.core .highPass).cur n :=
  cur_of_mem (goStage_mem _ _) (goStage_disp_cur _ _) n

/-- Settles O44: `biquadRun_spec` for stage 0, carried over the step of `SEQ`. -/
theorem rhpfFiltersFrame : Obligations.RhpfFiltersFrame := by
  refine ⟨rfl, fun s => ?_⟩
  obtain ⟨⟨p, q, hp, hq, hstep, hend⟩, hmem⟩ := biquadRun_spec s .highPass
  refine ⟨rhpf Config.core s, exec_rhpf s, ⟨p, q, hp, hq, fun n hn => ?_, ?_⟩,
    sameMemoryOutside_of_mem hmem (goStage_mem _ _), ?_⟩
  · rw [cur_rhpf]
    exact hstep n hn
  · rw [rhpf, goStage_filt]
    exact hend
  · obtain ⟨m, b, hframe⟩ := biquadRun_highPass_frame s
    rw [rhpf, hframe]
    rfl

/-! ## Negation, operation by operation (40_numerics R131, R134 to R136) -/

theorem isNaN_roundDyadic (neg : Bool) (m : Nat) (e : Int) : isNaN (roundDyadic neg m e) = false := by
  rw [roundDyadic, isNaN_withSign neg (toNat_roundMag_lt m e), ← Bool.not_eq_true, isNaN_iff]
  by_cases hm : m = 0
  · rw [hm, roundMag_zero]
    decide
  · rw [roundMag_eq hm, fMag_patternOrInf]
    omega

theorem i2f_neg {i : Int} (h : i ≠ 0) : i2f (-i) = i2f i ^^^ 0x80000000#32 := by
  have hsign : decide (-i < 0) = !decide (i < 0) := by
    rw [← decide_not, decide_eq_decide]
    omega
  rw [i2f, i2f, roundDyadic, roundDyadic, flipSign_withSign _ (toNat_roundMag_lt _ _), Int.natAbs_neg, hsign]

theorem fMant_flipSign (a : F32) : fMant (a ^^^ 0x80000000#32) = fMant a := by
  rw [fMant, fMant, fExpField_flipSign, fFrac_flipSign]

theorem fExpo_flipSign (a : F32) : fExpo (a ^^^ 0x80000000#32) = fExpo a := by
  rw [fExpo, fExpo, fExpField_flipSign]

section
variable {a b : F32}

theorem fmul_flipSign_left (ha : isFinite a = true) (hb : isFinite b = true) :
    fmul (a ^^^ 0x80000000#32) b = fmul a b ^^^ 0x80000000#32 := by
  rw [fmul_of_isFinite ((isFinite_flipSign a).trans ha) hb, fmul_of_isFinite ha hb, roundDyadic, roundDyadic,
    flipSign_withSign _ (toNat_roundMag_lt _ _), fMant_flipSign, fExpo_flipSign, fSign_flipSign, Bool.not_bne]

theorem fmul_flipSign_right (ha : isFinite a = true) (hb : isFinite b = true) :
    fmul a (b ^^^ 0x80000000#32) = fmul a b ^^^ 0x80000000#32 := by
  rw [fmul_of_isFinite ha ((isFinite_flipSign b).trans hb), fmul_of_isFinite ha hb, roundDyadic, roundDyadic,
    flipSign_withSign _ (toNat_roundMag_lt _ _), fMant_flipSign, fExpo_flipSign, fSign_flipSign, Bool.bne_not]

end

theorem q2f_neg {x : Int} (h0 : x ≠ 0) (h : |x| ≤ 2 ^ 15) : q2f (-x) = q2f x ^^^ 0x80000000#32 := by
  rw [q2f, q2f, i2f_neg h0]
  exact fmul_flipSign_left (i2f_exact (h.trans (by norm_num))).1 (by decide)

theorem signedMant_flipSign (a : F32) : signedMant (a ^^^ 0x80000000#32) = -signedMant a := by
  rw [signedMant, signedMant, fSign_flipSign, fMant_flipSign]
  cases fSign a <;> simp

theorem fScaled_eq (a : F32) (f : Nat) :
    fScaled a f = if 0 ≤ fExpo a + f then signedMant a * 2 ^ (fExpo a + f).toNat
      else rneShr (signedMant a) (-(fExpo a + f)).toNat := rfl

theorem fScaled_flipSign (a : F32) (f : Nat) : fScaled (a ^^^ 0x80000000#32) f = -fScaled a f := by
  rw [fScaled_eq, fScaled_eq, fExpo_flipSign, signedMant_flipSign]
  split_ifs
  · exact neg_mul _ _
  · exact rneShr_neg _ _

/-- Saturation is odd except at the rails. -/
theorem sat_neg (width : Nat) (v : Int) :
    sat width (-v) = -sat width v ∨ sat width v = 2 ^ (width - 1) - 1 ∨ sat width v = -2 ^ (width - 1) := by
  rcases lt_trichotomy (-2 ^ (width - 1)) v with hlow | rfl | hlow
  · by_cases hhigh : 2 ^ (width - 1) - 1 < v
    · exact .inr (.inl (sat_of_gt hhigh))
    · refine .inl ?_
      rw [sat_of_mem width v (by omega) (by omega), sat_of_mem width (-v) (by omega) (by omega)]
  · have hp : (0 : Int) < 2 ^ (width - 1) := by positivity
    exact .inr (.inr (sat_of_mem width _ le_rfl (by omega)))
  · exact .inr (.inr (sat_of_lt hlow))

theorem isInf_of_not_isFinite {v : F32} (hfin : isFinite v = false) (hnan : isNaN v = false) :
    isInf v = true := by
  rw [← Bool.not_eq_true, isFinite_iff] at hfin
  rw [← Bool.not_eq_true, isNaN_iff] at hnan
  rw [isInf_iff]
  omega

theorem f2fix_of_isInf {v : F32} (h : isInf v = true) (f width : Nat) :
    f2fix v f width = if fSign v = true then -2 ^ (width - 1) else 2 ^ (width - 1) - 1 := by
  rw [f2fix, isNaN_of_isInf h, if_neg Bool.false_ne_true, if_pos h]

/-- The conversion to fixed point is odd except at the rails; a NaN and its negative give 0. -/
theorem f2fix_fneg (v : F32) (f width : Nat) :
    f2fix (fneg v) f width = -f2fix v f width ∨ f2fix v f width = 2 ^ (width - 1) - 1 ∨
      f2fix v f width = -2 ^ (width - 1) := by
  cases hnan : isNaN v with
  | true =>
    rw [fneg, if_pos hnan, f2fix_of_isNaN hnan, f2fix_of_isNaN (by decide)]
    exact .inl rfl
  | false =>
    cases hfin : isFinite v with
    | true =>
      rw [fneg_of_isNaN_eq_false hnan, f2fix_of_isFinite hfin, f2fix_of_isFinite ((isFinite_flipSign v).trans hfin),
        fScaled_flipSign]
      exact sat_neg width _
    | false =>
      rw [f2fix_of_isInf (isInf_of_not_isFinite hfin hnan)]
      split_ifs
      · exact .inr (.inr rfl)
      · exact .inr (.inl rfl)

/-! ## The saturation map is odd (45_radio_chain R234) -/

theorem saturateSample_zero : saturateSample Config.core 0 = 0 := by
  have harg : fmul 0x40000000#32 (q2f 0) = fZero := by decide
  rw [saturateSample_core, harg, Config.anyNum.tanh_zero]
  decide

theorem fmul_drive_q2f_neg {x : Int} (h0 : x ≠ 0) (h : |x| ≤ 2 ^ 15) :
    fmul 0x40000000#32 (q2f (-x)) = fneg (fmul 0x40000000#32 (q2f x)) := by
  have hdrive : isFinite 0x40000000#32 = true := by decide
  have hfin := (q2f_exact h).1
  have hnan : isNaN (fmul 0x40000000#32 (q2f x)) = false := by
    rw [fmul_of_isFinite hdrive hfin, isNaN_roundDyadic]
  rw [q2f_neg h0 h, fmul_flipSign_right hdrive hfin, fneg_of_isNaN_eq_false hnan]

/-- Settles O46: the argument of `tanh` is odd in a sample other than 0, `tanh` is odd by R141 (e), and the conversion
back is odd up to the rails. -/
theorem rsatIsOddInsideRails : Obligations.RsatIsOddInsideRails := by
  refine ⟨saturateSample_zero, fun x hlow hhigh => ?_⟩
  by_cases hx : x = 0
  · subst hx
    exact .inl (by rw [neg_zero, saturateSample_zero, neg_zero])
  · have harg := fmul_drive_q2f_neg hx (abs_le.mpr (by omega))
    rw [saturateSample_core, saturateSample_core, harg, Config.anyNum.tanh_odd]
    simpa using f2fix_fneg (Config.anyNum.tanh (fmul 0x40000000#32 (q2f x))) 15 16

end Sys2Proof.Machine

namespace Sys2Proof.Machine

/-! ## The dispatcher as a flow of frames (46_dispatcher R250 to R272) -/

/-! ### What a stage leaves to the dispatcher (46_dispatcher R262) -/

/-- A stage that finished handed `SEQ` to the stage of its row of the table, and left the rest of the dispatcher, the
counters and the snapshot alone. -/
structure HandsOn (i : Instr) (s t : State) : Prop where
  disp : t.disp = { s.disp with seq := t.disp.seq }
  next : nextStageCode s.snap.mode i = some t.disp.seq
  cnt : t.cnt = s.cnt
  snap : t.snap = s.snap

section
variable {i : Instr} {s t : State}

theorem HandsOn.cur (h : HandsOn i s t) : t.disp.cur = s.disp.cur := by rw [h.disp]

theorem HandsOn.rdyq (h : HandsOn i s t) : t.disp.rdyq = s.disp.rdyq := by rw [h.disp]

theorem HandsOn.outq (h : HandsOn i s t) : t.disp.outq = s.disp.outq := by rw [h.disp]

end

theorem stageCode_afterResyn (m : EffectMode) :
    stageCode (afterResyn m) = if m = .formantShiftRadio then 10#4 else 13#4 := by
  cases m <;> rfl

theorem nextStageCode_claim (m : EffectMode) : nextStageCode m .claim = some (stageCode (firstStage m)) := by
  cases m <;> rfl

@[simp] theorem biquadRun_cnt (s : State) (st : BiquadStage) : (s.biquadRun Config.core st).cnt = s.cnt := by
  simp [State.biquadRun]

/-- Going to the stage of the table from a state that differs in nothing the dispatcher owns. -/
theorem HandsOn.of_goStage {i j : Instr} {s t : State} (hdisp : t.disp = s.disp) (hcnt : t.cnt = s.cnt)
    (hsnap : t.snap = s.snap) (hnext : nextStageCode s.snap.mode i = some (stageCode j)) :
    HandsOn i s (t.goStage j) where
  disp := by rw [← hdisp]; rfl
  next := hnext
  cnt := hcnt
  snap := hsnap

/-- Every stage between `CLAIM` and `RELEASE` hands on to the stage of its row. -/
theorem perform_handsOn {i : Instr} (hstage : isStage i = true) (hclaim : i ≠ .claim) (hrelease : i ≠ .release)
    (s : State) : HandsOn i s (perform Config.core i s) := by
  cases i with
  | nop | captureDone _ | outputReq => simp at hstage
  | claim => exact absurd rfl hclaim
  | release => exact absurd rfl hrelease
  | acorr | levdur | proots | pshift | precon => exact ⟨rfl, rfl, rfl, rfl⟩
  | resid =>
    rw [perform, resid_eq]
    exact ⟨rfl, rfl, rfl, rfl⟩
  | rsat | rlim => exact .of_goStage (setFrame_disp _ _) (setFrame_cnt _ _) (setFrame_snap _ _) rfl
  | rhpf => exact .of_goStage (biquadRun_disp _ _) (biquadRun_cnt _ _) (biquadRun_snap _ _) rfl
  | resyn =>
    rw [perform, resyn_eq]
    exact ⟨rfl, by rw [stageCode_afterResyn]; rfl, rfl, rfl⟩
  | fbcoef =>
    by_cases hhit : cacheHit s = true
    · rw [perform, fbcoef_of_hit hhit]
      exact .of_goStage rfl rfl rfl rfl
    · rw [perform, fbcoef_of_miss hhit]
      exact .of_goStage rfl rfl rfl rfl
  | fbank =>
    refine .of_goStage ?_ ?_ ?_ (by rw [stageCode_afterFbank]; rfl) <;> simp

/-- Between `CLAIM` and `RELEASE` the table leads to a stage that is not `CLAIM`. -/
theorem nextStageCode_busy {m : EffectMode} {i : Instr} {code : BitVec 4} (hrelease : i ≠ .release)
    (h : nextStageCode m i = some code) : code ≠ 0#4 ∧ code.toNat ≤ 13 := by
  cases i with
  | nop | captureDone _ | outputReq => cases h
  | release => exact absurd rfl hrelease
  | claim => cases m <;> cases h <;> decide
  | resyn | fbank => cases m <;> cases h <;> decide
  | _ => cases h; decide

theorem stageCode_ne_zero {i : Instr} (hstage : isStage i = true) (hclaim : i ≠ .claim) : stageCode i ≠ 0#4 := by
  cases i with
  | nop | captureDone _ | outputReq => simp at hstage
  | claim => exact absurd rfl hclaim
  | _ => decide

/-! ### The three queues -/

/-- A queue lists exactly the slots in state `x`, each once. -/
structure Lists (st : Slot → SlotState) (x : SlotState) (q : List Slot) : Prop where
  mem : ∀ sl, sl ∈ q ↔ st sl = x
  once : q.Nodup

section
variable {st : Slot → SlotState} {x v : SlotState} {sl : Slot} {q : List Slot}

/-- A slot that comes into state `x` goes to the end of its queue. -/
theorem Lists.append (h : Lists st x q) (hsl : st sl ≠ x) : Lists (Function.update st sl x) x (q ++ [sl]) where
  mem sl' := by
    by_cases he : sl' = sl
    · simp [he]
    · simp [he, h.mem]
  once := by
    have hmem : sl ∉ q := mt (h.mem sl).mp hsl
    simpa [List.nodup_append] using ⟨h.once, fun a ha he => hmem (he ▸ ha)⟩

/-- The head of a queue leaves it as the slot leaves state `x`. -/
theorem Lists.tail (h : Lists st x (sl :: q)) (hv : v ≠ x) : Lists (Function.update st sl v) x q where
  mem sl' := by
    obtain ⟨hsl, -⟩ := List.nodup_cons.mp h.once
    by_cases he : sl' = sl
    · simp [he, hv, hsl]
    · simp [he, ← h.mem]
  once := (List.nodup_cons.mp h.once).2

/-- A slot that moves between two other states leaves a queue as it is. -/
theorem Lists.other (h : Lists st x q) (hsl : st sl ≠ x) (hv : v ≠ x) : Lists (Function.update st sl v) x q where
  mem sl' := by
    by_cases he : sl' = sl
    · simp [he, hv, h.mem, hsl]
    · simp [Function.update_of_ne he, h.mem]
  once := h.once

theorem Lists.head (h : Lists st x (sl :: q)) : st sl = x := (h.mem sl).mp (by simp)

end

/-- The slots' states, the three queues that a frame passes (`RDYQ`, the frame in progress, `OUTQ`) and the counters of
what went into and out of them (10_state R38, R46, R47). -/
@[ext] structure Flow where
  st : Slot → SlotState
  waiting : List Slot
  inProgress : List Slot
  finished : List Slot
  ready : Word
  done : Word
  out : Word

/-- The flow of a state: the frame in progress is `CUR` while `SEQ` is not 0 (46_dispatcher R272). -/
def State.flow (s : State) : Flow where
  st := s.slotState
  waiting := s.disp.rdyq
  inProgress := if s.disp.seq = 0#4 then [] else [s.disp.cur]
  finished := s.disp.outq
  ready := s.cnt.ready
  done := s.cnt.done
  out := s.cnt.out

/-- Each queue lists exactly the slots in its state. -/
structure Flow.Ordered (f : Flow) : Prop where
  waiting : Lists f.st .readyForProcessing f.waiting
  inProgress : Lists f.st .processing f.inProgress
  finished : Lists f.st .readyForOutput f.finished

/-- The counters tell how many frames are in the core and how many wait for output. -/
structure Flow.Counted (f : Flow) : Prop where
  inCore : f.ready - f.done = BitVec.ofNat 32 (f.waiting.length + f.inProgress.length)
  finished : f.done - f.out = BitVec.ofNat 32 f.finished.length

theorem mem_inProgress (s : State) (sl : Slot) :
    sl ∈ s.flow.inProgress ↔ s.disp.seq ≠ 0#4 ∧ sl = s.disp.cur := by
  unfold State.flow
  split <;> simp [*]

theorem coherent_iff_ordered (s : State) : Coherent s ↔ s.flow.Ordered ∧ s.disp.seq.toNat ≤ 13 := by
  have honce : s.flow.inProgress.Nodup := by
    unfold State.flow
    split <;> simp
  constructor
  · intro h
    exact ⟨⟨⟨h.ready, h.readyOnce⟩, ⟨fun sl => (mem_inProgress s sl).trans (h.processing sl).symm, honce⟩,
      ⟨h.output, h.outputOnce⟩⟩, h.stage⟩
  · rintro ⟨⟨hwaiting, hprogress, hfinished⟩, hstage⟩
    exact ⟨fun sl => (hprogress.mem sl).symm.trans (mem_inProgress s sl), hwaiting.mem, hfinished.mem, hwaiting.once,
      hfinished.once, hstage⟩

theorem countersAgree_iff_counted (s : State) : CountersAgree s ↔ s.flow.Counted := by
  have hlen : s.flow.inProgress.length = if s.disp.seq = 0#4 then 0 else 1 := by
    unfold State.flow
    split <;> rfl
  exact ⟨fun h => ⟨by rw [hlen]; exact h.inCore, h.waiting⟩, fun h => ⟨by rw [← hlen]; exact h.inCore, h.finished⟩⟩

/-- What a step but reset can do to the flow: nothing, or one frame enters, moves on by one queue, or leaves. -/
inductive FlowStep (f : Flow) : Flow → Prop
  | stay : FlowStep f f
  | capture (sl : Slot) (hst : f.st sl = .capturing) :
      FlowStep f { f with
        st := Function.update f.st sl .readyForProcessing
        waiting := f.waiting ++ [sl]
        ready := f.ready + 1#32 }
  | claim (sl : Slot) (rest : List Slot) (hwaiting : f.waiting = sl :: rest) (hidle : f.inProgress = []) :
      FlowStep f { f with
        st := Function.update f.st sl .processing
        waiting := rest
        inProgress := [sl] }
  | release (sl : Slot) (hbusy : f.inProgress = [sl]) :
      FlowStep f { f with
        st := Function.update f.st sl .readyForOutput
        inProgress := []
        finished := f.finished ++ [sl]
        done := f.done + 1#32 }
  | deliver (sl : Slot) (rest : List Slot) (hfinished : f.finished = sl :: rest) :
      FlowStep f { f with
        st := Function.update f.st sl .capturing
        finished := rest
        out := f.out + 1#32 }

section
variable {f g : Flow}

/-- A slot that moves leaves one queue and joins the next; the others do not list it. -/
theorem FlowStep.ordered (m : FlowStep f g) (h : f.Ordered) : g.Ordered := by
  obtain ⟨hwaiting, hprogress, hfinished⟩ := h
  cases m with
  | stay => exact ⟨hwaiting, hprogress, hfinished⟩
  | capture sl hst =>
    exact ⟨hwaiting.append (by simp [hst]), hprogress.other (by simp [hst]) (by decide),
      hfinished.other (by simp [hst]) (by decide)⟩
  | claim sl rest hq hidle =>
    rw [hq] at hwaiting
    rw [hidle] at hprogress
    have hst := hwaiting.head
    exact ⟨hwaiting.tail (by decide), hprogress.append (by simp [hst]), hfinished.other (by simp [hst]) (by decide)⟩
  | release sl hbusy =>
    rw [hbusy] at hprogress
    have hst := hprogress.head
    exact ⟨hwaiting.other (by simp [hst]) (by decide), hprogress.tail (by decide), hfinished.append (by simp [hst])⟩
  | deliver sl rest hq =>
    rw [hq] at hfinished
    have hst := hfinished.head
    exact ⟨hwaiting.other (by simp [hst]) (by decide), hprogress.other (by simp [hst]) (by decide),
      hfinished.tail (by decide)⟩

/-- What enters or leaves a queue is counted as it does. -/
theorem FlowStep.counted (m : FlowStep f g) (h : f.Counted) : g.Counted := by
  obtain ⟨hcore, hfinished⟩ := h
  cases m with
  | stay => exact ⟨hcore, hfinished⟩
  | capture sl hst => exact ⟨by simp only [List.length_append, List.length_singleton]; bv_omega, hfinished⟩
  | claim sl rest hq hidle =>
    rw [hq, hidle] at hcore
    exact ⟨hcore, hfinished⟩
  | release sl hbusy =>
    rw [hbusy] at hcore
    simp only [List.length_singleton] at hcore
    exact ⟨by simp only [List.length_nil]; bv_omega,
      by simp only [List.length_append, List.length_singleton]; bv_omega⟩
  | deliver sl rest hq =>
    rw [hq] at hfinished
    simp only [List.length_cons] at hfinished
    exact ⟨hcore, by bv_omega⟩

/-- In a flow whose queues are exact, the slot that moves goes on by one place of the cycle (46_dispatcher R271). -/
theorem FlowStep.cycle (m : FlowStep f g) (h : f.Ordered) (sl : Slot) :
    g.st sl = f.st sl ∨ g.st sl = nextSlotState (f.st sl) := by
  have moved (sl' : Slot) (x : SlotState) (hx : f.st sl' = x) :
      Function.update f.st sl' (nextSlotState x) sl = f.st sl ∨
      Function.update f.st sl' (nextSlotState x) sl = nextSlotState (f.st sl) := by
    by_cases he : sl = sl'
    · subst he
      exact .inr (by rw [Function.update_self, hx])
    · exact .inl (Function.update_of_ne he _ _)
  obtain ⟨hwaiting, hprogress, hfinished⟩ := h
  cases m with
  | stay => exact .inl rfl
  | capture sl' hst => exact moved sl' .capturing hst
  | claim sl' rest hq _ =>
    rw [hq] at hwaiting
    exact moved sl' .readyForProcessing hwaiting.head
  | release sl' hbusy =>
    rw [hbusy] at hprogress
    exact moved sl' .processing hprogress.head
  | deliver sl' rest hq =>
    rw [hq] at hfinished
    exact moved sl' .readyForOutput hfinished.head

end

/-! ### The flow of each instruction -/

/-- Storing one slot's state is an update of the states. -/
theorem slotState_setSlotState_eq_update (s : State) (sl : Slot) (v : SlotState) :
    (s.setSlotState sl v).slotState = Function.update s.slotState sl v := by
  funext sl'
  rw [slotState_setSlotState, Function.update_apply]

/-- The flow depends on the dispatcher and on three of the counters. -/
theorem flow_congr {s t : State} (hdisp : t.disp = s.disp) (hready : t.cnt.ready = s.cnt.ready)
    (hdone : t.cnt.done = s.cnt.done) (hout : t.cnt.out = s.cnt.out) : t.flow = s.flow := by
  have hst : t.slotState = s.slotState := funext (slotState_congr s t (by rw [hdisp]) (by rw [hdisp]))
  simp only [State.flow, hst, hdisp, hready, hdone, hout]

/-- A stage that hands on keeps the frame in progress. -/
theorem HandsOn.flow_eq {i : Instr} {s t : State} (h : HandsOn i s t) (hrelease : i ≠ .release)
    (hbusy : s.disp.seq ≠ 0#4) : t.flow = s.flow := by
  have hbusy' : t.disp.seq ≠ 0#4 := (nextStageCode_busy hrelease h.next).1
  have hst : t.slotState = s.slotState := funext (slotState_congr s t (by rw [h.disp]) (by rw [h.disp]))
  simp only [State.flow, hst, h.cur, h.rdyq, h.outq, h.cnt, if_neg hbusy, if_neg hbusy']

theorem flowStep_captureDone (sl : Slot) (s : State) : FlowStep s.flow (captureDone sl s).flow := by
  rcases captureDone_cases sl s with ⟨hst, h⟩ | ⟨-, h⟩ <;> rw [h]
  · convert FlowStep.capture (f := s.flow) sl hst using 1
    ext1
    case st => exact slotState_setSlotState_eq_update s sl .readyForProcessing
    all_goals simp [State.flow]
  · exact .stay

theorem outputReq_of_cons {s : State} {sl : Slot} {rest : List Slot} (h : s.disp.outq = sl :: rest) :
    outputReq Config.core s =
      State.setSlotState
        { s with
          disp := { s.disp with outq := rest }
          mem := writeSamples s.mem .outbuf (readSamples s.mem (.slot sl) 256)
          cnt := { s.cnt with out := s.cnt.out + 1#32 } } sl .capturing := by
  simp only [outputReq, h, core_n]

theorem outputReq_of_nil {s : State} (h : s.disp.outq = []) :
    outputReq Config.core s =
      State.signalUnderrun { s with cnt := { s.cnt with under := s.cnt.under + 1#32 } } := by
  simp only [outputReq, h]

theorem flowStep_outputReq (s : State) : FlowStep s.flow (outputReq Config.core s).flow := by
  cases h : s.disp.outq with
  | nil =>
    rw [outputReq_of_nil h]
    exact .stay
  | cons sl rest =>
    rw [outputReq_of_cons h]
    convert FlowStep.deliver (f := s.flow) sl rest h using 1
    ext1
    case st => exact slotState_setSlotState_eq_update _ sl .capturing
    all_goals simp [State.flow]

theorem claim_of_cons {s : State} {sl : Slot} {rest : List Slot} (hidle : s.disp.seq = 0#4)
    (hq : s.disp.rdyq = sl :: rest) : claim Config.core s = claimSlot Config.core sl rest s := by
  simp only [claim, hq]
  exact if_pos hidle

theorem claimSlot_seq (sl : Slot) (rest : List Slot) (s : State) :
    nextStageCode (claimSlot Config.core sl rest s).snap.mode .claim =
      some (claimSlot Config.core sl rest s).disp.seq :=
  nextStageCode_claim _

theorem flowStep_claim (s : State) : FlowStep s.flow (claim Config.core s).flow := by
  rcases claim_cases s with ⟨sl, rest, hidle, hq, h⟩ | h <;> rw [h]
  · have hbusy : (claimSlot Config.core sl rest s).disp.seq ≠ 0#4 :=
      (nextStageCode_busy (by decide) (claimSlot_seq sl rest s)).1
    convert FlowStep.claim (f := s.flow) sl rest hq (if_pos hidle) using 1
    ext1
    case inProgress => exact if_neg hbusy
    case st => exact slotState_setSlotState_eq_update s sl .processing
    all_goals simp [State.flow, claimSlot]
  · exact .stay

theorem flowStep_release {s : State} (hbusy : s.disp.seq ≠ 0#4) : FlowStep s.flow (release s).flow := by
  convert FlowStep.release (f := s.flow) s.disp.cur (if_neg hbusy) using 1
  ext1
  case inProgress => rfl
  case st => exact slotState_setSlotState_eq_update s s.disp.cur .readyForOutput
  all_goals simp [State.flow, release]

/-- A stage that is performed where `SEQ` names it moves the flow by one step at most. -/
theorem flowStep_perform_stage {i : Instr} {s : State} (hstage : isStage i = true) (hseq : stageCode i = s.disp.seq) :
    FlowStep s.flow (perform Config.core i s).flow := by
  by_cases hclaim : i = .claim
  · subst hclaim
    exact flowStep_claim s
  · have hbusy : s.disp.seq ≠ 0#4 := hseq ▸ stageCode_ne_zero hstage hclaim
    by_cases hrelease : i = .release
    · subst hrelease
      exact flowStep_release hbusy
    · rw [(perform_handsOn hstage hclaim hrelease s).flow_eq hrelease hbusy]
      exact .stay

/-- A command moves the flow by one step at most, and leaves `SEQ`. -/
theorem flowStep_perform_command {w : Word} {i : Instr} (h : decodeCommand w = .ok i) (s : State) :
    FlowStep s.flow (perform Config.core i s).flow := by
  rcases decodeCommand_cases h with rfl | ⟨sl, rfl⟩ | rfl
  · exact .stay
  · exact flowStep_captureDone sl s
  · exact flowStep_outputReq s

/-! ### `SEQ`, whoever acts -/

theorem captureDone_seq (sl : Slot) (s : State) : (captureDone sl s).disp.seq = s.disp.seq := by
  rcases captureDone_cases sl s with ⟨-, h⟩ | ⟨-, h⟩ <;> rw [h] <;> simp

theorem outputReq_seq (s : State) : (outputReq Config.core s).disp.seq = s.disp.seq := by
  unfold outputReq
  split <;> simp

theorem isStage_of_decodeCommand {w : Word} {i : Instr} (h : decodeCommand w = .ok i) : isStage i = false := by
  rcases decodeCommand_cases h with rfl | ⟨sl, rfl⟩ | rfl
  exacts [isStage_nop, isStage_captureDone sl, isStage_outputReq]

/-- No command moves `SEQ`. -/
theorem perform_seq_of_command {i : Instr} (h : isStage i = false) (s : State) :
    (perform Config.core i s).disp.seq = s.disp.seq := by
  cases i with
  | nop => rfl
  | captureDone sl => exact captureDone_seq sl s
  | outputReq => exact outputReq_seq s
  | _ => cases h

theorem portRead_disp (a : PortAddr) (s : State) : (portRead Config.core a s).disp = s.disp := by
  rcases portRead_cases a s with h | h | ⟨w, h⟩ <;> rw [h] <;> simp

theorem portRead_cnt (a : PortAddr) (s : State) : (portRead Config.core a s).cnt = s.cnt := by
  rcases portRead_cases a s with h | h | ⟨w, h⟩ <;> rw [h] <;> simp

theorem portStore_disp (a : PortAddr) (w : Word) (s : State) : (portStore Config.core a w s).disp = s.disp := by
  rcases portStore_cases a w s with h | h | ⟨p, h⟩ | ⟨sl, k, -, h⟩ | h | h <;> rw [h] <;> rfl

theorem portStore_cnt (a : PortAddr) (w : Word) (s : State) : (portStore Config.core a w s).cnt = s.cnt := by
  rcases portStore_cases a w s with h | h | ⟨p, h⟩ | ⟨sl, k, -, h⟩ | h | h <;> rw [h] <;> rfl

theorem portRead_flow (a : PortAddr) (s : State) : (portRead Config.core a s).flow = s.flow :=
  flow_congr (portRead_disp a s) (by rw [portRead_cnt]) (by rw [portRead_cnt]) (by rw [portRead_cnt])

theorem portStore_flow (a : PortAddr) (w : Word) (s : State) : (portStore Config.core a w s).flow = s.flow :=
  flow_congr (portStore_disp a w s) (by rw [portStore_cnt]) (by rw [portStore_cnt]) (by rw [portStore_cnt])

/-- The row of the table that a finished stage leaves `SEQ` at (46_dispatcher R262). -/
theorem perform_stage_seq {i : Instr} {s : State} (hstage : isStage i = true)
    (hclaim : i = .claim → s.disp.seq = 0#4 ∧ s.disp.rdyq ≠ []) :
    nextStageCode (perform Config.core i s).snap.mode i = some (perform Config.core i s).disp.seq := by
  by_cases hc : i = .claim
  · subst hc
    obtain ⟨hidle, hq⟩ := hclaim rfl
    obtain ⟨sl, rest, hcons⟩ := List.exists_cons_of_ne_nil hq
    rw [perform, claim_of_cons hidle hcons]
    exact claimSlot_seq sl rest s
  · by_cases hrelease : i = .release
    · subst hrelease
      rfl
    · have h := perform_handsOn hstage hc hrelease s
      rw [h.snap]
      exact h.next

/-- An instruction leaves `SEQ` at one of the fourteen codes. -/
theorem perform_seq_le {s : State} (i : Instr) (h : s.disp.seq.toNat ≤ 13) :
    (perform Config.core i s).disp.seq.toNat ≤ 13 := by
  by_cases hstage : isStage i = true
  · by_cases hrelease : i = .release
    · subst hrelease
      exact Nat.zero_le 13
    · by_cases hclaim : i = .claim
      · subst hclaim
        rcases claim_cases s with ⟨sl, rest, -, -, hc⟩ | hc <;> rw [perform, hc]
        · exact (nextStageCode_busy hrelease (claimSlot_seq sl rest s)).2
        · exact h
      · exact (nextStageCode_busy hrelease (perform_handsOn hstage hclaim hrelease s).next).2
  · rw [perform_seq_of_command (Bool.eq_false_of_not_eq_true hstage)]
    exact h

/-! ### The flow of a step -/

/-- Once what a step can do to the dispatcher: it moves the flow by one step at most, or is reset, after which the flow
is that of the reset state. -/
theorem step_flow_cases {s t : State} (h : step s = .next t) :
    (FlowStep s.flow t.flow ∧ (s.disp.seq.toNat ≤ 13 → t.disp.seq.toNat ≤ 13)) ∨
    ((∃ rest, s.env.sched = .rst :: rest) ∧ t.flow = State.reset.flow ∧ t.disp.seq = 0#4) := by
  rcases step_cases s t h with ⟨-, i, hi, ht⟩ | ⟨rest, -, i, hi, ht⟩ | ⟨a, rest, -, rfl⟩ | ⟨a, w, rest, -, -, rfl⟩ |
    ⟨a, w, rest, -, -, ⟨i, hi, ht⟩ | ⟨-, rfl⟩⟩ | ⟨rest, hs, rfl⟩
  · obtain rfl := eq_perform_of_exec ht
    obtain ⟨hstage, hseq⟩ := decodeStage_isStage _ i hi
    exact .inl ⟨flowStep_perform_stage hstage hseq, perform_seq_le i⟩
  · obtain rfl := eq_perform_of_exec ht
    obtain ⟨hstage, hseq⟩ := decodeStage_isStage _ i hi
    exact .inl ⟨flowStep_perform_stage (s := s.dropEvents 1) hstage hseq, perform_seq_le (s := s.dropEvents 1) i⟩
  · exact .inl ⟨(portRead_flow a (s.dropEvents 1)).symm ▸ .stay, by rw [portRead_disp]; exact id⟩
  · exact .inl ⟨(portStore_flow a w (s.dropEvents 1)).symm ▸ .stay, by rw [portStore_disp]; exact id⟩
  · obtain rfl := eq_perform_of_exec ht
    exact .inl ⟨flowStep_perform_command hi (s.dropEvents 1), perform_seq_le (s := s.dropEvents 1) i⟩
  · exact .inl ⟨.stay, id⟩
  · exact .inr ⟨⟨rest, hs⟩, rfl, rfl⟩

theorem ordered_reset : State.reset.flow.Ordered := by
  have hnil {x : SlotState} (hx : x ≠ .capturing) : Lists State.reset.slotState x [] :=
    ⟨fun sl => by cases sl <;> exact iff_of_false List.not_mem_nil hx.symm, List.nodup_nil⟩
  exact ⟨hnil (by decide), hnil (by decide), hnil (by decide)⟩

theorem counted_reset : State.reset.flow.Counted := ⟨by decide, by decide⟩

/-- Settles O11: coherence is the order of the flow, which each step of the flow and reset keep. -/
theorem stepKeepsDispatcherCoherent : Obligations.StepKeepsDispatcherCoherent := by
  intro s t hs h
  rw [coherent_iff_ordered] at hs ⊢
  obtain ⟨hord, hle⟩ := hs
  rcases step_flow_cases h with ⟨hflow, hseq⟩ | ⟨-, hflow, hseq⟩
  · exact ⟨hflow.ordered hord, hseq hle⟩
  · rw [hflow, hseq]
    exact ⟨ordered_reset, by decide⟩

/-- Settles O12: each step of the flow counts what it moves. -/
theorem stepKeepsCountersAgreeing : Obligations.StepKeepsCountersAgreeing := by
  intro s t _ hs h
  rw [countersAgree_iff_counted] at hs ⊢
  rcases step_flow_cases h with ⟨hflow, -⟩ | ⟨-, hflow, -⟩
  · exact hflow.counted hs
  · rw [hflow]
    exact counted_reset

/-- Settles O17: without reset a step moves the flow by one step at most, and such a step moves a slot by one place of
the cycle. -/
theorem slotsMoveOnlyAlongCycle : Obligations.SlotsMoveOnlyAlongCycle := by
  intro s t hs hrst h sl
  obtain ⟨hord, -⟩ := (coherent_iff_ordered s).mp hs
  rcases step_flow_cases h with ⟨hflow, -⟩ | ⟨⟨rest, hsched⟩, -⟩
  · exact hflow.cycle hord sl
  · exact absurd hsched (hrst rest)

end Sys2Proof.Machine

namespace Sys2Proof.Machine

/-! ## Commands (46_dispatcher section 1) -/

/-- Settles O5: the write is the step; it runs what the word decodes to. -/
theorem stepRunsDecodedCommand : Obligations.StepRunsDecodedCommand := by
  intro s w rest hs
  have hstep : step s = commandWrite exec w { s with env := { s.env with sched := rest } } := by
    have hcmd : (0x0002#13 : PortAddr).toNat = 2 := rfl
    rw [step_of_sched_cons hs, runEvent, portWrite, if_pos hcmd]
  refine ⟨fun i hi => ?_, fun r hr => ?_⟩
  · rw [hstep, commandWrite, hi]
  · rw [hstep, commandWrite, hr]
    rfl

/-- Settles O18. -/
theorem nopChangesNothing : Obligations.NopChangesNothing := ⟨rfl, exec_nop⟩

/-- Settles O10: the dispatcher's part is the order of the reset flow and its counters, the rest are the invariants'
own base cases. -/
theorem resetMeetsInvariants : Obligations.ResetMeetsInvariants :=
  ⟨(coherent_iff_ordered _).mpr ⟨ordered_reset, by decide⟩, (countersAgree_iff_counted _).mpr counted_reset,
    filterBounds_reset, legal_reset, wf_reset⟩

/-- A slot other than the stored one keeps its state. -/
theorem slotState_setSlotState_of_ne (s : State) {sl sl' : Slot} (h : sl' ≠ sl) (v : SlotState) :
    (s.setSlotState sl v).slotState sl' = s.slotState sl' := by
  rw [slotState_setSlotState, if_neg h]

/-- Storing a slot's state changes `ST[0]` and `ST[1]` alone. -/
theorem setSlotState_frame (s : State) (sl : Slot) (v : SlotState) :
    s.setSlotState sl v = { s with disp := { s.disp with
      st0 := (s.setSlotState sl v).disp.st0, st1 := (s.setSlotState sl v).disp.st1 } } := by
  cases sl <;> rfl

/-- Settles O19: the two cases of `captureDone_cases`. -/
theorem captureDoneQueuesSlot : Obligations.CaptureDoneQueuesSlot := by
  refine ⟨rfl, rfl, fun s sl => ⟨fun hst => ?_, fun hst => ?_⟩⟩
  · rcases captureDone_cases sl s with ⟨-, h⟩ | ⟨hne, -⟩
    · refine ⟨_, exec_captureDone sl s, ?_⟩
      rw [h]
      refine ⟨slotState_setSlotState_self s sl _, fun sl' hsl => slotState_setSlotState_of_ne s hsl _, rfl, ?_⟩
      rw [setSlotState_frame s sl]
    · exact absurd hst hne
  · rcases captureDone_cases sl s with ⟨heq, -⟩ | ⟨-, h⟩
    · exact absurd heq hst
    · rw [exec_captureDone, h]
      rfl

/-- Writing `N` samples of a 16-bit space changes no byte outside it. -/
theorem readByte_writeSamples_of_not_inSpace {sp : Space} (hsp : elemBytes sp = 2) (m : Memory) {ys : List Int}
    (hlen : ys.length = 256) {x : Nat} (hx : ¬ inSpace sp x) : readByte (writeSamples m sp ys) x = readByte m x := by
  refine readByte_writeSamples_outside _ _ _ _ fun k hk => ?_
  by_contra hc
  exact hx ⟨k, by simpa [hlen] using hk, by rw [hsp]; omega⟩

/-- A sample copied to another space reads the same there. -/
theorem readSample_writeSamples_readSamples (m : Memory) (sp sp' : Space) {n : Nat} (hn : n < 256) :
    readSample (writeSamples m sp' (readSamples m sp 256)) sp' n = readSample m sp n := by
  rw [readSample_writeSamples _ _ _ _ (by simpa using hn), readSamples_getD _ _ _ _ hn]
  exact toInt_ofInt16 _ (toInt16_bounds _).1 (toInt16_bounds _).2

theorem outputReq_mem {s : State} {sl : Slot} {rest : List Slot} (h : s.disp.outq = sl :: rest) :
    (outputReq Config.core s).mem = writeSamples s.mem .outbuf (readSamples s.mem (.slot sl) 256) := by
  rw [outputReq_of_cons h, setSlotState_mem]

/-- Settles O20: with a head of `OUTQ` its samples are copied and its slot is freed; without one only the underrun is
recorded. -/
theorem outputReqDeliversOrUnderruns : Obligations.OutputReqDeliversOrUnderruns := by
  refine ⟨rfl, fun s => ⟨fun sl rest hq => ?_, fun hq => ?_⟩⟩
  · refine ⟨_, exec_outputReq s, fun n hn => ?_, fun x hx => ?_, ?_⟩
    · rw [State.outSample, outputReq_mem hq]
      exact readSample_writeSamples_readSamples s.mem _ _ hn
    · rw [outputReq_mem hq]
      exact readByte_writeSamples_of_not_inSpace (sp := .outbuf) rfl s.mem (readSamples_length _ _ _) hx
    · rw [outputReq_of_cons hq]
      refine ⟨slotState_setSlotState_self _ _ _, fun sl' hsl => slotState_setSlotState_of_ne _ hsl _, ?_⟩
      rw [setSlotState_frame]
  · rw [exec_outputReq, outputReq_of_nil hq]
    rfl

/-! ## `CLAIM`, `RELEASE` and the table (46_dispatcher sections 2 to 4) -/

theorem claim_of_nil {s : State} (hq : s.disp.rdyq = []) : claim Config.core s = s := by
  rcases claim_cases s with ⟨sl, rest, -, hcons, -⟩ | h
  · rw [hq] at hcons
    cases hcons
  · exact h

theorem paramsClamped_iff (c : Config) (p : Params) : paramsClamped c p = true ↔
    (clampShift c p.freq).2 = true ∨ (clampShift c p.amp).2 = true ∨
    (clampVowel p.vowel).2 = true ∨ (clampMode p.mode).2 = true := by
  simp only [paramsClamped, Bool.or_eq_true, or_assoc]

/-- `CLAIM` changes the dispatcher, the snapshot and `FRFLAGS`. -/
theorem claimSlot_frame (sl : Slot) (rest : List Slot) (s : State) :
    claimSlot Config.core sl rest s = { s with
      disp := { s.disp with
        seq := stageCode (firstStage (clampMode s.par.mode).1)
        cur := sl
        st0 := (s.setSlotState sl .processing).disp.st0
        st1 := (s.setSlotState sl .processing).disp.st1
        rdyq := rest }
      snap := takeSnapshot Config.core s.par
      fr := { FrFlags.clear with parclamp := paramsClamped Config.core s.par } } := by
  unfold claimSlot
  rw [setSlotState_frame s sl]
  rfl

/-- Settles O21: `CLAIM` with a head of `RDYQ` is `claimSlot`, without one it waits. -/
theorem claimTakesOldestFrame : Obligations.ClaimTakesOldestFrame := by
  refine ⟨rfl, fun s hidle => ⟨fun hq => ?_, fun sl rest hq => ?_⟩⟩
  · rw [exec_claim, claim_of_nil hq]
  · refine ⟨_, exec_claim s, ?_⟩
    rw [claim_of_cons hidle hq]
    exact ⟨slotState_setSlotState_self s sl _, fun sl' hsl => slotState_setSlotState_of_ne s hsl _, rfl, rfl, rfl, rfl,
      paramsClamped_iff _ _, rfl, claimSlot_seq sl rest s, claimSlot_frame sl rest s⟩

/-- `RELEASE` changes the dispatcher and `CNT_DONE`. -/
theorem release_frame (s : State) :
    release s = { s with
      disp := { s.disp with
        seq := 0#4
        st0 := (s.setSlotState s.disp.cur .readyForOutput).disp.st0
        st1 := (s.setSlotState s.disp.cur .readyForOutput).disp.st1
        outq := s.disp.outq ++ [s.disp.cur] }
      cnt := { s.cnt with done := s.cnt.done + 1#32 } } := by
  unfold release
  rw [setSlotState_frame s s.disp.cur]
  rfl

/-- Settles O23. -/
theorem releaseQueuesFrameForOutput : Obligations.ReleaseQueuesFrameForOutput :=
  ⟨rfl, fun s => ⟨_, exec_release s, slotState_setSlotState_self s _ _,
    fun _ hsl => slotState_setSlotState_of_ne s hsl _, release_frame s⟩⟩

/-- Settles O24: a stage by its row of the table; commands, writes to `CMD` and port accesses leave `SEQ`. -/
theorem stagesFollowNextStageTable : Obligations.StagesFollowNextStageTable := by
  refine ⟨fun s t i hstage hclaim h => ?_, fun s t i hi h => ?_, fun s a w => ?_, fun s t w rest hs h => ?_⟩
  · obtain rfl := eq_perform_of_exec h
    exact perform_stage_seq hstage hclaim
  · obtain rfl := eq_perform_of_exec h
    exact perform_seq_of_command hi s
  · exact ⟨by rw [portRead_disp], by rw [portStore_disp]⟩
  · obtain ⟨hok, herror⟩ := stepRunsDecodedCommand s w rest hs
    cases hw : decodeCommand w with
    | ok i =>
      rw [hok i hw] at h
      obtain rfl := eq_perform_of_exec h
      exact perform_seq_of_command (isStage_of_decodeCommand hw) _
    | error r =>
      rw [herror r hw] at h
      cases h
      rfl

/-! ## A claimed frame, from `CLAIM` to `RELEASE` (46_dispatcher R263) -/

/-- CE takes `n` steps in mode `m` from the stage with code `code` to the wait point, the last of them `RELEASE`. -/
inductive StepsToRelease (m : EffectMode) : Nat → BitVec 4 → Prop
  | release : StepsToRelease m 1 13#4
  | stage {i : Instr} {n : Nat} {code : BitVec 4} (hstage : isStage i = true) (hclaim : i ≠ .claim)
      (hrelease : i ≠ .release) (hnext : nextStageCode m i = some code) (h : StepsToRelease m n code) :
      StepsToRelease m (n + 1) (stageCode i)

/-- The three stages of the radio chain and `RELEASE`. -/
theorem stepsToRelease_radio (m : EffectMode) : StepsToRelease m 4 10#4 :=
  .stage (i := .rhpf) rfl (by decide) (by decide) rfl <|
  .stage (i := .rsat) rfl (by decide) (by decide) rfl <|
  .stage (i := .rlim) rfl (by decide) (by decide) rfl .release

/-- The two stages of the filter bank before what follows it in the mode. -/
theorem stepsToRelease_filter {m : EffectMode} {n : Nat} {code : BitVec 4}
    (hnext : nextStageCode m .fbank = some code) (h : StepsToRelease m n code) : StepsToRelease m (n + 2) 8#4 :=
  .stage (i := .fbcoef) rfl (by decide) (by decide) rfl <|
  .stage (i := .fbank) rfl (by decide) (by decide) hnext h

/-- The seven stages from the analyzer to the resynthesizer before what follows them in the mode. -/
theorem stepsToRelease_shift {m : EffectMode} {n : Nat} {code : BitVec 4}
    (hnext : nextStageCode m .resyn = some code) (h : StepsToRelease m n code) : StepsToRelease m (n + 7) 1#4 :=
  .stage (i := .acorr) rfl (by decide) (by decide) rfl <|
  .stage (i := .levdur) rfl (by decide) (by decide) rfl <|
  .stage (i := .resid) rfl (by decide) (by decide) rfl <|
  .stage (i := .proots) rfl (by decide) (by decide) rfl <|
  .stage (i := .pshift) rfl (by decide) (by decide) rfl <|
  .stage (i := .precon) rfl (by decide) (by decide) rfl <|
  .stage (i := .resyn) rfl (by decide) (by decide) hnext h

/-- With the step of `CLAIM` itself, the table takes as many steps as R263 says. -/
theorem stepsToRelease_firstStage (m : EffectMode) :
    ∃ n, stageCount m = n + 1 ∧ StepsToRelease m n (stageCode (firstStage m)) := by
  cases m with
  | formantShift => exact ⟨8, rfl, stepsToRelease_shift rfl .release⟩
  | formantFilter => exact ⟨3, rfl, stepsToRelease_filter rfl .release⟩
  | radio => exact ⟨4, rfl, stepsToRelease_radio _⟩
  | formantShiftRadio => exact ⟨11, rfl, stepsToRelease_shift rfl (stepsToRelease_radio _)⟩
  | formantFilterRadio => exact ⟨6, rfl, stepsToRelease_filter rfl (stepsToRelease_radio _)⟩

/-- What the core did with the frame in progress in `s` by the time CE waits again in `t`. -/
structure FrameReleased (s t : State) : Prop where
  seq : t.disp.seq = 0#4
  rdyq : t.disp.rdyq = s.disp.rdyq
  outq : t.disp.outq = s.disp.outq ++ [s.disp.cur]
  slot : t.slotState s.disp.cur = .readyForOutput
  cnt : t.cnt = { s.cnt with done := s.cnt.done + 1#32 }
  par : t.par = s.par
  sticky : t.sticky = s.sticky

theorem frameReleased_release (s : State) : FrameReleased s (release s) where
  seq := rfl
  rdyq := by simp [release]
  outq := by simp [release]
  slot := slotState_setSlotState_self s _ _
  cnt := by simp [release]
  par := by simp [release]
  sticky := by simp [release]

/-- A stage that hands on makes no difference to what is done with the frame. -/
theorem FrameReleased.of_handsOn {i : Instr} {s t u : State} (h : FrameReleased t u) (hon : HandsOn i s t)
    (hhost : SameHost s t) : FrameReleased s u where
  seq := h.seq
  rdyq := h.rdyq.trans hon.rdyq
  outq := by rw [h.outq, hon.outq, hon.cur]
  slot := by rw [← hon.cur, h.slot]
  cnt := by rw [h.cnt, hon.cnt]
  par := h.par.trans hhost.par
  sticky := h.sticky.trans hhost.sticky

theorem run_succ_of_step {s t : State} (h : step s = .next t) (k : Nat) : core.run (k + 1) s = core.run k t := by
  have hcore : core.step s = .next t := h
  simp only [Host.Core.run, hcore]

/-- With no event to come the next step is the stage that `SEQ` names. -/
theorem step_of_stage {s : State} {i : Instr} (hsched : s.env.sched = []) (hstage : isStage i = true)
    (hseq : s.disp.seq = stageCode i) : step s = .next (perform Config.core i s) := by
  rw [step_of_sched_nil hsched, ceStep_of_decode (decodeStage_of_encode (hseq ▸ encode_of_isStage hstage)),
    exec_eq_perform]

/-- CE undisturbed brings the frame in progress to its release in the steps of the table. -/
theorem run_to_release {m : EffectMode} {n : Nat} {code : BitVec 4} (h : StepsToRelease m n code) :
    ∀ s : State, s.env.sched = [] → s.disp.seq = code → s.snap.mode = m →
      ∃ t, core.run n s = .next t ∧ FrameReleased s t := by
  induction h with
  | release =>
    intro s hsched hseq _
    exact ⟨release s, run_succ_of_step (step_of_stage (i := .release) hsched rfl hseq) 0, frameReleased_release s⟩
  | @stage i n code hstage hclaim hrelease hnext _ ih =>
    intro s hsched hseq hmode
    have hon := perform_handsOn hstage hclaim hrelease s
    have hhost := sameHost_perform hstage s
    have hcode : (perform Config.core i s).disp.seq = code :=
      Option.some.inj (hon.next.symm.trans (hmode ▸ hnext))
    obtain ⟨t, hrun, hreleased⟩ := ih _ (by rw [hhost.env, hsched]) hcode (by rw [hon.snap, hmode])
    exact ⟨t, (run_succ_of_step (step_of_stage hsched hstage hseq) n).trans hrun, hreleased.of_handsOn hon hhost⟩

/-- Settles O25: the first step is `CLAIM`, which sets `CUR` and the mode; the table leads on to `RELEASE`. -/
theorem claimedFrameRunsToRelease : Obligations.ClaimedFrameRunsToRelease := by
  intro s sl rest hsched hidle hq
  have hstep : step s = .next (claimSlot Config.core sl rest s) := by
    rw [step_of_stage (i := .claim) hsched rfl hidle, perform, claim_of_cons hidle hq]
  obtain ⟨n, hcount, hsteps⟩ := stepsToRelease_firstStage (clampMode s.par.mode).1
  obtain ⟨t, hrun, hreleased⟩ := run_to_release hsteps (claimSlot Config.core sl rest s)
    (by rw [claimSlot_frame, hsched]) (by rw [claimSlot_frame]) (by rw [claimSlot_frame]; rfl)
  rw [claimSlot_frame] at hreleased
  rw [hcount]
  exact ⟨t, (run_succ_of_step hstep n).trans hrun, hreleased.seq, hreleased.rdyq, hreleased.outq, hreleased.slot,
    hreleased.cnt, hreleased.par, hreleased.sticky⟩

/-! ## The clamps (46_dispatcher R259) -/

section
variable {a b c : F32}

theorem fle_iff_fKey : fle a b = true ↔ isNaN a = false ∧ isNaN b = false ∧ fKey a ≤ fKey b := by
  simp [fle, and_assoc]

theorem flt_iff_fKey : flt a b = true ↔ isNaN a = false ∧ isNaN b = false ∧ fKey a < fKey b := by
  simp [flt, and_assoc]

theorem fle_of_flt (h : flt a b = true) : fle a b = true := by
  obtain ⟨ha, hb, hkey⟩ := flt_iff_fKey.mp h
  exact fle_iff_fKey.mpr ⟨ha, hb, hkey.le⟩

theorem fle_trans (h : fle a b = true) (h' : fle b c = true) : fle a c = true := by
  obtain ⟨ha, -, hab⟩ := fle_iff_fKey.mp h
  obtain ⟨-, hc, hbc⟩ := fle_iff_fKey.mp h'
  exact fle_iff_fKey.mpr ⟨ha, hc, hab.trans hbc⟩

theorem not_fle_of_flt (h : flt a b = true) : ¬ fle b a = true := by
  intro h'
  obtain ⟨-, -, hab⟩ := flt_iff_fKey.mp h
  obtain ⟨-, -, hba⟩ := fle_iff_fKey.mp h'
  omega

end

section
variable {w : Word}

theorem clampShift_of_isNaN (h : isNaN w = true) : clampShift Config.core w = (0x3F800000#32, true) := if_pos h

theorem clampShift_of_mem (hlow : fle 0x3E800000#32 w = true) (hhigh : fle w 0x40800000#32 = true) :
    clampShift Config.core w = (w, false) := by
  have hnan : isNaN w = false := isNaN_of_fle_left hhigh
  simp [clampShift, hnan, Config.core, hlow, hhigh]

theorem clampShift_of_below (h : flt w 0x3E800000#32 = true) : clampShift Config.core w = (0x3E800000#32, true) := by
  have hnan : isNaN w = false := (flt_iff_fKey.mp h).1
  simp [clampShift, hnan, Config.core, not_fle_of_flt h]

theorem clampShift_of_above (h : flt 0x40800000#32 w = true) :
    clampShift Config.core w = (0x40800000#32, true) := by
  have hnan : isNaN w = false := (flt_iff_fKey.mp h).2.1
  have hlow : fle 0x3E800000#32 w = true := fle_trans (by decide) (fle_of_flt h)
  simp [clampShift, hnan, Config.core, hlow, not_fle_of_flt h]

/-- A pattern is a NaN, in the range of a shift factor, below it or above it. -/
theorem shiftRange_cases (w : Word) :
    isNaN w = true ∨ (fle 0x3E800000#32 w = true ∧ fle w 0x40800000#32 = true) ∨
    flt w 0x3E800000#32 = true ∨ flt 0x40800000#32 w = true := by
  have hlow : isNaN 0x3E800000#32 = false := by decide
  have hhigh : isNaN 0x40800000#32 = false := by decide
  cases hnan : isNaN w with
  | true => exact .inl rfl
  | false =>
    simp only [fle_iff_fKey, flt_iff_fKey, hlow, hhigh, hnan, true_and]
    omega

/-- The flag of `ClampShift` is clear exactly on the range. -/
theorem clampShift_snd_iff : (clampShift Config.core w).2 = false ↔
    (fle 0x3E800000#32 w = true ∧ fle w 0x40800000#32 = true) := by
  refine ⟨fun h => ?_, fun ⟨hlow, hhigh⟩ => by rw [clampShift_of_mem hlow hhigh]⟩
  rcases shiftRange_cases w with hnan | hmem | hbelow | habove
  · rw [clampShift_of_isNaN hnan] at h
    cases h
  · exact hmem
  · rw [clampShift_of_below hbelow] at h
    cases h
  · rw [clampShift_of_above habove] at h
    cases h

/-- `ClampVowel` gives the code nearest to the signed word, its flag clear exactly on the codes. -/
theorem clampVowel_spec (w : Word) : (vowelCode (clampVowel w).1 : Int) = max 0 (min 4 w.toInt) ∧
    ((clampVowel w).2 = false ↔ 0 ≤ w.toInt ∧ w.toInt ≤ 4) := by
  unfold clampVowel
  dsimp only
  split_ifs
  all_goals
    simp only [vowelCode, true_iff, false_iff]
    omega

/-- `ClampMode` gives the code nearest to the unsigned word, its flag clear exactly on the codes. -/
theorem clampMode_spec (w : Word) : modeCode (clampMode w).1 = min 4 w.toNat ∧
    ((clampMode w).2 = false ↔ w.toNat ≤ 4) := by
  unfold clampMode
  split
  case h_6 h0 h1 h2 h3 h4 =>
    have hgt : 4 < w.toNat := by
      simp only [imp_false] at h0 h1 h2 h3 h4
      omega
    exact ⟨(min_eq_left hgt.le).symm, by simpa using hgt⟩
  all_goals
    simp only [modeCode, true_iff]
    omega

end

/-- Settles O22: `ClampShift` by the place of the word, the other two by the codes. -/
theorem clampsGiveNearestValidValue : Obligations.ClampsGiveNearestValidValue := by
  intro w
  obtain ⟨hlow, hhigh⟩ := clampShift_bounds w
  refine ⟨⟨hlow, hhigh, clampShift_snd_iff, fun h => ?_, fun h => ?_, fun h => ?_, fun h => ?_⟩, clampVowel_spec w,
    clampMode_spec w⟩
  · obtain ⟨hmin, hmax⟩ := clampShift_snd_iff.mp h
    rw [clampShift_of_mem hmin hmax]
  · rw [clampShift_of_isNaN h]
  · rw [clampShift_of_below h]
  · rw [clampShift_of_above h]

end Sys2Proof.Machine

namespace Sys2Proof.Machine

/-! ## No step stops (60_exceptions R290) -/

/-- Each of the fourteen codes of a stage names its stage (30_encoding R104). -/
theorem exists_decodeStage_of_le {code : BitVec 4} (h : code.toNat ≤ 13) : ∃ i, decodeStage code = .ok i := by
  have htable := stageCodeDecodesIffValid.1 code
  rw [List.getElem?_eq_getElem (Nat.lt_succ_of_le h)] at htable
  cases hdec : decodeStage code with
  | ok i => exact ⟨i, rfl⟩
  | error r =>
    rw [hdec] at htable
    cases htable

section
variable {run : Instr → State → Host.Outcome State Fault Refusal} {s : State}

/-- Where every instruction answers a next state, so does CE's step at one of the fourteen codes. -/
theorem ceStep_next (hrun : ∀ i u, ∃ t, run i u = .next t) (h : s.disp.seq.toNat ≤ 13) :
    ∃ t, ceStep run s = .next t := by
  obtain ⟨i, hi⟩ := exists_decodeStage_of_le h
  obtain ⟨t, ht⟩ := hrun i s
  exact ⟨t, by rw [ceStep, hi, ← ht]⟩

/-- An illegal command word sets `CMDERR` and the step completes. -/
theorem commandWrite_next (hrun : ∀ i u, ∃ t, run i u = .next t) (w : Word) (s : State) :
    ∃ t, commandWrite run w s = .next t := by
  unfold commandWrite
  split
  · exact hrun _ s
  · exact ⟨_, rfl⟩

theorem portWrite_next (c : Config) (hrun : ∀ i u, ∃ t, run i u = .next t) (a : PortAddr) (w : Word) (s : State) :
    ∃ t, portWrite c run a w s = .next t := by
  unfold portWrite
  split
  · exact commandWrite_next hrun w s
  · exact ⟨_, rfl⟩

/-- Only CE's own event asks for more than a total `run`: what `SEQ` holds. -/
theorem runEvent_next (c : Config) (hrun : ∀ i u, ∃ t, run i u = .next t) (e : Event) (h : s.disp.seq.toNat ≤ 13) :
    ∃ t, runEvent c run e s = .next t := by
  cases e with
  | read a => exact ⟨_, rfl⟩
  | write a w => exact portWrite_next c hrun a w s
  | ce => exact ceStep_next hrun h
  | rst => exact ⟨_, rfl⟩

theorem stepBy_next (c : Config) (hrun : ∀ i u, ∃ t, run i u = .next t) (h : s.disp.seq.toNat ≤ 13) :
    ∃ t, stepBy c run s = .next t := by
  unfold stepBy
  split
  · exact ceStep_next hrun h
  · exact runEvent_next c hrun _ h

end

/-- Settles O16: coherence shuts out the codes 14 and 15, and no instruction stops in any configuration. -/
theorem noStepRaisesException : Obligations.NoStepRaisesException := by
  intro s hs
  exact ⟨stepBy_next Config.core exec_next hs.stage, fun c => stepBy_next c (fun _ _ => ⟨_, rfl⟩) hs.stage⟩

end Sys2Proof.Machine

namespace Sys2Proof.Machine

/-! ## The interrupt output (60_exceptions R296, R297) -/

/-- A word is not zero exactly when some bit of it is set. -/
theorem bitVec_ne_zero_iff {n : Nat} {x : BitVec n} : x ≠ 0#n ↔ ∃ i, x.getLsbD i = true := by
  rw [Ne, BitVec.zero_iff_eq_false, not_forall]
  simp only [Bool.not_eq_false]

/-- The implemented enable bits of `IRQ_EN` (10_state R36). -/
theorem irqMask_getLsbD (i : Nat) : irqMask.getLsbD i = true ↔ i = 0 ∨ i = 8 ∨ i = 9 ∨ i = 10 := by
  have hbits : irqMask = flagBit true 0 ||| flagBit true 8 ||| flagBit true 9 ||| flagBit true 10 := by decide
  simp [hbits, flagBit_getLsbD, or_assoc]

/-- The equation of `irq`, bit by bit: only the four implemented bits of `IRQ_EN` reach the output. -/
theorem irq_iff_bits (s : State) : s.irq = true ↔
    (s.statusWord.getLsbD 0 = true ∧ s.irqEn.getLsbD 0 = true) ∨
    (s.statusWord.getLsbD 8 = true ∧ s.irqEn.getLsbD 8 = true) ∨
    (s.statusWord.getLsbD 9 = true ∧ s.irqEn.getLsbD 9 = true) ∨
    (s.statusWord.getLsbD 10 = true ∧ s.irqEn.getLsbD 10 = true) := by
  have hword : s.irq = true ↔ ∃ i, (s.statusWord.getLsbD i = true ∧ s.irqEn.getLsbD i = true) ∧
      (i = 0 ∨ i = 8 ∨ i = 9 ∨ i = 10) := by
    simp only [State.irq, bne_iff_ne, bitVec_ne_zero_iff, BitVec.getLsbD_and, Bool.and_eq_true, irqMask_getLsbD]
  simp only [hword, and_or_left, exists_or, exists_eq_right]

/-- Settles O52: bits 0, 8, 9 and 10 of `STATUS` are the four sources; `FRAME_PEND` and `BUSY`, bits 1 and 2, have no
enable bit. -/
theorem irqFollowsEnabledSources : Obligations.IrqFollowsEnabledSources := by
  intro s
  simp only [irq_iff_bits, statusWord_getLsbD]
  simp

end Sys2Proof.Machine

namespace Sys2Proof.Machine

/-! ## The reset state and the reset event (70_reset R330 to R332) -/

/-- Every memory element is 0: the memory of the reset state lists no byte (10_state R43 to R45, R52). -/
theorem readByte_reset (x : Nat) : readByte State.reset.mem x = 0#8 := rfl

/-- The three band-pass stages start with no coefficients and no history; only stage 0 has coefficients. -/
theorem biquad_reset_of_ne_highPass {st : BiquadStage} (h : st ≠ .highPass) :
    State.reset.biquad st = Biquad.atReset ⟨0#32, 0#32, 0#32, 0#32, 0#32⟩ := by
  cases st with
  | highPass => exact absurd rfl h
  | band1 => rfl
  | band2 => rfl
  | band3 => rfl

/-- With every enable bit 0 the output is low, whatever the flags say (60_exceptions R296). -/
theorem irq_eq_false_of_irqEn {s : State} (h : s.irqEn = 0#32) : s.irq = false := by
  simp [← Bool.not_eq_true, irq_iff_bits, h]

/-- `HP_COEF` in the decimal form of 45_radio_chain R231. -/
theorem highPass_decimal : Config.highPass =
    { b0 := 246978379#32, b1 := BitVec.ofInt 32 (-493956758), b2 := 246978379#32
      a1 := BitVec.ofInt 32 (-492238862), a2 := 227239197#32 } := by decide

theorem frFlagsWord_clear : FrFlags.clear.word = 0#32 := by decide

/-- Settles O8: the registers are read off the reset record; what the spec writes in another form (`HP_COEF`, the
band-passes, `FRFLAGS`, the memory, `irq`) has a lemma above. -/
theorem resetStateValues : Obligations.ResetStateValues :=
  ⟨rfl, rfl, rfl, congrArg Biquad.atReset highPass_decimal, fun _ => biquad_reset_of_ne_highPass, rfl, rfl, rfl, rfl,
    rfl, rfl, rfl, rfl, frFlagsWord_clear, rfl, rfl, readByte_reset, irq_eq_false_of_irqEn rfl⟩

/-- Settles O9: the event is the step, and `applyReset` takes nothing from the state but its own fields. -/
theorem resetEventRestartsCore : Obligations.ResetEventRestartsCore := by
  intro s rest hs
  rw [step_of_sched_cons hs, runEvent]
  rfl

end Sys2Proof.Machine
